-- ==== Sys2Proof/Word.lean ====
section
/-! DEFINITION. The number types of the core (44_common_laws.md R245, 00_scope.md R9), the stereo pair
(R14, R249) and the four-channel array (10_state.md R24 to R41). -/

namespace Sys2Proof

/-- A time quantity, width W_TIME: 64-bit two's complement, wrapping (00_scope.md R8, R9). -/
abbrev Time := BitVec 64

/-- An amplitude quantity, a delta memory slot, an integrator or a host buffer element, width W_AMP:
32-bit two's complement, wrapping (00_scope.md R8, R9). -/
abbrev Amp := BitVec 32

/-- A produced sample or a resampler history element, width W_PCM: 16-bit signed (00_scope.md R8). -/
abbrev Sample := BitVec 16

/-- `s64(v)` and `u64(v)`: the integer `v` modulo 2^64 (00_scope.md R9). -/
def s64 (v : Int) : Time := BitVec.ofInt 64 v

/-- `s32(v)`: the integer `v` modulo 2^32 (00_scope.md R9). -/
def s32 (v : Int) : Amp := BitVec.ofInt 32 v

/-- `s16(v)`: the integer `v` modulo 2^16 (00_scope.md R9). -/
def s16 (v : Int) : Sample := BitVec.ofInt 16 v

/-- A two-lane value: `x.l` is the left lane, `x.r` the right lane (00_scope.md R14, R249). -/
structure Stereo (α : Type) where
  l : α
  r : α
  deriving DecidableEq, Repr, Inhabited

/-- A channel index: 0, 1, 2 are the tone channels 1, 2, 3 and 3 is the noise channel (10_state.md R24). -/
inductive Chan where
  | c0 | c1 | c2 | c3
  deriving DecidableEq, Repr, Inhabited

/-- A tone channel index 0, 1, 2 (41_psg_write.md R166, 42_psg_run.md R194). -/
inductive Tone where
  | t0 | t1 | t2
  deriving DecidableEq, Repr, Inhabited

/-- The channel a tone channel is. -/
def Tone.chan : Tone → Chan
  | .t0 => .c0
  | .t1 => .c1
  | .t2 => .c2

/-- An array over the four channels, index 0 to 3. -/
structure Quad (α : Type) where
  q0 : α
  q1 : α
  q2 : α
  q3 : α
  deriving DecidableEq, Repr, Inhabited

/-- The element of channel `c`. -/
def Quad.get {α : Type} (q : Quad α) : Chan → α
  | .c0 => q.q0
  | .c1 => q.q1
  | .c2 => q.q2
  | .c3 => q.q3

/-- The array with the element of channel `c` replaced. -/
def Quad.set {α : Type} (q : Quad α) : Chan → α → Quad α
  | .c0, x => { q with q0 := x }
  | .c1, x => { q with q1 := x }
  | .c2, x => { q with q2 := x }
  | .c3, x => { q with q3 := x }

/-- The same value on all four channels. -/
def Quad.all {α : Type} (x : α) : Quad α := ⟨x, x, x, x⟩

end Sys2Proof
end

