-- ==== Sys2Proof/Config.lean ====
section
/-! DEFINITION. What the spec leaves to an implementation or to the host: the parameters of
00_scope.md R8 (93_implementation_defined.md Part 2) as one record of plain data, and the free value for an answer of the host that State does not hold. -/

namespace Sys2Proof

/-- `chipType`: INTEGRATED or DISCRETE (10_state.md R35). -/
inductive ChipType where
  | integrated
  | discrete
  deriving DecidableEq, Repr, Inhabited

/-- VARIANT, the strap that fixes the timing variant of an instance (10_state.md R37, 42_psg_run.md R190). -/
inductive Variant where
  | baseline
  | accurate
  deriving DecidableEq, Repr, Inhabited

/-- The parameters of one instance (00_scope.md R8, P1 to P9 of 93_implementation_defined.md): fixed for the
life of the instance, changed by no command (10_state.md R22). -/
structure Params where
  /-- VARIANT (P1). -/
  variant : Variant
  /-- MCYCLES_RATIO, an integer >= 1 (P2). -/
  mcyclesRatio : Nat
  /-- DB_INIT_SAMPLES (P3). -/
  dbInitSamples : Nat
  /-- DB_MAX_SLOTS (P4): `none` is the unbounded memory of the spec's model (20_memory.md R72, R76). -/
  dbMaxSlots : Option Nat
  /-- KERNEL[0..32][0..7] (P6, 10_state.md R62). -/
  kernel : List (List Int)
  /-- VOLTAB[0..15] (P7, 10_state.md R63). -/
  voltab : List Nat
  /-- PAN[0..3][L,R] in percent (P8). -/
  pan : Quad (Stereo Nat)
  /-- NOISE_TAPS[INTEGRATED] (P9). -/
  tapsIntegrated : BitVec 16
  /-- NOISE_TAPS[DISCRETE] (P9). -/
  tapsDiscrete : BitVec 16
  deriving DecidableEq, Repr

/-- FREE VALUE: the pair the host returns for `generateSample` request number `n` when State holds no answer
for it (43_resampler.md R238: the input stream is no state of the core and the core makes no assumption about
it; entry 6 of the assumption log). It has no body: nothing can be proved of its value. -/
opaque Config.hostAnswer (n : Nat) : Stereo Sample

end Sys2Proof
end

