-- ==== Sys2Proof/Machine/Tables.lean ====
section
/-! DEFINITION. The read-only tables, copied from the spec: the default KERNEL (10_state.md R62), the default
VOLTAB (R63), the SINC table (43_resampler.md R232), the constants NOISE_DIV, NOISE_WIDTH, ZERO_FREQ and BUF_EXTRA,
and the default parameters of 00_scope.md R8. -/

namespace Sys2Proof.Machine

/-- The default KERNEL of 10_state.md R62, rows 0 to 10. -/
def kernelRows0 : List (List Int) :=
  [[43, -115, 350, -488, 1136, -914, 5861, 21022],
   [44, -118, 348, -473, 1076, -799, 5274, 21001],
   [45, -121, 344, -454, 1011, -677, 4706, 20936],
   [46, -122, 336, -431, 942, -549, 4156, 20829],
   [47, -123, 327, -404, 868, -418, 3629, 20679],
   [47, -122, 316, -375, 792, -285, 3124, 20488],
   [47, -120, 303, -344, 714, -151, 2644, 20256],
   [46, -117, 289, -310, 634, -17, 2188, 19985],
   [46, -114, 273, -275, 553, 117, 1758, 19675],
   [44, -108, 255, -237, 471, 247, 1356, 19327],
   [43, -103, 237, -199, 390, 373, 981, 18944]]

/-- The default KERNEL of 10_state.md R62, rows 11 to 21. -/
def kernelRows1 : List (List Int) :=
  [[42, -98, 218, -160, 310, 495, 633, 18527],
   [40, -91, 198, -121, 231, 611, 314, 18078],
   [38, -84, 178, -81, 153, 722, 22, 17599],
   [36, -76, 157, -43, 80, 824, -241, 17092],
   [34, -68, 135, -3, 8, 919, -476, 16558],
   [32, -61, 115, 34, -60, 1006, -683, 16001],
   [29, -52, 94, 70, -123, 1083, -862, 15422],
   [27, -44, 73, 106, -184, 1152, -1015, 14824],
   [25, -36, 53, 139, -239, 1211, -1142, 14210],
   [22, -27, 34, 170, -290, 1261, -1244, 13582],
   [20, -20, 16, 199, -335, 1301, -1322, 12942]]

/-- The default KERNEL of 10_state.md R62, rows 22 to 32. -/
def kernelRows2 : List (List Int) :=
  [[18, -12, -3, 226, -375, 1331, -1376, 12293],
   [15, -4, -19, 250, -410, 1351, -1408, 11638],
   [13, 3, -35, 272, -439, 1361, -1419, 10979],
   [11, 9, -49, 292, -464, 1362, -1410, 10319],
   [9, 16, -63, 309, -483, 1354, -1383, 9660],
   [7, 22, -75, 322, -496, 1337, -1339, 9005],
   [6, 26, -85, 333, -504, 1312, -1280, 8355],
   [4, 31, -94, 341, -507, 1278, -1205, 7713],
   [3, 35, -102, 347, -506, 1238, -1119, 7082],
   [1, 40, -110, 350, -499, 1190, -1021, 6464],
   [0, 43, -115, 350, -488, 1136, -914, 5861]]

/-- The default KERNEL, 33 rows of 8 (10_state.md R62). -/
def kernelDefault : List (List Int) := kernelRows0 ++ kernelRows1 ++ kernelRows2

/-- The default VOLTAB (10_state.md R63). -/
def voltabDefault : List Nat :=
  [2800, 2224, 1766, 1403, 1114, 885, 703, 558, 443, 352, 280, 222, 176, 140, 111, 0]

/-- The SINC table of 43_resampler.md R232, rows 0 to 10. -/
def sincRows0 : List (List Int) :=
  [[82, -309, 757, -1438, 2273, -3097, 3706, 28820, 3706, -3097, 2273, -1438, 757, -309, 82, 0],
   [91, -322, 760, -1400, 2135, -2746, 2791, 28786, 4655, -3439, 2399, -1466, 747, -292, 71, -2],
   [99, -332, 757, -1352, 1985, -2387, 1912, 28677, 5634, -3768, 2509, -1484, 731, -273, 58, 2],
   [106, -339, 749, -1296, 1825, -2024, 1074, 28489, 6640, -4081, 2604, -1490, 709, -250, 45, 7],
   [112, -342, 734, -1231, 1657, -1660, 278, 28228, 7669, -4374, 2682, -1484, 680, -224, 30, 13],
   [116, -343, 715, -1160, 1482, -1297, -473, 27902, 8718, -4647, 2741, -1467, 644, -195, 14, 18],
   [119, -341, 691, -1082, 1301, -938, -1177, 27503, 9781, -4894, 2781, -1437, 602, -163, -3, 25],
   [121, -337, 662, -998, 1117, -586, -1833, 27039, 10856, -5113, 2800, -1395, 553, -128, -21, 31],
   [121, -330, 630, -910, 931, -243, -2439, 26508, 11938, -5302, 2799, -1341, 498, -90, -40, 38],
   [121, -320, 594, -818, 744, 89, -2993, 25916, 13021, -5458, 2775, -1274, 436, -50, -60, 45],
   [119, -309, 554, -723, 557, 409, -3497, 25266, 14103, -5578, 2728, -1194, 369, -8, -80, 52]]

/-- The SINC table of 43_resampler.md R232, rows 11 to 21. -/
def sincRows1 : List (List Int) :=
  [[117, -295, 512, -626, 373, 713, -3947, 24557, 15177, -5660, 2659, -1102, 296, 36, -101, 59],
   [113, -280, 468, -527, 192, 1001, -4346, 23795, 16241, -5701, 2566, -998, 218, 82, -122, 66],
   [109, -264, 421, -428, 16, 1271, -4691, 22985, 17288, -5699, 2449, -883, 136, 129, -144, 73],
   [104, -246, 374, -329, -155, 1522, -4985, 22127, 18315, -5653, 2309, -757, 49, 178, -165, 80],
   [99, -226, 325, -231, -318, 1751, -5227, 21227, 19316, -5559, 2146, -620, -42, 227, -186, 86],
   [93, -207, 276, -135, -473, 1960, -5418, 20288, 20288, -5418, 1960, -473, -135, 276, -207, 93],
   [86, -186, 227, -42, -620, 2146, -5559, 19316, 21227, -5227, 1751, -318, -231, 325, -226, 99],
   [80, -165, 178, 49, -757, 2309, -5653, 18315, 22127, -4985, 1522, -155, -329, 374, -246, 104],
   [73, -144, 129, 136, -883, 2449, -5699, 17288, 22985, -4691, 1271, 16, -428, 421, -264, 109],
   [66, -122, 82, 218, -998, 2566, -5701, 16241, 23795, -4346, 1001, 192, -527, 468, -280, 113],
   [59, -101, 36, 296, -1102, 2659, -5660, 15177, 24557, -3947, 713, 373, -626, 512, -295, 117]]

/-- The SINC table of 43_resampler.md R232, rows 22 to 32. -/
def sincRows2 : List (List Int) :=
  [[52, -80, -8, 369, -1194, 2728, -5578, 14103, 25266, -3497, 409, 557, -723, 554, -309, 119],
   [45, -60, -50, 436, -1274, 2775, -5458, 13021, 25916, -2993, 89, 744, -818, 594, -320, 121],
   [38, -40, -90, 498, -1341, 2799, -5302, 11938, 26508, -2439, -243, 931, -910, 630, -330, 121],
   [31, -21, -128, 553, -1395, 2800, -5113, 10856, 27039, -1833, -586, 1117, -998, 662, -337, 121],
   [25, -3, -163, 602, -1437, 2781, -4894, 9781, 27503, -1177, -938, 1301, -1082, 691, -341, 119],
   [18, 14, -195, 644, -1467, 2741, -4647, 8718, 27902, -473, -1297, 1482, -1160, 715, -343, 116],
   [13, 30, -224, 680, -1484, 2682, -4374, 7669, 28228, 278, -1660, 1657, -1231, 734, -342, 112],
   [7, 45, -250, 709, -1490, 2604, -4081, 6640, 28489, 1074, -2024, 1825, -1296, 749, -339, 106],
   [2, 58, -273, 731, -1484, 2509, -3768, 5634, 28677, 1912, -2387, 1985, -1352, 757, -332, 99],
   [-2, 71, -292, 747, -1466, 2399, -3439, 4655, 28786, 2791, -2746, 2135, -1400, 760, -322, 91],
   [0, 82, -309, 757, -1438, 2273, -3097, 3706, 28820, 3706, -3097, 2273, -1438, 757, -309, 82]]

/-- SINC, 33 rows of 16, Q15 (43_resampler.md R232). -/
def sinc : List (List Int) := sincRows0 ++ sincRows1 ++ sincRows2

/-- Entry `[p][k]` of a table of rows. -/
def tableAt (t : List (List Int)) (p k : Nat) : Int := (t.getD p []).getD k 0

/-- NOISE_DIV[0..2], the noise half-period in PSG cycles for the RATE fields 0, 1, 2 (00_scope.md R8). -/
def noiseDiv : Nat → Nat
  | 0 => 0x10
  | 1 => 0x20
  | _ => 0x40

/-- NOISE_WIDTH[type], the LFSR width (00_scope.md R8). -/
def noiseWidth : ChipType → Nat
  | .integrated => 16
  | .discrete => 15

/-- ZERO_FREQ[type], the period used when a tone register holds 0 (00_scope.md R8). -/
def zeroFreq : ChipType → Nat
  | .integrated => 1
  | .discrete => 0x400

/-- BUF_EXTRA, the kernel overhang in slots (00_scope.md R7). -/
def bufExtra : Nat := 34

/-- The default parameters (00_scope.md R8); for the OPEN ones, values of the model's choice (DESIGN CHOICE,
entry 7): BASELINE, ratio 1, no initial samples, unbounded delta memories. -/
def paramsDefault : Params where
  variant := .baseline
  mcyclesRatio := 1
  dbInitSamples := 0
  dbMaxSlots := none
  kernel := kernelDefault
  voltab := voltabDefault
  pan := Quad.all ⟨100, 100⟩
  tapsIntegrated := 0x0009
  tapsDiscrete := 0x0003

end Sys2Proof.Machine
end

