-- ==== Sys2Proof/Syntax.lean ====
section
/-! DEFINITION. The instructions of the core: one constructor per row of spec/opcode_table.json, the 18 commands
of 30_encoding.md R102 and the 16 PSG byte forms of R106, with the operands of R103 and R105; and the two kinds
of words a host presents (R100, R104). -/

namespace Sys2Proof

/-- One constructor per row of spec/opcode_table.json. -/
inductive Instr where
  /-- `DB.CFG clkNum/clkDen, rate` (40_delta_buffer.md R131). -/
  | dbCfg (clkNum clkDen rate : BitVec 32)
  /-- `DB.CLR` (R132). -/
  | dbClr
  /-- `DB.ADD t, dl, dr` (R133). -/
  | dbAdd (t : Time) (dl dr : Amp)
  /-- `DB.ADDF t, dl, dr` (R134). -/
  | dbAddf (t : Time) (dl dr : Amp)
  /-- `DB.END clocks` (R135). -/
  | dbEnd (clocks : Time)
  /-- `DB.RD count` (R136). -/
  | dbRd (count : BitVec 32)
  /-- `PSG.RST` (42_psg_run.md R199). -/
  | psgRst
  /-- `PSG.WR t, byte` (41_psg_write.md R160). -/
  | psgWr (t : Time) (byte : BitVec 8)
  /-- `PSG.REN count` (42_psg_run.md R198). -/
  | psgRen (count : BitVec 32)
  /-- `PSG.RATE rate` (R200). -/
  | psgRate (rate : BitVec 32)
  /-- `PSG.CHIP type` (R201). -/
  | psgChip (type : ChipType)
  /-- `PSG.HQ flag` (R202). -/
  | psgHq (flag : Bool)
  /-- `PSG.MUTE ch, flag` (R203); the channel operand is a signed 32-bit number (30_encoding.md R103). -/
  | psgMute (ch : BitVec 32) (flag : Bool)
  /-- `RS.CFG inRate, outRate` (43_resampler.md R233). -/
  | rsCfg (inRate outRate : BitVec 32)
  /-- `RS.PUSH l, r` (R234). -/
  | rsPush (l r : Sample)
  /-- `RS.HAS` (R235). -/
  | rsHas
  /-- `RS.POP` (R236). -/
  | rsPop
  /-- `RS.REN count` (R238). -/
  | rsRen (count : BitVec 32)
  /-- `LATCH 0, d` (41_psg_write.md R170). -/
  | latch0 (d : BitVec 4)
  /-- `LATCH 1, d` (R171). -/
  | latch1 (d : BitVec 4)
  /-- `LATCH 2, d` (R172). -/
  | latch2 (d : BitVec 4)
  /-- `LATCH 3, d` (R173). -/
  | latch3 (d : BitVec 4)
  /-- `LATCH 4, d` (R174). -/
  | latch4 (d : BitVec 4)
  /-- `LATCH 5, d` (R175). -/
  | latch5 (d : BitVec 4)
  /-- `LATCH 6, d` (R176). -/
  | latch6 (d : BitVec 4)
  /-- `LATCH 7, d` (R177). -/
  | latch7 (d : BitVec 4)
  /-- `DATA d` with `latch` = 0 (R178). -/
  | data0 (d : BitVec 6)
  /-- `DATA d` with `latch` = 1 (R179). -/
  | data1 (d : BitVec 6)
  /-- `DATA d` with `latch` = 2 (R180). -/
  | data2 (d : BitVec 6)
  /-- `DATA d` with `latch` = 3 (R181). -/
  | data3 (d : BitVec 6)
  /-- `DATA d` with `latch` = 4 (R182). -/
  | data4 (d : BitVec 6)
  /-- `DATA d` with `latch` = 5 (R183). -/
  | data5 (d : BitVec 6)
  /-- `DATA d` with `latch` = 6 (R184). -/
  | data6 (d : BitVec 6)
  /-- `DATA d` with `latch` = 7 (R185). -/
  | data7 (d : BitVec 6)
  deriving DecidableEq, Repr

/-- What a host presents: a 136-bit command word (30_encoding.md R100) or one PSG write byte (R104). A byte on
its own is the register write with no timestamp, `PSG.W byte` of R119 (entry 1). -/
inductive PortWord where
  | command (w : BitVec 136)
  | psgByte (b : BitVec 8)
  deriving DecidableEq, Repr

/-- The pseudo-instructions of 30_encoding.md R119. `TONE` and `VOL` take the timestamp `t` of their writes as
an operand, which R119 leaves to the writer. -/
inductive Pseudo where
  | dbReset
  | dbNew (clkNum clkDen rate : BitVec 32)
  | psgW (byte : BitVec 8)
  | reset
  | tone (t : Time) (ch : BitVec 2) (period : BitVec 10)
  | vol (t : Time) (ch : BitVec 2) (a : BitVec 4)
  deriving DecidableEq, Repr

end Sys2Proof
end

