-- ==== Sys2Proof/Machine/State.lean ====
section
/-! DEFINITION. The state of one instance (10_state.md R20 to R55), the host's side of the command port, and the
power-on values (R55, 70_reset_and_hazards.md R280). -/

namespace Sys2Proof.Machine

/-- An element-addressed memory (20_memory.md R70 to R72): the pairs (index, value) of the elements that are not
0, indices strictly rising; an element that is not listed reads 0. `Memory.wf` says the form holds. -/
abbrev Memory (w : Nat) := List (Nat × BitVec w)

/-- The canonical form from index `lo` on: indices strictly rising, no listed element 0. -/
def Memory.wfFrom {w : Nat} (lo : Nat) : Memory w → Bool
  | [] => true
  | (a, v) :: m => decide (lo ≤ a) && !(v == 0) && Memory.wfFrom (a + 1) m

/-- The canonical form of a memory. -/
def Memory.wf {w : Nat} (m : Memory w) : Bool := Memory.wfFrom 0 m

/-- `polarity[ch]`: +1 or -1 (10_state.md R27). -/
inductive Polarity where
  | plus
  | minus
  deriving DecidableEq, Repr, Inhabited

/-- `regs[0..7]`, the raw chip registers (10_state.md R24). -/
structure Regs where
  /-- `regs[0]`, TONE1_FREQ. -/
  tone1Freq : BitVec 10
  /-- `regs[1]`, TONE1_ATT. -/
  tone1Att : BitVec 4
  /-- `regs[2]`, TONE2_FREQ. -/
  tone2Freq : BitVec 10
  /-- `regs[3]`, TONE2_ATT. -/
  tone2Att : BitVec 4
  /-- `regs[4]`, TONE3_FREQ. -/
  tone3Freq : BitVec 10
  /-- `regs[5]`, TONE3_ATT. -/
  tone3Att : BitVec 4
  /-- `regs[6]`, NOISE_CTRL: bit 2 MODE, bits [1:0] RATE. -/
  noiseCtrl : BitVec 3
  /-- `regs[7]`, NOISE_ATT. -/
  noiseAtt : BitVec 4
  deriving DecidableEq, Repr

/-- The delta buffer (10_state.md R31 to R34, R43, R47). -/
structure Dbuf where
  /-- `factor` (R31). -/
  factor : Time
  /-- `offset` (R32). -/
  offset : Time
  /-- `clkNum` (R33). -/
  clkNum : BitVec 32
  /-- `clkDen` (R33). -/
  clkDen : BitVec 32
  /-- `rate` (R33). -/
  rate : BitVec 32
  /-- `cap` (R34). -/
  cap : Nat
  /-- The largest `need` of any `grow` so far: the model's own field, for 20_memory.md R76 (entry 13). -/
  peakNeed : Nat
  /-- BUFL and BUFR (R47, 20_memory.md R71). -/
  buf : Stereo (Memory 32)
  /-- `integL` and `integR` (R43). -/
  integ : Stereo Amp
  deriving DecidableEq, Repr

/-- The PSG (10_state.md R24 to R30, R35 to R42). -/
structure Psg where
  /-- `regs[0..7]` (R24). -/
  regs : Regs
  /-- `latch` (R25). -/
  latch : BitVec 3
  /-- `polarity[0..3]` (R27). -/
  polarity : Quad Polarity
  /-- `mutes[0..3]` (R28). -/
  mutes : Quad Bool
  /-- `hqMode` (R29). -/
  hqMode : Bool
  /-- `chipType` (R35). -/
  chipType : ChipType
  /-- `clocks` (R36). -/
  clocks : Time
  /-- `freqInc[0..3]` (R38). -/
  freqInc : Quad Time
  /-- `freqCounter[0..3]` (R39). -/
  freqCounter : Quad Time
  /-- `chanOut[0..3]` (R40). -/
  chanOut : Quad (Stereo Amp)
  /-- `chanDelta[0..3]` (R41). -/
  chanDelta : Quad (Stereo Amp)
  /-- `noiseShiftValue` (R42); a DISCRETE instance uses the low 15 bits. -/
  noiseShiftValue : BitVec 16
  deriving DecidableEq, Repr

/-- The resampler (10_state.md R44 to R46, R48). -/
structure Rs where
  /-- `rsStep` (R44). -/
  rsStep : BitVec 64
  /-- `rsPos` (R45). -/
  rsPos : BitVec 64
  /-- `rsWr` (R46). -/
  rsWr : BitVec 64
  /-- HISTL and HISTR, indices 0 to 31 (R48, 20_memory.md R78). -/
  hist : Stereo (Memory 16)
  deriving DecidableEq, Repr

/-- What the host does next: it presents a word, together with the output buffers it supplies for it (`none`: the
ones it supplied last) and the input samples it has ready by then; or it pulls the hardware reset input
(70_reset_and_hazards.md R280). -/
inductive HostEvent where
  | present (word : PortWord) (buffers : Option (Stereo (Memory 32))) (answers : List (Stereo Sample))
  | reset
  deriving DecidableEq, Repr

/-- The host's side of the command port: inputs and outputs of commands, not core state (10_state.md R22, R49). -/
structure HostSide where
  /-- What the host does next, first event first (entry 2). -/
  events : List HostEvent
  /-- OUTL and OUTR, the host's sample buffers (R49, 20_memory.md R79). -/
  out : Stereo (Memory 32)
  /-- The pairs the host has ready for the next `generateSample` requests (43_resampler.md R238). -/
  answers : List (Stereo Sample)
  /-- How many `generateSample` requests were made: the model's own field, the number of the next request
  (entry 6). -/
  pulled : Nat
  /-- RSP, the response word of the last command (30_encoding.md R101). -/
  rsp : BitVec 64
  deriving DecidableEq, Repr

/-- The state of one instance, its parameters and the host's side of its port. -/
structure State where
  /-- The parameters, changed by no step (10_state.md R22, entry 7). -/
  params : Params
  /-- U1, the delta buffer. -/
  dbuf : Dbuf
  /-- U2, the PSG. -/
  psg : Psg
  /-- U3, the resampler. -/
  rs : Rs
  /-- The host's side of the port. -/
  host : HostSide
  deriving DecidableEq, Repr

/-- Why the machine stops with an error: nothing does. "The core raises no exception, takes no trap and reports no
error" (60_exceptions.md R260), so there is no fault to name. -/
inductive Fault
  deriving DecidableEq, Repr

/-- Why a step has no meaning in this model. -/
inductive Refusal where
  /-- Raised by an arm of `exec` whose instruction has no meaning yet. SAFE: nothing can be proved of it. -/
  | notModelled (mnemonic : String)
  /-- Raised by `step` for a command word whose OP value is reserved: "a model treats a trace containing a reserved
  opcode as outside the specification (refuse)" (30_encoding.md R108). SAFE: the hardware ignores the word. -/
  | reservedOpcode (op : BitVec 8)
  /-- Raised by a command that made a `grow(need)` with need > DB_MAX_SLOTS, in an instance that has such a bound:
  "on any other trace the model refuses" (20_memory.md R76, 60_exceptions.md R274). SAFE: the trace is outside the
  specified behaviour of that instance. -/
  | slotsExceeded (need : Nat)
  deriving DecidableEq, Repr

/-- R, the effective ratio: MCYCLES_RATIO when VARIANT = ACCURATE, 1 when BASELINE (00_scope.md R8). -/
def ratioOf (p : Params) : Nat :=
  match p.variant with
  | .baseline => 1
  | .accurate => p.mcyclesRatio

/-- The register file after `PSG.RST` and at power-on (10_state.md R55). -/
def Regs.reset : Regs where
  tone1Freq := 0
  tone1Att := 15
  tone2Freq := 0
  tone2Att := 15
  tone3Freq := 0
  tone3Att := 15
  noiseCtrl := 0
  noiseAtt := 15

/-- The delta buffer at power-on (10_state.md R55). -/
def Dbuf.powerOn (p : Params) : Dbuf where
  factor := 0
  offset := 0
  clkNum := 0
  clkDen := 0
  rate := 0
  cap := p.dbInitSamples + bufExtra
  peakNeed := 0
  buf := ⟨[], []⟩
  integ := ⟨0, 0⟩

/-- The PSG at power-on (10_state.md R55). -/
def Psg.powerOn (p : Params) : Psg where
  regs := Regs.reset
  latch := 0
  polarity := Quad.all .minus
  mutes := Quad.all false
  hqMode := true
  chipType := .integrated
  clocks := 0
  freqInc :=
    ⟨s64 (zeroFreq .integrated * ratioOf p : Nat), s64 (zeroFreq .integrated * ratioOf p : Nat),
     s64 (zeroFreq .integrated * ratioOf p : Nat), s64 (noiseDiv 0 * ratioOf p : Nat)⟩
  freqCounter := Quad.all 0
  chanOut := Quad.all ⟨0, 0⟩
  chanDelta := Quad.all ⟨0, 0⟩
  noiseShiftValue := 0x8000

/-- The resampler at power-on (10_state.md R55). -/
def Rs.powerOn : Rs where
  rsStep := 0
  rsPos := 0
  rsWr := 0
  hist := ⟨[], []⟩

/-- The host's side before anything was presented (entries 2, 4, 5, 6). -/
def HostSide.idle : HostSide where
  events := []
  out := ⟨[], []⟩
  answers := []
  pulled := 0
  rsp := 0

/-- An instance with parameters `p` right after power-on reset (10_state.md R55). -/
def State.powerOn (p : Params) : State where
  params := p
  dbuf := Dbuf.powerOn p
  psg := Psg.powerOn p
  rs := Rs.powerOn
  host := HostSide.idle

/-- The machine right after reset, with the default parameters (10_state.md R55; entries 7, 9). -/
def State.reset : State := State.powerOn paramsDefault

end Sys2Proof.Machine
end

