-- ==== Sys2Proof/Machine/Operands.lean ====
section
/-! DEFINITION. The arithmetic of 00_scope.md R10, R11 and 44_common_laws.md R246, the fields of the registers,
and the quantities that commands compute from time state. Values are mathematical integers; a reduction to a
stored width is written where the rule writes it. -/

namespace Sys2Proof.Machine

/-- `a >> n`: the arithmetic right shift, floor(a / 2^n) (00_scope.md R10). -/
def asr (a : Int) (n : Nat) : Int := a / 2 ^ n

/-- `ceil(a / b)` for b > 0 (00_scope.md R11). -/
def ceilDiv (a b : Int) : Int := -(-a / b)

/-- `tdiv(a, b)`: division truncated toward zero (00_scope.md R11). -/
def tdiv (a b : Int) : Int := Int.tdiv a b

/-- `clamp16(v)` (00_scope.md R11). -/
def clamp16 (v : Int) : Int := max (-32768) (min 32767 v)

/-- `fixedTime(t)`: the product and sum wrap to 64 bits, then a negative position is clamped to 0
(40_delta_buffer.md R130). -/
def fixedTime (d : Dbuf) (t : Int) : Nat := (s64 (t * d.factor.toInt + d.offset.toInt)).toInt.toNat

/-- idx = f >> 20, the sample index of a fixed-point position (40_delta_buffer.md R130). -/
def slotIndex (f : Nat) : Nat := f / 2 ^ 20

/-- phase = f[19:15] (40_delta_buffer.md R130). -/
def phaseOf (f : Nat) : Nat := f / 2 ^ 15 % 32

/-- interp = f[14:0] (40_delta_buffer.md R130). -/
def interpOf (f : Nat) : Nat := f % 2 ^ 15

/-- f[19:5], the 15-bit weight of the fast path (40_delta_buffer.md R134). -/
def fastWeight (f : Nat) : Nat := f / 2 ^ 5 % 2 ^ 15

/-- The samples that can be read: max(0, `offset` >> 20) (40_delta_buffer.md R136, R138). -/
def readable (d : Dbuf) : Nat := (asr d.offset.toInt 20).toNat

/-- `clocksNeeded(count)` (40_delta_buffer.md R137). -/
def clocksNeeded (d : Dbuf) (count : Nat) : Int :=
  if d.factor.toInt ≤ 0 then 0
  else if (count : Int) * 2 ^ 20 - d.offset.toInt ≤ 0 then 0
  else ceilDiv ((count : Int) * 2 ^ 20 - d.offset.toInt) d.factor.toInt

/-- The `factor` of a clock rate clkNum/clkDen and a sample rate, rounded up; 0 when clkNum = 0
(40_delta_buffer.md R131). -/
def factorOf (clkNum clkDen rate : BitVec 32) : Time :=
  if clkNum = 0 then 0
  else s64 (ceilDiv ((rate.toNat : Int) * 2 ^ 20 * clkDen.toNat) clkNum.toNat)

/-- The `rsStep` of inRate/outRate, rounded down; 0 when outRate = 0 (43_resampler.md R233). -/
def rsStepOf (inRate outRate : BitVec 32) : BitVec 64 :=
  if outRate = 0 then 0
  else s64 ((inRate.toNat : Int) * 2 ^ 20 / outRate.toNat)

/-- How often the body of a channel loop runs: max(0, ceil((target - ts) / inc)) (42_psg_run.md R192; entry 10). -/
def flipCount (ts inc target : Int) : Nat :=
  if ts < target then (ceilDiv (target - ts) inc).toNat else 0

/-- `regs[2*ch]`, the period register of a tone channel (41_psg_write.md R162). -/
def Regs.period (r : Regs) : Tone → BitVec 10
  | .t0 => r.tone1Freq
  | .t1 => r.tone2Freq
  | .t2 => r.tone3Freq

/-- `regs[2*ch] <- v`. -/
def Regs.setPeriod (r : Regs) (v : BitVec 10) : Tone → Regs
  | .t0 => { r with tone1Freq := v }
  | .t1 => { r with tone2Freq := v }
  | .t2 => { r with tone3Freq := v }

/-- `regs[2*ch + 1]`, the attenuation register of a channel (41_psg_write.md R162). -/
def Regs.att (r : Regs) : Chan → BitVec 4
  | .c0 => r.tone1Att
  | .c1 => r.tone2Att
  | .c2 => r.tone3Att
  | .c3 => r.noiseAtt

/-- `regs[2*ch + 1] <- v`. -/
def Regs.setAtt (r : Regs) (v : BitVec 4) : Chan → Regs
  | .c0 => { r with tone1Att := v }
  | .c1 => { r with tone2Att := v }
  | .c2 => { r with tone3Att := v }
  | .c3 => { r with noiseAtt := v }

/-- RATE, bits [1:0] of NOISE_CTRL (10_state.md R24). -/
def Regs.noiseRate (r : Regs) : Nat := r.noiseCtrl.toNat % 4

/-- MODE, bit 2 of NOISE_CTRL: true is white noise (10_state.md R24). -/
def Regs.whiteNoise (r : Regs) : Bool := r.noiseCtrl.toNat / 4 % 2 == 1

/-- A LATCH byte writes bits [3:0] of a period and keeps bits [9:4] (30_encoding.md R105). -/
def periodLow (old : BitVec 10) (d : BitVec 4) : BitVec 10 := BitVec.ofNat 10 (old.toNat / 16 * 16 + d.toNat)

/-- A DATA byte writes bits [9:4] of a period and keeps bits [3:0] (30_encoding.md R105). -/
def periodHigh (old : BitVec 10) (d : BitVec 6) : BitVec 10 := BitVec.ofNat 10 (d.toNat * 16 + old.toNat % 16)

/-- The channel a `PSG.MUTE` operand names, read as a signed 32-bit number; none outside 0 to 3
(30_encoding.md R103, 42_psg_run.md R203). -/
def muteChan (ch : BitVec 32) : Option Chan :=
  if ch.toInt = 0 then some .c0
  else if ch.toInt = 1 then some .c1
  else if ch.toInt = 2 then some .c2
  else if ch.toInt = 3 then some .c3
  else none

/-- RSP of `DB.RD`: n in RSP[31:0] (30_encoding.md R101); the other bits 0 (DESIGN CHOICE, entry 25). -/
def rspCount (n : Nat) : BitVec 64 := BitVec.ofNat 64 (n % 2 ^ 32)

/-- RSP of `PSG.REN`: n in RSP[31:0], T[31:0] in RSP[63:32] (30_encoding.md R101). -/
def rspRender (n : Nat) (T : Int) : BitVec 64 :=
  BitVec.ofNat 64 ((T % 2 ^ 32).toNat * 2 ^ 32 + n % 2 ^ 32)

/-- RSP of `RS.HAS`: the flag in RSP[0] (30_encoding.md R101); the other bits 0 (DESIGN CHOICE, entry 25). -/
def rspFlag (x : Bool) : BitVec 64 := if x then 1 else 0

/-- RSP of `RS.POP`: left in RSP[15:0], right in RSP[31:16] (30_encoding.md R101); the other bits 0 (DESIGN CHOICE,
entry 25). -/
def rspPair (x : Stereo Sample) : BitVec 64 := BitVec.ofNat 64 (x.r.toNat * 2 ^ 16 + x.l.toNat)

end Sys2Proof.Machine
end

