-- ==== Sys2Proof/Machine/Flags.lean ====
section
/-! DEFINITION. The flag state of the core (10_state.md R27 to R30): polarity, the noise output bit and the LFSR
that drives it, and "high". There is no carry, zero, overflow or sign flag (R30). -/

namespace Sys2Proof.Machine

/-- `-polarity` (42_psg_run.md R194). -/
def Polarity.flip : Polarity → Polarity
  | .plus => .minus
  | .minus => .plus

/-- The exclusive or of all bits (00_scope.md R11). -/
def parity (v : BitVec 16) : Bool := (List.range 16).foldl (fun acc i => acc ^^ v.getLsbD i) false

/-- `lfsrNext(sv)` for a register of width `w`: shift right, feedback into bit w - 1; white noise feeds back the
parity of the tapped bits, periodic noise the output bit (42_psg_run.md R196). -/
def lfsrNext (white : Bool) (w : Nat) (mask sv : BitVec 16) : BitVec 16 :=
  (sv >>> 1) ||| ((if (if white then parity (sv &&& mask) else sv.getLsbD 0) then 1#16 else 0#16) <<< (w - 1))

/-- The seed 1 << (`noiseShiftWidth` - 1): output bit low (10_state.md R42, 41_psg_write.md R167). -/
def lfsrSeed (c : ChipType) : BitVec 16 := 1#16 <<< (noiseWidth c - 1)

/-- `noiseBitMask` = NOISE_TAPS[chipType] (10_state.md R35). -/
def noiseTaps (p : Params) : ChipType → BitVec 16
  | .integrated => p.tapsIntegrated
  | .discrete => p.tapsDiscrete

/-- The noise output bit, bit 0 of `noiseShiftValue` (10_state.md R30). -/
def noiseBit (g : Psg) : Bool := g.noiseShiftValue.getLsbD 0

/-- `high(ch)`: polarity +1 for a tone channel, the output bit for the noise channel (41_psg_write.md R164). -/
def high (g : Psg) : Chan → Bool
  | .c0 => g.polarity.q0 == .plus
  | .c1 => g.polarity.q1 == .plus
  | .c2 => g.polarity.q2 == .plus
  | .c3 => noiseBit g

end Sys2Proof.Machine
end

