-- ==== Sys2Proof/Machine/Ops.lean ====
section
/-! DEFINITION. The named operations over the memories and registers: memory reads and writes (00_scope.md R12),
the delta buffer's procedures (20_memory.md R74, 40_delta_buffer.md), the PSG's procedures (41_psg_write.md R161
to R167, 42_psg_run.md R191 to R196) and the resampler's (43_resampler.md). There is no exception to take and none
to return from (60_exceptions.md R260, R266, R267), so there is no operation for either. -/

namespace Sys2Proof.Machine

/-! ### Memories -/

/-- `MemRead(space, i)`: an element that is not listed reads 0 (00_scope.md R12, 20_memory.md R72). -/
def Memory.read {w : Nat} : Memory w → Nat → BitVec w
  | [], _ => 0
  | (a, v) :: m, i => if i = a then v else Memory.read m i

/-- `MemWrite(space, i, v)`, keeping the canonical form (00_scope.md R12). -/
def Memory.write {w : Nat} : Memory w → Nat → BitVec w → Memory w
  | [], i, v => if v = 0 then [] else [(i, v)]
  | (a, x) :: m, i, v =>
    if i < a then (if v = 0 then (a, x) :: m else (i, v) :: (a, x) :: m)
    else if i = a then (if v = 0 then m else (i, v) :: m)
    else (a, x) :: Memory.write m i v

/-- The block move of 40_delta_buffer.md R136: element j becomes the old element j + n, for every j >= 0. -/
def Memory.shiftDown {w : Nat} (n : Nat) : Memory w → Memory w
  | [] => []
  | (a, v) :: m => if a < n then Memory.shiftDown n m else (a - n, v) :: Memory.shiftDown n m

/-! ### Updates of State -/

/-- The state with another delta buffer. -/
def State.withDbuf (s : State) (d : Dbuf) : State := { s with dbuf := d }

/-- The state with another PSG. -/
def State.withPsg (s : State) (g : Psg) : State := { s with psg := g }

/-- The state with another resampler. -/
def State.withRs (s : State) (r : Rs) : State := { s with rs := r }

/-- The state with another host side. -/
def State.withHost (s : State) (h : HostSide) : State := { s with host := h }

/-- The host's buffers OUTL and OUTR replaced. -/
def State.withOut (s : State) (o : Stereo (Memory 32)) : State := s.withHost { s.host with out := o }

/-- The command returns RSP (30_encoding.md R101). -/
def State.respond (s : State) (r : BitVec 64) : State := s.withHost { s.host with rsp := r }

/-! ### Outcomes -/

/-- The command completes with response `r`. -/
def complete (s : State) (r : BitVec 64) : Host.Outcome State Fault Refusal := .next (s.respond r)

/-- The command completes with response `r`, unless a `grow` of it (or an earlier one) asked for more slots than an
instance with a DB_MAX_SLOTS has (20_memory.md R76, entry 13). -/
def completeWithin (s : State) (r : BitVec 64) : Host.Outcome State Fault Refusal :=
  match s.params.dbMaxSlots with
  | none => complete s r
  | some m => if s.dbuf.peakNeed ≤ m then complete s r else .refused (.slotsExceeded s.dbuf.peakNeed)

/-! ### Delta buffer -/

/-- `grow(need)` (20_memory.md R74). -/
def grow (d : Dbuf) (need : Nat) : Dbuf :=
  { d with
    cap := if d.cap < need then max (2 * d.cap) need else d.cap
    peakNeed := max d.peakNeed need }

/-- Adds an integer into slot `i`, wrapping to `s32` (20_memory.md R71). -/
def addSlot (m : Memory 32) (i : Nat) (v : Int) : Memory 32 := m.write i (s32 ((m.read i).toInt + v))

/-- The two slots that step k of the loop of `DB.ADD` writes: tap k of the forward rows into slot idx + k and tap
7 - k of the mirrored rows into slot idx + 8 + k (40_delta_buffer.md R133). -/
def addTapPair (kernel : List (List Int)) (idx ph : Nat) (d1 d2 : Int) (m : Memory 32) (k : Nat) : Memory 32 :=
  addSlot
    (addSlot m (idx + k) (tableAt kernel ph k * d1 + tableAt kernel (ph + 1) k * d2))
    (idx + 8 + k) (tableAt kernel (32 - ph) (7 - k) * d1 + tableAt kernel (31 - ph) (7 - k) * d2)

/-- One lane of `DB.ADD` at fixed-point position `f` (40_delta_buffer.md R133). -/
def addTaps (kernel : List (List Int)) (f : Nat) (d : Int) (m : Memory 32) : Memory 32 :=
  [0, 1, 2, 3, 4, 5, 6, 7].foldl
    (addTapPair kernel (slotIndex f) (phaseOf f)
      (d - tdiv (d * interpOf f) 32768) (tdiv (d * interpOf f) 32768)) m

/-- `DB.ADD t, dl, dr` on the delta buffer (40_delta_buffer.md R133). -/
def addDelta (kernel : List (List Int)) (d : Dbuf) (t : Int) (x : Stereo Amp) : Dbuf :=
  { grow d (slotIndex (fixedTime d t) + 16) with
    buf := ⟨addTaps kernel (fixedTime d t) x.l.toInt d.buf.l, addTaps kernel (fixedTime d t) x.r.toInt d.buf.r⟩ }

/-- One lane of `DB.ADDF` at fixed-point position `f` (40_delta_buffer.md R134). -/
def addFast (f : Nat) (d : Int) (m : Memory 32) : Memory 32 :=
  addSlot (addSlot m (slotIndex f + 7) (d * 32768 - d * fastWeight f)) (slotIndex f + 8) (d * fastWeight f)

/-- `DB.ADDF t, dl, dr` on the delta buffer (40_delta_buffer.md R134). -/
def addDeltaFast (d : Dbuf) (t : Int) (x : Stereo Amp) : Dbuf :=
  { grow d (slotIndex (fixedTime d t) + 9) with
    buf := ⟨addFast (fixedTime d t) x.l.toInt d.buf.l, addFast (fixedTime d t) x.r.toInt d.buf.r⟩ }

/-- `DB.CFG` on the delta buffer (40_delta_buffer.md R131). -/
def setRates (d : Dbuf) (clkNum clkDen rate : BitVec 32) : Dbuf :=
  { d with clkNum := clkNum, clkDen := clkDen, rate := rate, factor := factorOf clkNum clkDen rate }

/-- `DB.CLR` on the delta buffer (40_delta_buffer.md R132). -/
def clearDbuf (d : Dbuf) : Dbuf :=
  { d with buf := ⟨[], []⟩, integ := ⟨0, 0⟩, offset := s64 (asr d.factor.toInt 1) }

/-- `DB.END clocks` on the delta buffer (40_delta_buffer.md R135). -/
def endFrame (d : Dbuf) (clocks : Int) : Dbuf :=
  { d with offset := s64 (d.offset.toInt + clocks * d.factor.toInt) }

/-- One lane of the read loop: its slots, the host's buffer and its integrator. -/
structure ReadLane where
  buf : Memory 32
  out : Memory 32
  integ : Amp
  deriving DecidableEq, Repr

/-- The PCM sample of an integrator value: clamp16(integ >> 15) (40_delta_buffer.md R136). -/
def pcm (integ : Amp) : Int := clamp16 (asr integ.toInt 15)

/-- The integrator after it has integrated `slot` and leaked sample `s` (40_delta_buffer.md R136). -/
def integrate (integ slot : Amp) (s : Int) : Amp :=
  s32 ((s32 (integ.toInt + slot.toInt)).toInt - s * 2 ^ 6)

/-- One turn of the loop of `DB.RD` in one lane (40_delta_buffer.md R136). -/
def readStep (i : Nat) (x : ReadLane) : ReadLane where
  out := x.out.write i (s32 ((x.out.read i).toInt + pcm x.integ))
  integ := integrate x.integ (x.buf.read i) (pcm x.integ)
  buf := x.buf.write i 0

/-- `n` turns from index `i` on (40_delta_buffer.md R136). -/
def readLoop : Nat → Nat → ReadLane → ReadLane
  | 0, _, x => x
  | n + 1, i, x => readLoop n (i + 1) (readStep i x)

/-- One lane of `DB.RD`: n turns, then the tail is shifted down (40_delta_buffer.md R136). -/
def readLane (n : Nat) (x : ReadLane) : ReadLane :=
  { readLoop n 0 x with buf := (readLoop n 0 x).buf.shiftDown n }

/-- The number of samples `DB.RD count` delivers (40_delta_buffer.md R136). -/
def readCount (d : Dbuf) (count : Nat) : Nat := min count (readable d)

/-- `DB.RD count` (40_delta_buffer.md R136). -/
def readSamples (s : State) (count : Nat) : State :=
  let n := readCount s.dbuf count
  let l := readLane n ⟨s.dbuf.buf.l, s.host.out.l, s.dbuf.integ.l⟩
  let r := readLane n ⟨s.dbuf.buf.r, s.host.out.r, s.dbuf.integ.r⟩
  (s.withDbuf
    { s.dbuf with
      buf := ⟨l.buf, r.buf⟩
      integ := ⟨l.integ, r.integ⟩
      offset := s64 (s.dbuf.offset.toInt - n * 2 ^ 20) }).withOut ⟨l.out, r.out⟩

/-! ### PSG -/

/-- `amp(ch)` (41_psg_write.md R163). -/
def amp (p : Params) (g : Psg) (ch : Chan) : Stereo Amp :=
  if g.mutes.get ch then ⟨0, 0⟩
  else
    let v := p.voltab.getD (g.regs.att ch).toNat 0
    ⟨s32 (v * (p.pan.get ch).l / 100 : Nat), s32 (v * (p.pan.get ch).r / 100 : Nat)⟩

/-- `emit(t, dl, dr)`: one delta into the owned delta buffer, by the path `hqMode` selects (41_psg_write.md
R165). -/
def emit (s : State) (t : Int) (x : Stereo Amp) : State :=
  s.withDbuf (if s.psg.hqMode then addDelta s.params.kernel s.dbuf t x else addDeltaFast s.dbuf t x)

/-- Lane-wise wrapping sum. -/
def addPair (x y : Stereo Amp) : Stereo Amp := ⟨s32 (x.l.toInt + y.l.toInt), s32 (x.r.toInt + y.r.toInt)⟩

/-- Lane-wise wrapping difference. -/
def subPair (x y : Stereo Amp) : Stereo Amp := ⟨s32 (x.l.toInt - y.l.toInt), s32 (x.r.toInt - y.r.toInt)⟩

/-- Lane-wise wrapping multiple by -1, 0 or +1 (42_psg_run.md R194, R195). -/
def scalePair (k : Int) (x : Stereo Amp) : Stereo Amp := ⟨s32 (k * x.l.toInt), s32 (k * x.r.toInt)⟩

/-- A delta channel `ch` owes: emitted at `clocks` in BASELINE, accumulated in `chanDelta[ch]` in ACCURATE
(41_psg_write.md R161, R167; 42_psg_run.md R190). -/
def owe (s : State) (ch : Chan) (x : Stereo Amp) : State :=
  match s.params.variant with
  | .baseline => emit s s.psg.clocks.toInt x
  | .accurate =>
    s.withPsg { s.psg with chanDelta := s.psg.chanDelta.set ch (addPair (s.psg.chanDelta.get ch) x) }

/-- `setAmp(ch, new)` (41_psg_write.md R161). -/
def setAmp (s : State) (ch : Chan) (new : Stereo Amp) : State :=
  let s1 := if high s.psg ch then owe s ch (subPair new (s.psg.chanOut.get ch)) else s
  s1.withPsg { s1.psg with chanOut := s1.psg.chanOut.set ch new }

/-- The half-period of a tone period register in timestamp units (41_psg_write.md R166). -/
def toneInc (p : Params) (c : ChipType) (v : BitVec 10) : Time :=
  s64 (((if v = 0 then zeroFreq c else v.toNat) * ratioOf p : Nat))

/-- `setTone(ch)` (41_psg_write.md R166). -/
def setTone (s : State) (ch : Tone) : State :=
  let inc := toneInc s.params s.psg.chipType (s.psg.regs.period ch)
  let fi := s.psg.freqInc.set ch.chan inc
  s.withPsg
    { s.psg with
      freqInc := if ch = .t2 ∧ s.psg.regs.noiseRate = 3 then fi.set .c3 inc else fi }

/-- `setNoise()` (41_psg_write.md R167). -/
def setNoise (s : State) : State :=
  let nf := s.psg.regs.noiseRate
  let inc := if nf = 3 then s.psg.freqInc.q2 else s64 ((noiseDiv nf * ratioOf s.params : Nat))
  let s1 := s.withPsg { s.psg with freqInc := s.psg.freqInc.set .c3 inc }
  let s2 := if noiseBit s1.psg then owe s1 .c3 (subPair ⟨0, 0⟩ s1.psg.chanOut.q3) else s1
  s2.withPsg { s2.psg with noiseShiftValue := lfsrSeed s2.psg.chipType }

/-- `flush(ch)` (42_psg_run.md R193). -/
def flush (s : State) (ch : Chan) : State :=
  if s.psg.chanDelta.get ch = ⟨0, 0⟩ then s
  else
    let s1 := emit s s.psg.clocks.toInt (s.psg.chanDelta.get ch)
    s1.withPsg { s1.psg with chanDelta := s1.psg.chanDelta.set ch ⟨0, 0⟩ }

/-- `freqCounter[ch] <- ts`. -/
def setCounter (s : State) (ch : Chan) (ts : Time) : State :=
  s.withPsg { s.psg with freqCounter := s.psg.freqCounter.set ch ts }

/-- The next flip time, `s64(ts + freqInc[ch])` (42_psg_run.md R194, R195). -/
def nextFlip (s : State) (ch : Chan) (ts : Time) : Time := s64 (ts.toInt + (s.psg.freqInc.get ch).toInt)

/-- +1 or -1 as an integer. -/
def Polarity.sign : Polarity → Int
  | .plus => 1
  | .minus => -1

/-- The body of the loop of `runTone` at time `ts`, less the advance of `ts` (42_psg_run.md R194). -/
def toneFlip (ch : Tone) (ts : Time) (s : State) : State :=
  let p := (s.psg.polarity.get ch.chan).flip
  emit (s.withPsg { s.psg with polarity := s.psg.polarity.set ch.chan p }) ts.toInt
    (scalePair p.sign (s.psg.chanOut.get ch.chan))

/-- `n` turns of the loop of `runTone` from time `ts` on; it leaves the next flip time in `freqCounter[ch]`. -/
def toneLoop (ch : Tone) : Nat → Time → State → State
  | 0, ts, s => setCounter s ch.chan ts
  | n + 1, ts, s => toneLoop ch n (nextFlip s ch.chan ts) (toneFlip ch ts s)

/-- `runTone(ch, target)` (42_psg_run.md R194; the number of turns is that of R192). -/
def runTone (s : State) (ch : Tone) (target : Int) : State :=
  toneLoop ch
    (flipCount (s.psg.freqCounter.get ch.chan).toInt (s.psg.freqInc.get ch.chan).toInt target)
    (s.psg.freqCounter.get ch.chan) s

/-- A bit as the integer 0 or 1. -/
def bitInt (b : Bool) : Int := if b then 1 else 0

/-- The LFSR of the PSG, shifted once in the mode and width of the moment (42_psg_run.md R196). -/
def shiftNoise (p : Params) (g : Psg) : Psg :=
  { g with
    noiseShiftValue :=
      lfsrNext g.regs.whiteNoise (noiseWidth g.chipType) (noiseTaps p g.chipType) g.noiseShiftValue }

/-- The body of the loop of `runNoise` at time `ts`, less the advance of `ts` (42_psg_run.md R195). -/
def noiseFlip (ts : Time) (s : State) : State :=
  let p := s.psg.polarity.q3.flip
  let g := { s.psg with polarity := s.psg.polarity.set .c3 p }
  match p with
  | .minus => s.withPsg g
  | .plus =>
    emit (s.withPsg (shiftNoise s.params g)) ts.toInt
      (scalePair (bitInt (noiseBit (shiftNoise s.params g)) - bitInt (noiseBit g)) s.psg.chanOut.q3)

/-- `n` turns of the loop of `runNoise` from time `ts` on. -/
def noiseLoop : Nat → Time → State → State
  | 0, ts, s => setCounter s .c3 ts
  | n + 1, ts, s => noiseLoop n (nextFlip s .c3 ts) (noiseFlip ts s)

/-- `runNoise(target)` (42_psg_run.md R195; the number of turns is that of R192). -/
def runNoise (s : State) (target : Int) : State :=
  noiseLoop (flipCount s.psg.freqCounter.q3.toInt s.psg.freqInc.q3.toInt target) s.psg.freqCounter.q3 s

/-- `psgUpdate(target)`, one scheduling pass (42_psg_run.md R192). -/
def psgUpdate (s : State) (target : Int) : State :=
  let s0 := runTone (flush s .c0) .t0 target
  let s1 := runTone (flush s0 .c1) .t1 target
  let s2 := runTone (flush s1 .c2) .t2 target
  runNoise (flush s2 .c3) target

/-- `clocks` moved to the first PSG cycle boundary at or after `t` (42_psg_run.md R191). -/
def syncedClocks (p : Params) (clocks : Time) (t : Int) : Time :=
  s64 (clocks.toInt + ceilDiv (t - clocks.toInt) (ratioOf p) * ratioOf p)

/-- `sync(t)` (42_psg_run.md R191). -/
def sync (s : State) (t : Int) : State :=
  if s.psg.clocks.toInt < t then
    let s1 := psgUpdate s t
    s1.withPsg { s1.psg with clocks := syncedClocks s1.params s1.psg.clocks t }
  else s

/-- The PSG's time state rebased by the frame length `T` (42_psg_run.md R198). -/
def rebase (g : Psg) (T : Int) : Psg :=
  { g with
    clocks := s64 (g.clocks.toInt - T)
    freqCounter :=
      ⟨s64 (g.freqCounter.q0.toInt - T), s64 (g.freqCounter.q1.toInt - T),
       s64 (g.freqCounter.q2.toInt - T), s64 (g.freqCounter.q3.toInt - T)⟩ }

/-! ### Resampler -/

/-- The number of the next output's centre input sample, `rsPos >> 20` (43_resampler.md R236). -/
def rsBase (r : Rs) : Nat := r.rsPos.toNat / 2 ^ 20

/-- The nearest phase row, 0 to 32 (43_resampler.md R236). -/
def rsPhase (r : Rs) : Nat := (r.rsPos.toNat % 2 ^ 20 + 2 ^ 14) / 2 ^ 15

/-- `RS.HAS`: `rsWr` >= (`rsPos` >> 20) + 9 (43_resampler.md R235). -/
def rsHas (r : Rs) : Bool := decide (rsBase r + 9 ≤ r.rsWr.toNat)

/-- `RS.PUSH l, r` on the resampler (43_resampler.md R234). -/
def rsPush (r : Rs) (x : Stereo Sample) : Rs :=
  { r with
    hist := ⟨r.hist.l.write (r.rsWr.toNat % 32) x.l, r.hist.r.write (r.rsWr.toNat % 32) x.r⟩
    rsWr := s64 (r.rsWr.toNat + 1) }

/-- Input sample number `n` as `RS.POP` reads it: 0 before number 0, else the ring's element (20_memory.md R78). -/
def rsSample (h : Memory 16) (n : Int) : Int := if n < 0 then 0 else (h.read (n.toNat % 32)).toInt

/-- The sum of `RS.POP` in one lane (43_resampler.md R236). -/
def rsAcc (h : Memory 16) (base p : Nat) : Int :=
  [0, 1, 2, 3, 4, 5, 6, 7, 8, 9, 10, 11, 12, 13, 14, 15].foldl
    (fun acc (k : Nat) => acc + tableAt sinc p k * rsSample h (base - 7 + k)) 0

/-- The output sample of one lane (43_resampler.md R236). -/
def rsOut (h : Memory 16) (base p : Nat) : Sample := s16 (clamp16 (asr (rsAcc h base p) 15))

/-- The pair `RS.POP` returns (43_resampler.md R236). -/
def rsPopValue (r : Rs) : Stereo Sample :=
  ⟨rsOut r.hist.l (rsBase r) (rsPhase r), rsOut r.hist.r (rsBase r) (rsPhase r)⟩

/-- The position advanced by `rsStep`, modulo 2^64 (43_resampler.md R236). -/
def rsAdvance (r : Rs) : Rs := { r with rsPos := s64 (r.rsPos.toNat + r.rsStep.toNat) }

/-- `generateSample()`: the host's next pair, and the host's side after the request; beyond the pairs it has handed
over, the free value of entry 6 (43_resampler.md R238). -/
def generateSample (h : HostSide) : Stereo Sample × HostSide :=
  match h.answers with
  | x :: rest => (x, { h with answers := rest, pulled := h.pulled + 1 })
  | [] => (Config.hostAnswer h.pulled, { h with pulled := h.pulled + 1 })

/-- One pull turn of `RS.REN`: request a pair and push it (43_resampler.md R238). -/
def rsPull (s : State) : State :=
  (s.withHost (generateSample s.host).2).withRs (rsPush s.rs (generateSample s.host).1)

/-- `k` pull turns. -/
def rsPulls : Nat → State → State
  | 0, s => s
  | k + 1, s => rsPulls k (rsPull s)

/-- The emit turn of `RS.REN` for output index `i`: pop, and overwrite element i of both buffers
(43_resampler.md R238). -/
def rsEmit (i : Nat) (s : State) : State :=
  (s.withRs (rsAdvance s.rs)).withOut
    ⟨s.host.out.l.write i (s32 (rsPopValue s.rs).l.toInt), s.host.out.r.write i (s32 (rsPopValue s.rs).r.toInt)⟩

/-- The pulls that come before the next output: (`rsPos` >> 20) + 9 - `rsWr`, none if it is there already
(43_resampler.md R238). -/
def rsMissing (r : Rs) : Nat := rsBase r + 9 - r.rsWr.toNat

/-- The loop of `RS.REN`, output by output: the missing inputs are pulled, then the output is emitted
(43_resampler.md R238). -/
def rsLoop : Nat → Nat → State → State
  | 0, _, s => s
  | n + 1, i, s => rsLoop n (i + 1) (rsEmit i (rsPulls (rsMissing s.rs) s))

end Sys2Proof.Machine
end

