-- ==== Sys2Proof/Machine/DeltaBuffer.lean ====
section
/-! DEFINITION. The meanings of the delta buffer commands (40_delta_buffer.md). -/

namespace Sys2Proof.Machine

/-- `DB.CFG clkNum/clkDen, rate` (40_delta_buffer.md R131). -/
def execDbCfg (clkNum clkDen rate : BitVec 32) (s : State) : Host.Outcome State Fault Refusal :=
  complete (s.withDbuf (setRates s.dbuf clkNum clkDen rate)) 0

/-- `DB.CLR` (40_delta_buffer.md R132). -/
def execDbClr (s : State) : Host.Outcome State Fault Refusal :=
  complete (s.withDbuf (clearDbuf s.dbuf)) 0

/-- `DB.ADD t, dl, dr` (40_delta_buffer.md R133). -/
def execDbAdd (t : Time) (dl dr : Amp) (s : State) : Host.Outcome State Fault Refusal :=
  completeWithin (s.withDbuf (addDelta s.params.kernel s.dbuf t.toInt ⟨dl, dr⟩)) 0

/-- `DB.ADDF t, dl, dr` (40_delta_buffer.md R134). -/
def execDbAddf (t : Time) (dl dr : Amp) (s : State) : Host.Outcome State Fault Refusal :=
  completeWithin (s.withDbuf (addDeltaFast s.dbuf t.toInt ⟨dl, dr⟩)) 0

/-- `DB.END clocks` (40_delta_buffer.md R135). -/
def execDbEnd (clocks : Time) (s : State) : Host.Outcome State Fault Refusal :=
  complete (s.withDbuf (endFrame s.dbuf clocks.toInt)) 0

/-- `DB.RD count` (40_delta_buffer.md R136). -/
def execDbRd (count : BitVec 32) (s : State) : Host.Outcome State Fault Refusal :=
  complete (readSamples s count.toNat) (rspCount (readCount s.dbuf count.toNat))

end Sys2Proof.Machine
end

