-- ==== Sys2Proof/Machine/PsgRun.lean ====
section
/-! DEFINITION. The meanings of the PSG's run and configuration commands (42_psg_run.md R198 to R203). -/

namespace Sys2Proof.Machine

/-- The PSG after `PSG.RST`: every register at its reset value but `chipType`, `hqMode` and `mutes`
(42_psg_run.md R199). -/
def resetPsg (p : Params) (g : Psg) : Psg :=
  { g with
    regs := Regs.reset
    latch := 0
    polarity := Quad.all .minus
    clocks := 0
    freqInc :=
      ⟨s64 (zeroFreq g.chipType * ratioOf p : Nat), s64 (zeroFreq g.chipType * ratioOf p : Nat),
       s64 (zeroFreq g.chipType * ratioOf p : Nat), s64 (noiseDiv 0 * ratioOf p : Nat)⟩
    freqCounter := Quad.all 0
    chanOut := Quad.all ⟨0, 0⟩
    chanDelta := Quad.all ⟨0, 0⟩
    noiseShiftValue := lfsrSeed g.chipType }

/-- `PSG.RST` (42_psg_run.md R199). -/
def execPsgRst (s : State) : Host.Outcome State Fault Refusal :=
  complete (s.withPsg (resetPsg s.params s.psg)) 0

/-- The state after the channels ran to the frame end, the PSG's time was rebased and the delta buffer's frame
ended (42_psg_run.md R198, less the read). -/
def renderFrame (s : State) (T : Int) : State :=
  let s1 := sync s T
  (s1.withPsg (rebase s1.psg T)).withDbuf (endFrame s1.dbuf T)

/-- `PSG.REN count` (42_psg_run.md R198). -/
def execPsgRen (count : BitVec 32) (s : State) : Host.Outcome State Fault Refusal :=
  let T := clocksNeeded s.dbuf count.toNat
  let s1 := renderFrame s T
  completeWithin (readSamples s1 count.toNat) (rspRender (readCount s1.dbuf count.toNat) T)

/-- `PSG.RATE rate` (42_psg_run.md R200): `DB.CFG` with the stored clock rate. -/
def execPsgRate (rate : BitVec 32) (s : State) : Host.Outcome State Fault Refusal :=
  complete (s.withDbuf (setRates s.dbuf s.dbuf.clkNum s.dbuf.clkDen rate)) 0

/-- `PSG.CHIP type` (42_psg_run.md R201). -/
def execPsgChip (type : ChipType) (s : State) : Host.Outcome State Fault Refusal :=
  complete
    (s.withPsg
      { s.psg with
        chipType := type
        noiseShiftValue := s.psg.noiseShiftValue &&& BitVec.ofNat 16 (2 ^ noiseWidth type - 1) }) 0

/-- `PSG.HQ flag` (42_psg_run.md R202). -/
def execPsgHq (flag : Bool) (s : State) : Host.Outcome State Fault Refusal :=
  complete (s.withPsg { s.psg with hqMode := flag }) 0

/-- A mute flag takes a new value: `mutes[ch] <- flag; setAmp(ch, amp(ch))` (42_psg_run.md R203). -/
def setMute (s : State) (ch : Chan) (flag : Bool) : State :=
  let s1 := s.withPsg { s.psg with mutes := s.psg.mutes.set ch flag }
  setAmp s1 ch (amp s1.params s1.psg ch)

/-- `PSG.MUTE ch, flag` on the state: nothing for a channel outside 0 to 3 or an unchanged flag (42_psg_run.md
R203). -/
def muteChannel (s : State) (ch : BitVec 32) (flag : Bool) : State :=
  match muteChan ch with
  | none => s
  | some c => if s.psg.mutes.get c = flag then s else setMute s c flag

/-- `PSG.MUTE ch, flag` (42_psg_run.md R203). -/
def execPsgMute (ch : BitVec 32) (flag : Bool) (s : State) : Host.Outcome State Fault Refusal :=
  completeWithin (muteChannel s ch flag) 0

end Sys2Proof.Machine
end

