-- ==== Sys2Proof/WellFormed.lean ====
section
/-! DEFINITION. Which instructions a host can present in which latch state (30_encoding.md R106, R107), and which
parameter records the model admits (00_scope.md R8, 10_state.md R62, R63; entries 8, 23, 24). -/

namespace Sys2Proof

/-- The latch value a DATA form belongs to; `none` for an instruction that does not depend on the latch. -/
def Instr.dataLatch : Instr → Option (BitVec 3)
  | .data0 _ => some 0
  | .data1 _ => some 1
  | .data2 _ => some 2
  | .data3 _ => some 3
  | .data4 _ => some 4
  | .data5 _ => some 5
  | .data6 _ => some 6
  | .data7 _ => some 7
  | .dbCfg .. | .dbClr | .dbAdd .. | .dbAddf .. | .dbEnd _ | .dbRd _ => none
  | .psgRst | .psgWr .. | .psgRen _ | .psgRate _ | .psgChip _ | .psgHq _ | .psgMute .. => none
  | .rsCfg .. | .rsPush .. | .rsHas | .rsPop | .rsRen _ => none
  | .latch0 _ | .latch1 _ | .latch2 _ | .latch3 _ | .latch4 _ | .latch5 _ | .latch6 _ | .latch7 _ => none

/-- Well-formed in latch state `latch`: a DATA form exists only under its own latch value (30_encoding.md R106,
R107); every other instruction is well-formed in every state, each operand having exactly the width its field
admits (R103, R105). -/
def Instr.wellFormed (latch : BitVec 3) (i : Instr) : Bool :=
  match i.dataLatch with
  | none => true
  | some k => k == latch

/-- KERNEL has 33 rows of 8 signed 16-bit entries and the pair-sum property (10_state.md R62, 20_memory.md R70). -/
def Params.kernelOk (p : Params) : Bool :=
  p.kernel.length == 33 &&
  p.kernel.all (fun row => row.length == 8 && row.all (fun v => decide (-32768 ≤ v ∧ v ≤ 32767))) &&
  (List.range 33).all (fun i => (p.kernel.getD i []).sum + (p.kernel.getD (32 - i) []).sum == 32768)

/-- VOLTAB has 16 entries, falls to VOLTAB[15] = 0 and leaves four channels inside the PCM range
(10_state.md R63). R63 writes the bound on the loudest sum with a plain `/`; it is read here as the floor of the
quotient. DESIGN CHOICE, entry 24. -/
def Params.voltabOk (p : Params) : Bool :=
  p.voltab.length == 16 && p.voltab.getD 15 0 == 0 &&
  (List.range 15).all (fun a => decide (p.voltab.getD (a + 1) 0 ≤ p.voltab.getD a 0)) &&
  [p.pan.q0, p.pan.q1, p.pan.q2, p.pan.q3].all
    (fun v => decide (4 * p.voltab.getD 0 0 * max v.l v.r / 100 ≤ 32767))

/-- MCYCLES_RATIO >= 1 (00_scope.md R8), and small enough that the longest half-period, 1024 * R, is a positive
`s64` (entry 8). -/
def Params.ratioOk (p : Params) : Bool :=
  decide (1 ≤ p.mcyclesRatio ∧ 1024 * p.mcyclesRatio < 2 ^ 63)

/-- The DISCRETE tap mask has no bit above its 15-bit register. 00_scope.md R8 gives the mask a default and no bound;
that a record with a wider mask is not among the admitted ones is the model's DESIGN CHOICE, entry 23. -/
def Params.tapsOk (p : Params) : Bool := decide (p.tapsDiscrete.toNat < 2 ^ 15)

/-- The parameter records the model admits: the properties that 00_scope.md R8, 10_state.md R62 and R63 ask for, as the
model reads them (entries 8, 23, 24). -/
def Params.wf (p : Params) : Bool := p.kernelOk && p.voltabOk && p.ratioOk && p.tapsOk

end Sys2Proof
end

