-- ==== Sys2Proof/Decode.lean ====
section
/-! DEFINITION. Decoding of command words and PSG bytes (30_encoding.md R100 to R110), the encoder, and the
pseudo-instructions (R119). Every bit of an encoding is read here and nowhere else. -/

namespace Sys2Proof

/-- Why a presented word has no instruction: its OP value is reserved (30_encoding.md R108). -/
inductive DecodeError where
  | reservedOpcode (op : BitVec 8)
  deriving DecidableEq, Repr

/-- The four fields of a command word (30_encoding.md R100). -/
structure CmdFields where
  op : BitVec 8
  a : BitVec 64
  b : BitVec 32
  c : BitVec 32
  deriving DecidableEq, Repr

/-- `v[lo + len - 1 : lo]` (00_scope.md R10). -/
def bitsAt {n : Nat} (v : BitVec n) (lo len : Nat) : BitVec len := BitVec.ofNat len (v.toNat / 2 ^ lo)

/-- OP = [135:128], A = [127:64], B = [63:32], C = [31:0] (30_encoding.md R100). -/
def CmdFields.ofWord (w : BitVec 136) : CmdFields :=
  { op := bitsAt w 128 8, a := bitsAt w 64 64, b := bitsAt w 32 32, c := bitsAt w 0 32 }

/-- The command word with the given fields (30_encoding.md R100). -/
def CmdFields.toWord (f : CmdFields) : BitVec 136 :=
  BitVec.ofNat 136 (f.op.toNat * 2 ^ 128 + f.a.toNat * 2 ^ 64 + f.b.toNat * 2 ^ 32 + f.c.toNat)

/-- One-bit operand: bit 0 of a field (30_encoding.md R103). -/
def flagBit {n : Nat} (v : BitVec n) : Bool := v.toNat % 2 == 1

/-- The chip type operand: 0 INTEGRATED, 1 DISCRETE (30_encoding.md R103). -/
def chipTypeOf (bit : Bool) : ChipType := if bit then .discrete else .integrated

/-- The opcode map and the operand readings (30_encoding.md R102, R103); unused bits are ignored (R109), every
other OP value is reserved (R108). -/
def decodeFields (f : CmdFields) : Except DecodeError Instr :=
  match f.op.toNat with
  | 0x10 => .ok (.dbCfg (bitsAt f.a 0 32) (bitsAt f.a 32 32) f.b)
  | 0x11 => .ok .dbClr
  | 0x12 => .ok (.dbAdd f.a f.b f.c)
  | 0x13 => .ok (.dbAddf f.a f.b f.c)
  | 0x14 => .ok (.dbEnd f.a)
  | 0x15 => .ok (.dbRd f.b)
  | 0x20 => .ok .psgRst
  | 0x21 => .ok (.psgWr f.a (bitsAt f.b 0 8))
  | 0x22 => .ok (.psgRen f.b)
  | 0x23 => .ok (.psgRate f.b)
  | 0x24 => .ok (.psgChip (chipTypeOf (flagBit f.b)))
  | 0x25 => .ok (.psgHq (flagBit f.b))
  | 0x26 => .ok (.psgMute f.b (flagBit f.c))
  | 0x30 => .ok (.rsCfg (bitsAt f.a 0 32) (bitsAt f.a 32 32))
  | 0x31 => .ok (.rsPush (bitsAt f.b 0 16) (bitsAt f.c 0 16))
  | 0x32 => .ok .rsHas
  | 0x33 => .ok .rsPop
  | 0x34 => .ok (.rsRen f.b)
  | _ => .error (.reservedOpcode f.op)

/-- A byte with bit 7 set is a LATCH form: register index [6:4], data [3:0] (30_encoding.md R104). -/
def decodeLatchByte (r : BitVec 3) (d : BitVec 4) : Instr :=
  match r.toNat with
  | 0 => .latch0 d
  | 1 => .latch1 d
  | 2 => .latch2 d
  | 3 => .latch3 d
  | 4 => .latch4 d
  | 5 => .latch5 d
  | 6 => .latch6 d
  | _ => .latch7 d

/-- A byte with bit 7 clear is the DATA form of the current latch: data [5:0], bit 6 ignored
(30_encoding.md R104, R106, R107). -/
def decodeDataByte (latch : BitVec 3) (d : BitVec 6) : Instr :=
  match latch.toNat with
  | 0 => .data0 d
  | 1 => .data1 d
  | 2 => .data2 d
  | 3 => .data3 d
  | 4 => .data4 d
  | 5 => .data5 d
  | 6 => .data6 d
  | _ => .data7 d

/-- The form a PSG byte selects in latch state `latch`: every byte selects exactly one (30_encoding.md R106,
R110). -/
def decodeByte (latch : BitVec 3) (b : BitVec 8) : Instr :=
  if 0x80 ≤ b.toNat then decodeLatchByte (bitsAt b 4 3) (bitsAt b 0 4)
  else decodeDataByte latch (bitsAt b 0 6)

/-- The instruction of a presented word in latch state `latch`. -/
def decode (latch : BitVec 3) : PortWord → Except DecodeError Instr
  | .command w => decodeFields (CmdFields.ofWord w)
  | .psgByte b => .ok (decodeByte latch b)

/-- The instruction read from `nbits` bits `w` as spec/opcode_table.json numbers them: 136 bits are a command
word, 8 bits a PSG byte. The table gives the eight DATA rows one and the same byte pattern, told apart by the
latch alone (30_encoding.md R107); without a state the latch is taken at its reset value 0 (entry 3). -/
def decodeTableWord (nbits w : Nat) : Option Instr :=
  if nbits = 136 then (decode 0 (.command (BitVec.ofNat 136 w))).toOption
  else if nbits = 8 then (decode 0 (.psgByte (BitVec.ofNat 8 w))).toOption
  else none

/-- Two 32-bit operands packed in A: `hi` in A[63:32], `lo` in A[31:0] (30_encoding.md R100, R102). -/
def packA (hi lo : BitVec 32) : BitVec 64 := BitVec.ofNat 64 (hi.toNat * 2 ^ 32 + lo.toNat)

/-- A one-bit operand as a 32-bit field, the other bits 0. -/
def flagField (x : Bool) : BitVec 32 := if x then 1 else 0

/-- The bit of a chip type (30_encoding.md R103). -/
def chipTypeField : ChipType → BitVec 32
  | .integrated => 0
  | .discrete => 1

/-- A LATCH byte `1rrrdddd` (30_encoding.md R104). -/
def latchByte (r : Nat) (d : BitVec 4) : BitVec 8 := BitVec.ofNat 8 (0x80 + r * 16 + d.toNat)

/-- A DATA byte with bit 6 clear (30_encoding.md R104, R118). -/
def dataByte (d : BitVec 6) : BitVec 8 := BitVec.ofNat 8 d.toNat

/-- A command word from OP, A, B, C. -/
def cmdWord (op : BitVec 8) (a : BitVec 64) (b c : BitVec 32) : PortWord :=
  .command (CmdFields.toWord ⟨op, a, b, c⟩)

/-- The word of an instruction, unused fields 0 (30_encoding.md R100 to R104). -/
def encode : Instr → PortWord
  | .dbCfg n d r => cmdWord 0x10 (packA d n) r 0
  | .dbClr => cmdWord 0x11 0 0 0
  | .dbAdd t dl dr => cmdWord 0x12 t dl dr
  | .dbAddf t dl dr => cmdWord 0x13 t dl dr
  | .dbEnd k => cmdWord 0x14 k 0 0
  | .dbRd n => cmdWord 0x15 0 n 0
  | .psgRst => cmdWord 0x20 0 0 0
  | .psgWr t b => cmdWord 0x21 t (BitVec.ofNat 32 b.toNat) 0
  | .psgRen n => cmdWord 0x22 0 n 0
  | .psgRate r => cmdWord 0x23 0 r 0
  | .psgChip ty => cmdWord 0x24 0 (chipTypeField ty) 0
  | .psgHq x => cmdWord 0x25 0 (flagField x) 0
  | .psgMute ch x => cmdWord 0x26 0 ch (flagField x)
  | .rsCfg i o => cmdWord 0x30 (packA o i) 0 0
  | .rsPush l r => cmdWord 0x31 0 (BitVec.ofNat 32 l.toNat) (BitVec.ofNat 32 r.toNat)
  | .rsHas => cmdWord 0x32 0 0 0
  | .rsPop => cmdWord 0x33 0 0 0
  | .rsRen n => cmdWord 0x34 0 n 0
  | .latch0 d => .psgByte (latchByte 0 d)
  | .latch1 d => .psgByte (latchByte 1 d)
  | .latch2 d => .psgByte (latchByte 2 d)
  | .latch3 d => .psgByte (latchByte 3 d)
  | .latch4 d => .psgByte (latchByte 4 d)
  | .latch5 d => .psgByte (latchByte 5 d)
  | .latch6 d => .psgByte (latchByte 6 d)
  | .latch7 d => .psgByte (latchByte 7 d)
  | .data0 d => .psgByte (dataByte d)
  | .data1 d => .psgByte (dataByte d)
  | .data2 d => .psgByte (dataByte d)
  | .data3 d => .psgByte (dataByte d)
  | .data4 d => .psgByte (dataByte d)
  | .data5 d => .psgByte (dataByte d)
  | .data6 d => .psgByte (dataByte d)
  | .data7 d => .psgByte (dataByte d)

/-- One row of the opcode table: how many bits it has, which of them are fixed and at what value. -/
structure OpcodeRow where
  nbits : Nat
  mask : Nat
  value : Nat
  deriving DecidableEq, Repr

/-- A command row: OP fixed. -/
def cmdRow (op : Nat) : OpcodeRow := ⟨136, 0xFF * 2 ^ 128, op * 2 ^ 128⟩

/-- The row of spec/opcode_table.json an instruction belongs to (its width, mask and match). -/
def Instr.row : Instr → OpcodeRow
  | .dbCfg .. => cmdRow 0x10
  | .dbClr => cmdRow 0x11
  | .dbAdd .. => cmdRow 0x12
  | .dbAddf .. => cmdRow 0x13
  | .dbEnd _ => cmdRow 0x14
  | .dbRd _ => cmdRow 0x15
  | .psgRst => cmdRow 0x20
  | .psgWr .. => cmdRow 0x21
  | .psgRen _ => cmdRow 0x22
  | .psgRate _ => cmdRow 0x23
  | .psgChip _ => cmdRow 0x24
  | .psgHq _ => cmdRow 0x25
  | .psgMute .. => cmdRow 0x26
  | .rsCfg .. => cmdRow 0x30
  | .rsPush .. => cmdRow 0x31
  | .rsHas => cmdRow 0x32
  | .rsPop => cmdRow 0x33
  | .rsRen _ => cmdRow 0x34
  | .latch0 _ => ⟨8, 0xF0, 0x80⟩
  | .latch1 _ => ⟨8, 0xF0, 0x90⟩
  | .latch2 _ => ⟨8, 0xF0, 0xA0⟩
  | .latch3 _ => ⟨8, 0xF0, 0xB0⟩
  | .latch4 _ => ⟨8, 0xF0, 0xC0⟩
  | .latch5 _ => ⟨8, 0xF0, 0xD0⟩
  | .latch6 _ => ⟨8, 0xF0, 0xE0⟩
  | .latch7 _ => ⟨8, 0xF0, 0xF0⟩
  | .data0 _ | .data1 _ | .data2 _ | .data3 _ => ⟨8, 0x80, 0x00⟩
  | .data4 _ | .data5 _ | .data6 _ | .data7 _ => ⟨8, 0x80, 0x00⟩

/-- How many bits a presented word has. -/
def PortWord.nbits : PortWord → Nat
  | .command _ => 136
  | .psgByte _ => 8

/-- The bits of a presented word as a number, bit 0 the least significant. -/
def PortWord.toNat : PortWord → Nat
  | .command w => w.toNat
  | .psgByte b => b.toNat

/-- A word fits a row: it has the row's width and the row's fixed bits. -/
def OpcodeRow.fits (row : OpcodeRow) (w : PortWord) : Bool :=
  w.nbits == row.nbits && Nat.land w.toNat row.mask == row.value

/-- The expansions of 30_encoding.md R119. -/
def Pseudo.expand : Pseudo → List Instr
  | .dbReset => [.dbClr]
  | .dbNew n d r => [.dbCfg n d r, .dbClr]
  | .psgW b => [.psgWr 0 b]
  | .reset => [.dbClr, .psgRst]
  | .tone t ch p =>
    [.psgWr t (BitVec.ofNat 8 (0x80 + ch.toNat * 32 + p.toNat % 16)), .psgWr t (BitVec.ofNat 8 (p.toNat / 16))]
  | .vol t ch a => [.psgWr t (BitVec.ofNat 8 (0x90 + ch.toNat * 32 + a.toNat))]

end Sys2Proof
end

