-- ==== Sys2Proof/Machine/PsgWrite.lean ====
section
/-! DEFINITION. The PSG register write: the 16 byte forms (41_psg_write.md R170 to R185) and `PSG.WR` (R160). A
form is a change of state; it is the meaning of the byte on its own, at the PSG's current time (30_encoding.md R119,
`PSG.W`; entry 1), and what `PSG.WR` executes after `sync`. -/

namespace Sys2Proof.Machine

/-- `latch <- r` (10_state.md R25). -/
def setLatch (s : State) (r : BitVec 3) : State := s.withPsg { s.psg with latch := r }

/-- `regs[2*ch] <- v; setTone(ch)` (41_psg_write.md R166). -/
def writePeriod (s : State) (ch : Tone) (v : BitVec 10) : State :=
  setTone (s.withPsg { s.psg with regs := s.psg.regs.setPeriod v ch }) ch

/-- `regs[2*ch + 1] <- v; setAmp(ch, amp(ch))` (41_psg_write.md R161, R163). -/
def writeAtt (s : State) (ch : Chan) (v : BitVec 4) : State :=
  let s1 := s.withPsg { s.psg with regs := s.psg.regs.setAtt v ch }
  setAmp s1 ch (amp s1.params s1.psg ch)

/-- `regs[6] <- v; setNoise()` (41_psg_write.md R167). -/
def writeNoise (s : State) (v : BitVec 3) : State :=
  setNoise (s.withPsg { s.psg with regs := { s.psg.regs with noiseCtrl := v } })

/-- `LATCH 0, d` (41_psg_write.md R170). -/
def formLatch0 (d : BitVec 4) (s : State) : State :=
  writePeriod (setLatch s 0) .t0 (periodLow s.psg.regs.tone1Freq d)

/-- `LATCH 1, d` (41_psg_write.md R171). -/
def formLatch1 (d : BitVec 4) (s : State) : State :=
  writeAtt (setLatch s 1) .c0 d

/-- `LATCH 2, d` (41_psg_write.md R172). -/
def formLatch2 (d : BitVec 4) (s : State) : State :=
  writePeriod (setLatch s 2) .t1 (periodLow s.psg.regs.tone2Freq d)

/-- `LATCH 3, d` (41_psg_write.md R173). -/
def formLatch3 (d : BitVec 4) (s : State) : State :=
  writeAtt (setLatch s 3) .c1 d

/-- `LATCH 4, d` (41_psg_write.md R174). -/
def formLatch4 (d : BitVec 4) (s : State) : State :=
  writePeriod (setLatch s 4) .t2 (periodLow s.psg.regs.tone3Freq d)

/-- `LATCH 5, d` (41_psg_write.md R175). -/
def formLatch5 (d : BitVec 4) (s : State) : State :=
  writeAtt (setLatch s 5) .c2 d

/-- `LATCH 6, d` (41_psg_write.md R176). -/
def formLatch6 (d : BitVec 4) (s : State) : State :=
  writeNoise (setLatch s 6) (bitsAt d 0 3)

/-- `LATCH 7, d` (41_psg_write.md R177). -/
def formLatch7 (d : BitVec 4) (s : State) : State :=
  writeAtt (setLatch s 7) .c3 d

/-- `DATA d` with `latch` = 0 (41_psg_write.md R178). -/
def formData0 (d : BitVec 6) (s : State) : State :=
  writePeriod s .t0 (periodHigh s.psg.regs.tone1Freq d)

/-- `DATA d` with `latch` = 1 (41_psg_write.md R179). -/
def formData1 (d : BitVec 6) (s : State) : State :=
  writeAtt s .c0 (bitsAt d 0 4)

/-- `DATA d` with `latch` = 2 (41_psg_write.md R180). -/
def formData2 (d : BitVec 6) (s : State) : State :=
  writePeriod s .t1 (periodHigh s.psg.regs.tone2Freq d)

/-- `DATA d` with `latch` = 3 (41_psg_write.md R181). -/
def formData3 (d : BitVec 6) (s : State) : State :=
  writeAtt s .c1 (bitsAt d 0 4)

/-- `DATA d` with `latch` = 4 (41_psg_write.md R182). -/
def formData4 (d : BitVec 6) (s : State) : State :=
  writePeriod s .t2 (periodHigh s.psg.regs.tone3Freq d)

/-- `DATA d` with `latch` = 5 (41_psg_write.md R183). -/
def formData5 (d : BitVec 6) (s : State) : State :=
  writeAtt s .c2 (bitsAt d 0 4)

/-- `DATA d` with `latch` = 6 (41_psg_write.md R184). -/
def formData6 (d : BitVec 6) (s : State) : State :=
  writeNoise s (bitsAt d 0 3)

/-- `DATA d` with `latch` = 7 (41_psg_write.md R185). -/
def formData7 (d : BitVec 6) (s : State) : State :=
  writeAtt s .c3 (bitsAt d 0 4)

/-- The byte form an instruction is; a command is none and changes nothing here. -/
def applyForm (i : Instr) (s : State) : State :=
  match i with
  | .latch0 d => formLatch0 d s
  | .latch1 d => formLatch1 d s
  | .latch2 d => formLatch2 d s
  | .latch3 d => formLatch3 d s
  | .latch4 d => formLatch4 d s
  | .latch5 d => formLatch5 d s
  | .latch6 d => formLatch6 d s
  | .latch7 d => formLatch7 d s
  | .data0 d => formData0 d s
  | .data1 d => formData1 d s
  | .data2 d => formData2 d s
  | .data3 d => formData3 d s
  | .data4 d => formData4 d s
  | .data5 d => formData5 d s
  | .data6 d => formData6 d s
  | .data7 d => formData7 d s
  | .dbCfg .. | .dbClr | .dbAdd .. | .dbAddf .. | .dbEnd _ | .dbRd _ => s
  | .psgRst | .psgWr .. | .psgRen _ | .psgRate _ | .psgChip _ | .psgHq _ | .psgMute .. => s
  | .rsCfg .. | .rsPush .. | .rsHas | .rsPop | .rsRen _ => s

/-- The byte is decoded in the latch state of the moment and its form executed (41_psg_write.md R160,
30_encoding.md R106). -/
def writeByte (b : BitVec 8) (s : State) : State := applyForm (decodeByte s.psg.latch b) s

/-- `PSG.WR t, byte` (41_psg_write.md R160). -/
def execPsgWr (t : Time) (b : BitVec 8) (s : State) : Host.Outcome State Fault Refusal :=
  completeWithin (writeByte b (sync s t.toInt)) 0

/-- `LATCH 0, d` on its own (41_psg_write.md R170). -/
def execLatch0 (d : BitVec 4) (s : State) : Host.Outcome State Fault Refusal :=
  complete (formLatch0 d s) 0

/-- `LATCH 1, d` on its own (41_psg_write.md R171). -/
def execLatch1 (d : BitVec 4) (s : State) : Host.Outcome State Fault Refusal :=
  completeWithin (formLatch1 d s) 0

/-- `LATCH 2, d` on its own (41_psg_write.md R172). -/
def execLatch2 (d : BitVec 4) (s : State) : Host.Outcome State Fault Refusal :=
  complete (formLatch2 d s) 0

/-- `LATCH 3, d` on its own (41_psg_write.md R173). -/
def execLatch3 (d : BitVec 4) (s : State) : Host.Outcome State Fault Refusal :=
  completeWithin (formLatch3 d s) 0

/-- `LATCH 4, d` on its own (41_psg_write.md R174). -/
def execLatch4 (d : BitVec 4) (s : State) : Host.Outcome State Fault Refusal :=
  complete (formLatch4 d s) 0

/-- `LATCH 5, d` on its own (41_psg_write.md R175). -/
def execLatch5 (d : BitVec 4) (s : State) : Host.Outcome State Fault Refusal :=
  completeWithin (formLatch5 d s) 0

/-- `LATCH 6, d` on its own (41_psg_write.md R176). -/
def execLatch6 (d : BitVec 4) (s : State) : Host.Outcome State Fault Refusal :=
  completeWithin (formLatch6 d s) 0

/-- `LATCH 7, d` on its own (41_psg_write.md R177). -/
def execLatch7 (d : BitVec 4) (s : State) : Host.Outcome State Fault Refusal :=
  completeWithin (formLatch7 d s) 0

/-- `DATA d` with `latch` = 0 on its own (41_psg_write.md R178). -/
def execData0 (d : BitVec 6) (s : State) : Host.Outcome State Fault Refusal :=
  complete (formData0 d s) 0

/-- `DATA d` with `latch` = 1 on its own (41_psg_write.md R179). -/
def execData1 (d : BitVec 6) (s : State) : Host.Outcome State Fault Refusal :=
  completeWithin (formData1 d s) 0

/-- `DATA d` with `latch` = 2 on its own (41_psg_write.md R180). -/
def execData2 (d : BitVec 6) (s : State) : Host.Outcome State Fault Refusal :=
  complete (formData2 d s) 0

/-- `DATA d` with `latch` = 3 on its own (41_psg_write.md R181). -/
def execData3 (d : BitVec 6) (s : State) : Host.Outcome State Fault Refusal :=
  completeWithin (formData3 d s) 0

/-- `DATA d` with `latch` = 4 on its own (41_psg_write.md R182). -/
def execData4 (d : BitVec 6) (s : State) : Host.Outcome State Fault Refusal :=
  complete (formData4 d s) 0

/-- `DATA d` with `latch` = 5 on its own (41_psg_write.md R183). -/
def execData5 (d : BitVec 6) (s : State) : Host.Outcome State Fault Refusal :=
  completeWithin (formData5 d s) 0

/-- `DATA d` with `latch` = 6 on its own (41_psg_write.md R184). -/
def execData6 (d : BitVec 6) (s : State) : Host.Outcome State Fault Refusal :=
  completeWithin (formData6 d s) 0

/-- `DATA d` with `latch` = 7 on its own (41_psg_write.md R185). -/
def execData7 (d : BitVec 6) (s : State) : Host.Outcome State Fault Refusal :=
  completeWithin (formData7 d s) 0

end Sys2Proof.Machine
end

