-- ==== Sys2Proof/Machine/Resampler.lean ====
section
/-! DEFINITION. The meanings of the resampler commands (43_resampler.md R233 to R238). -/

namespace Sys2Proof.Machine

/-- `RS.CFG inRate, outRate` (43_resampler.md R233). -/
def execRsCfg (inRate outRate : BitVec 32) (s : State) : Host.Outcome State Fault Refusal :=
  complete (s.withRs { rsStep := rsStepOf inRate outRate, rsPos := 0, rsWr := 0, hist := ⟨[], []⟩ }) 0

/-- `RS.PUSH l, r` (43_resampler.md R234). -/
def execRsPush (l r : Sample) (s : State) : Host.Outcome State Fault Refusal :=
  complete (s.withRs (rsPush s.rs ⟨l, r⟩)) 0

/-- `RS.HAS` (43_resampler.md R235). -/
def execRsHas (s : State) : Host.Outcome State Fault Refusal :=
  complete s (rspFlag (rsHas s.rs))

/-- `RS.POP` (43_resampler.md R236). -/
def execRsPop (s : State) : Host.Outcome State Fault Refusal :=
  complete (s.withRs (rsAdvance s.rs)) (rspPair (rsPopValue s.rs))

/-- `RS.REN count` (43_resampler.md R238). -/
def execRsRen (count : BitVec 32) (s : State) : Host.Outcome State Fault Refusal :=
  complete (rsLoop count.toNat 0 s) 0

end Sys2Proof.Machine
end

