-- ==== Sys2Proof/Machine/Dispatch.lean ====
section
/-! DEFINITION. One arm per instruction. -/

namespace Sys2Proof.Machine

def exec (i : Instr) (s : State) : Host.Outcome State Fault Refusal :=
  match i with
  | .dbCfg n d r => Sys2Proof.Machine.execDbCfg n d r s
  | .dbClr => Sys2Proof.Machine.execDbClr s
  | .dbAdd t dl dr => Sys2Proof.Machine.execDbAdd t dl dr s
  | .dbAddf t dl dr => Sys2Proof.Machine.execDbAddf t dl dr s
  | .dbEnd k => Sys2Proof.Machine.execDbEnd k s
  | .dbRd n => Sys2Proof.Machine.execDbRd n s
  | .psgRst => Sys2Proof.Machine.execPsgRst s
  | .psgWr t b => Sys2Proof.Machine.execPsgWr t b s
  | .psgRen n => Sys2Proof.Machine.execPsgRen n s
  | .psgRate r => Sys2Proof.Machine.execPsgRate r s
  | .psgChip c => Sys2Proof.Machine.execPsgChip c s
  | .psgHq x => Sys2Proof.Machine.execPsgHq x s
  | .psgMute ch x => Sys2Proof.Machine.execPsgMute ch x s
  | .rsCfg a b => Sys2Proof.Machine.execRsCfg a b s
  | .rsPush l r => Sys2Proof.Machine.execRsPush l r s
  | .rsHas => Sys2Proof.Machine.execRsHas s
  | .rsPop => Sys2Proof.Machine.execRsPop s
  | .rsRen n => Sys2Proof.Machine.execRsRen n s
  | .latch0 d => Sys2Proof.Machine.execLatch0 d s
  | .latch1 d => Sys2Proof.Machine.execLatch1 d s
  | .latch2 d => Sys2Proof.Machine.execLatch2 d s
  | .latch3 d => Sys2Proof.Machine.execLatch3 d s
  | .latch4 d => Sys2Proof.Machine.execLatch4 d s
  | .latch5 d => Sys2Proof.Machine.execLatch5 d s
  | .latch6 d => Sys2Proof.Machine.execLatch6 d s
  | .latch7 d => Sys2Proof.Machine.execLatch7 d s
  | .data0 d => Sys2Proof.Machine.execData0 d s
  | .data1 d => Sys2Proof.Machine.execData1 d s
  | .data2 d => Sys2Proof.Machine.execData2 d s
  | .data3 d => Sys2Proof.Machine.execData3 d s
  | .data4 d => Sys2Proof.Machine.execData4 d s
  | .data5 d => Sys2Proof.Machine.execData5 d s
  | .data6 d => Sys2Proof.Machine.execData6 d s
  | .data7 d => Sys2Proof.Machine.execData7 d s

end Sys2Proof.Machine
end

