-- ==== Sys2Proof/Machine/Port.lean ====
section
/-! DEFINITION. The command port: taking the host's next event, and the hardware reset input. -/

namespace Sys2Proof.Machine

/-- The port takes a presented command: the event is gone, the buffers that came with it are the host's buffers
from now on, and the samples that came with it join the pairs ready for `generateSample` (10_state.md R22, R49;
entries 2, 5, 6). -/
def State.accept (s : State) (rest : List HostEvent) (buffers : Option (Stereo (Memory 32)))
    (answers : List (Stereo Sample)) : State :=
  s.withHost
    { s.host with
      events := rest
      out := buffers.getD s.host.out
      answers := s.host.answers ++ answers }

/-- The hardware reset input: every state element at its power-on value, the parameters and the host's own side
kept, RSP cleared (70_reset_and_hazards.md R280, entry 19). -/
def State.hardReset (s : State) (rest : List HostEvent) : State where
  params := s.params
  dbuf := Dbuf.powerOn s.params
  psg := Psg.powerOn s.params
  rs := Rs.powerOn
  host := { s.host with events := rest, rsp := 0 }

/-- The instruction a presented word is for this state: the latch is the one state that decoding reads
(30_encoding.md R107). -/
def State.decodeWord (s : State) (w : PortWord) : Except DecodeError Instr := decode s.psg.latch w

/-- The refusal of a word that has no instruction (30_encoding.md R108). -/
def refusalOf : DecodeError → Refusal
  | .reservedOpcode op => .reservedOpcode op

/-- The word of `nbits` bits `w` as the opcode table numbers them: a PSG byte of 8 bits, else a command word. -/
def tableWord (nbits w : Nat) : PortWord :=
  if nbits = 8 then .psgByte (BitVec.ofNat 8 w) else .command (BitVec.ofNat 136 w)

end Sys2Proof.Machine
end

