-- ==== Sys2Proof/Machine/Step.lean ====
section
/-! DEFINITION. One step: the host's next event. -/

namespace Sys2Proof.Machine

/-- One step. With no event pending the core holds its state (10_state.md R20, 60_exceptions.md R273); a presented
word is decoded and its instruction executed to completion (00_scope.md R15); a reserved opcode is refused
(30_encoding.md R108); the reset input resets (70_reset_and_hazards.md R280). -/
def step (s : State) : Host.Outcome State Fault Refusal :=
  match s.host.events with
  | [] => .next s
  | .reset :: rest => .next (s.hardReset rest)
  | .present w buffers answers :: rest =>
    match s.decodeWord w with
    | .error e => .refused (refusalOf e)
    | .ok i => exec i (s.accept rest buffers answers)

/-- The host presents the given word next (entry 2). -/
def State.withFetchWord (s : State) (nbits w : Nat) : State :=
  s.withHost { s.host with events := .present (tableWord nbits w) none [] :: s.host.events }

end Sys2Proof.Machine
end

