-- ==== Sys2Proof/Safety.lean ====
section
/-! DEFINITION. The notions that the statements about the machine are written in: lanes, the invariant of State, what
a run of the channels leaves alone, and the quantities of the spec's laws (slot totals, channel levels, the
integrator's course during a read). -/

namespace Sys2Proof

/-- A lane (00_scope.md R14). -/
inductive Lane where
  | left
  | right
  deriving DecidableEq, Repr

/-- `x.L` or `x.R` (00_scope.md R14). -/
def Stereo.lane {α : Type} (x : Stereo α) : Lane → α
  | .left => x.l
  | .right => x.r

end Sys2Proof

namespace Sys2Proof.Machine

/-! ### The invariant -/

/-- Both lanes of a memory pair are in canonical form. -/
def pairWf {w : Nat} (m : Stereo (Memory w)) : Prop := ∀ x : Lane, (m.lane x).wf = true

/-- The buffers that come with an event, if any, are in canonical form. -/
def HostEvent.Wf : HostEvent → Prop
  | .present _ (some b) _ => pairWf b
  | .present _ none _ => True
  | .reset => True

/-- What holds of an instance at power-on and after every step. -/
structure State.Inv (s : State) : Prop where
  /-- The parameters are among those the model admits (00_scope.md R8; entries 8, 23, 24). -/
  params : s.params.wf = true
  /-- BUFL and BUFR are in canonical form. -/
  bufWf : pairWf s.dbuf.buf
  /-- Every slot at an index from `cap` on is 0 (20_memory.md R72). -/
  beyondCap : ∀ (x : Lane) (j : Nat), s.dbuf.cap ≤ j → (s.dbuf.buf.lane x).read j = 0
  /-- HISTL and HISTR are in canonical form. -/
  histWf : pairWf s.rs.hist
  /-- HISTL and HISTR have 32 elements (20_memory.md R78). -/
  histSize : ∀ (x : Lane) (j : Nat), 32 ≤ j → (s.rs.hist.lane x).read j = 0
  /-- OUTL and OUTR are in canonical form. -/
  outWf : pairWf s.host.out
  /-- So are the buffers that the host is going to hand over. -/
  eventsWf : ∀ e ∈ s.host.events, e.Wf
  /-- `freqInc[ch]` >= 1 (10_state.md R54). -/
  freqIncPos : ∀ ch : Chan, 1 ≤ (s.psg.freqInc.get ch).toInt
  /-- In BASELINE `chanDelta` stays 0 (10_state.md R41). -/
  noPending : s.params.variant = .baseline → s.psg.chanDelta = Quad.all ⟨0, 0⟩
  /-- `chanOut[ch]` is the amplitude the channel should have now, 0 while muted (10_state.md R40, 41_psg_write.md
  R163). -/
  outIsAmp : ∀ ch : Chan, s.psg.chanOut.get ch = amp s.params s.psg ch
  /-- The LFSR holds `noiseShiftWidth` bits (10_state.md R42). -/
  lfsrWidth : s.psg.noiseShiftValue.toNat < 2 ^ noiseWidth s.psg.chipType
  /-- In BASELINE `clocks` is never negative (10_state.md R36, R54; entry 12 for ACCURATE). -/
  clocksNonneg : s.params.variant = .baseline → 0 ≤ s.psg.clocks.toInt
  /-- An instance with a DB_MAX_SLOTS has stayed within it (20_memory.md R76). -/
  within : ∀ m, s.params.dbMaxSlots = some m → s.dbuf.peakNeed ≤ m

/-- The time an instruction brings the PSG to lies a whole cycle below 2^63, so that its cycle boundary is an `s64`
(42_psg_run.md R191; entry 12 is about the times beyond). -/
def timeFits (s : State) : Instr → Prop
  | .psgWr t _ => t.toInt + ratioOf s.params ≤ 2 ^ 63
  | .psgRen n => clocksNeeded s.dbuf n.toNat + ratioOf s.params ≤ 2 ^ 63
  | .dbCfg .. | .dbClr | .dbAdd .. | .dbAddf .. | .dbEnd _ | .dbRd _ => True
  | .psgRst | .psgRate _ | .psgChip _ | .psgHq _ | .psgMute .. => True
  | .rsCfg .. | .rsPush .. | .rsHas | .rsPop | .rsRen _ => True
  | .latch0 _ | .latch1 _ | .latch2 _ | .latch3 _ | .latch4 _ | .latch5 _ | .latch6 _ | .latch7 _ => True
  | .data0 _ | .data1 _ | .data2 _ | .data3 _ | .data4 _ | .data5 _ | .data6 _ | .data7 _ => True

/-! ### Frames -/

/-- The instance has the unbounded delta memories of the spec's model (20_memory.md R72). -/
def State.Unbounded (s : State) : Prop := s.params.dbMaxSlots = none

/-- The instance has stayed within its DB_MAX_SLOTS, if it has one (20_memory.md R76). -/
def State.Within (s : State) : Prop := ∀ m, s.params.dbMaxSlots = some m → s.dbuf.peakNeed ≤ m

/-- The same state with another DB_MAX_SLOTS (20_memory.md R76). -/
def State.withBound (s : State) (b : Option Nat) : State :=
  { s with params := { s.params with dbMaxSlots := b } }

/-- Only slots, `cap` and the record of the largest `need` may differ: the rates, the time cursor and the
integrators are the same. -/
def Dbuf.OnlySlots (d d' : Dbuf) : Prop :=
  d' = { d with buf := d'.buf, cap := d'.cap, peakNeed := d'.peakNeed }

/-- Only what a run of the channels moves may differ: polarities, flip times, pending deltas and the LFSR
(42_psg_run.md R192 to R195). -/
def Psg.OnlyRuns (g g' : Psg) : Prop :=
  g' = { g with
    polarity := g'.polarity
    freqCounter := g'.freqCounter
    chanDelta := g'.chanDelta
    noiseShiftValue := g'.noiseShiftValue }

/-- Instruction `i` after an outcome: run in the next state, else the stop stands. -/
def andThen (o : Host.Outcome State Fault Refusal) (i : Instr) : Host.Outcome State Fault Refusal :=
  match o with
  | .next t => exec i t
  | .fault f => .fault f
  | .refused r => .refused r

/-- The 18 OP values of 30_encoding.md R102. -/
def commandOpcodes : List (BitVec 8) :=
  [0x10, 0x11, 0x12, 0x13, 0x14, 0x15, 0x20, 0x21, 0x22, 0x23, 0x24, 0x25, 0x26, 0x30, 0x31, 0x32, 0x33, 0x34]

/-! ### The delta buffer's laws -/

/-- The sum of all slots of a lane, modulo 2^32 (40_delta_buffer.md R139). -/
def Memory.total (m : Memory 32) : Amp := m.foldr (fun p acc => p.2 + acc) 0

/-- What `DB.ADD` adds to slot `j` for a delta `d` at fixed-point position `f` (40_delta_buffer.md R133): the first
eight slots take the forward rows, the next eight the mirrored rows, every other slot nothing. -/
def tapAt (kernel : List (List Int)) (f : Nat) (d : Int) (j : Nat) : Int :=
  let idx := f / 2 ^ 20
  let ph := f / 2 ^ 15 % 32
  let d2 := Int.tdiv (d * (f % 2 ^ 15 : Nat)) 32768
  let d1 := d - d2
  if j < idx then 0
  else if j < idx + 8 then
    tableAt kernel ph (j - idx) * d1 + tableAt kernel (ph + 1) (j - idx) * d2
  else if j < idx + 16 then
    tableAt kernel (32 - ph) (7 - (j - idx - 8)) * d1 + tableAt kernel (31 - ph) (7 - (j - idx - 8)) * d2
  else 0

/-- The integrator of a lane after `k` turns of the loop of `DB.RD`, from its value and slots before the command
(40_delta_buffer.md R136). -/
def integAt (buf : Memory 32) (integ : Amp) : Nat → Amp
  | 0 => integ
  | k + 1 => integrate (integAt buf integ k) (buf.read k) (pcm (integAt buf integ k))

/-- The sum of slots 0 to n - 1, modulo 2^32 (40_delta_buffer.md R140). -/
def slotsRead (buf : Memory 32) : Nat → Amp
  | 0 => 0
  | n + 1 => slotsRead buf n + buf.read n

/-- The sum of the first `n` samples a read produces (40_delta_buffer.md R140). -/
def samplesSum (buf : Memory 32) (integ : Amp) : Nat → Int
  | 0 => 0
  | n + 1 => samplesSum buf integ n + pcm (integAt buf integ n)

/-! ### The PSG's laws -/

/-- level(ch): `chanOut[ch]` while the channel is high, else 0, in one lane (10_state.md R52). -/
def levelOf (g : Psg) (ch : Chan) (x : Lane) : Amp := if high g ch then (g.chanOut.get ch).lane x else 0

/-- The sum over the channels of level(ch) - `chanDelta[ch]`, in one lane: by 10_state.md R52 it is the sum of all
deltas the channels have emitted. -/
def emittedLevel (g : Psg) (x : Lane) : Amp :=
  (levelOf g .c0 x - (g.chanDelta.get .c0).lane x) + (levelOf g .c1 x - (g.chanDelta.get .c1).lane x) +
  (levelOf g .c2 x - (g.chanDelta.get .c2).lane x) + (levelOf g .c3 x - (g.chanDelta.get .c3).lane x)

/-- The delta command that `emit` executes: `DB.ADD` on the HQ path, `DB.ADDF` on the fast path (41_psg_write.md
R165). -/
def deltaCmd (g : Psg) (t : Time) (x : Stereo Amp) : Instr :=
  if g.hqMode then .dbAdd t x.l x.r else .dbAddf t x.l x.r

/-- What `flush(ch)` emits: the pending delta at `clocks`, nothing if it is zero (42_psg_run.md R193). -/
def flushDeltas (g : Psg) (ch : Chan) : List (Time × Stereo Amp) :=
  if g.chanDelta.get ch = ⟨0, 0⟩ then [] else [(g.clocks, g.chanDelta.get ch)]

/-- What the first `k` flips of a tone channel emit: flip j, at the flip time `freqCounter` + j * `freqInc`, emits
+`chanOut` when it turns the polarity to +1 and -`chanOut` when it turns it to -1 (42_psg_run.md R194). -/
def toneDeltas (g : Psg) (ch : Tone) (k : Nat) : List (Time × Stereo Amp) :=
  (List.range k).map fun j =>
    (g.freqCounter.get ch.chan + BitVec.ofNat 64 j * g.freqInc.get ch.chan,
     if (g.polarity.get ch.chan == .minus) == (j % 2 == 0) then g.chanOut.get ch.chan
     else ⟨-(g.chanOut.get ch.chan).l, -(g.chanOut.get ch.chan).r⟩)

/-- The LFSR after `h` shifts (42_psg_run.md R196). -/
def lfsrAfter (p : Params) (g : Psg) (h : Nat) : BitVec 16 :=
  (lfsrNext (g.regs.noiseCtrl.getLsbD 2) (noiseWidth g.chipType) (noiseTaps p g.chipType))^[h] g.noiseShiftValue

/-- What the first `k` flips of the noise channel emit: each flip that turns `polarity[3]` to +1 shifts the LFSR and
emits the change of the output bit times `chanOut[3]` (42_psg_run.md R195). -/
def noiseDeltas (p : Params) (g : Psg) (k : Nat) : List (Time × Stereo Amp) :=
  let first := if g.polarity.q3 == .minus then 0 else 1
  (List.range ((k + 1 - first) / 2)).map fun h =>
    (g.freqCounter.q3 + BitVec.ofNat 64 (2 * h + first) * g.freqInc.q3,
     match (lfsrAfter p g h).getLsbD 0, (lfsrAfter p g (h + 1)).getLsbD 0 with
     | false, true => g.chanOut.q3
     | true, false => ⟨-g.chanOut.q3.l, -g.chanOut.q3.r⟩
     | false, false => ⟨0, 0⟩
     | true, true => ⟨0, 0⟩)

/-- Every delta a scheduling pass to `target` emits, channel by channel, with its time (42_psg_run.md R192). -/
def passDeltas (p : Params) (g : Psg) (target : Int) : List (Time × Stereo Amp) :=
  let k (ch : Chan) : Nat := flipCount (g.freqCounter.get ch).toInt (g.freqInc.get ch).toInt target
  flushDeltas g .c0 ++ toneDeltas g .t0 (k .c0) ++ (flushDeltas g .c1 ++ toneDeltas g .t1 (k .c1)) ++
  (flushDeltas g .c2 ++ toneDeltas g .t2 (k .c2)) ++ (flushDeltas g .c3 ++ noiseDeltas p g (k .c3))

/-- The number of a channel (10_state.md R24). -/
def chanIndex : Chan → Int
  | .c0 => 0
  | .c1 => 1
  | .c2 => 2
  | .c3 => 3

/-- The seed of a chip type's LFSR: 0x8000 INTEGRATED, 0x4000 DISCRETE (10_state.md R42, 42_psg_run.md R199). -/
def seedOf : ChipType → BitVec 16
  | .integrated => 0x8000
  | .discrete => 0x4000

/-- A noise control form with the register's new value and the latch afterwards (30_encoding.md R105). -/
def noiseWrite (g : Psg) : Instr → Option (BitVec 3 × BitVec 3)
  | .latch6 d => some (d.setWidth 3, 6)
  | .data6 d => some (d.setWidth 3, g.latch)
  | .latch0 _ | .latch1 _ | .latch2 _ | .latch3 _ | .latch4 _ | .latch5 _ | .latch7 _ => none
  | .data0 _ | .data1 _ | .data2 _ | .data3 _ | .data4 _ | .data5 _ | .data7 _ => none
  | .dbCfg .. | .dbClr | .dbAdd .. | .dbAddf .. | .dbEnd _ | .dbRd _ => none
  | .psgRst | .psgWr .. | .psgRen _ | .psgRate _ | .psgChip _ | .psgHq _ | .psgMute .. => none
  | .rsCfg .. | .rsPush .. | .rsHas | .rsPop | .rsRen _ => none

/-- The PSG after a noise control form, less the delta it may owe (41_psg_write.md R167): the half-period is tone
channel 2's when RATE = 3, else 16 * 2^RATE PSG cycles, and the LFSR is at its seed. -/
def noiseWritten (p : Params) (g : Psg) (v latch : BitVec 3) : Psg :=
  { g with
    regs := { g.regs with noiseCtrl := v }
    latch := latch
    freqInc := { g.freqInc with
      q3 := if v.toNat % 4 = 3 then g.freqInc.q2 else s64 (16 * 2 ^ (v.toNat % 4) * ratioOf p : Nat) }
    noiseShiftValue := seedOf g.chipType }

/-- The half-period of a tone period value: the chip type's zero-frequency value stands for 0 (41_psg_write.md
R166; 00_scope.md R8). -/
def toneHalfPeriod (p : Params) (g : Psg) (v : BitVec 10) : Time :=
  s64 (((if v = 0 then (match g.chipType with | .integrated => 1 | .discrete => 0x400) else v.toNat) * ratioOf p : Nat))

/-- A byte that writes register 6 in latch state `latch` (30_encoding.md R104, R105). -/
def writesNoiseControl (latch : BitVec 3) (b : BitVec 8) : Bool :=
  if 0x80 ≤ b.toNat then b.toNat / 16 % 8 == 6 else latch == 6

/-- The instruction is one of the 16 PSG byte forms. -/
def isByteForm : Instr → Bool
  | .latch0 _ | .latch1 _ | .latch2 _ | .latch3 _ | .latch4 _ | .latch5 _ | .latch6 _ | .latch7 _ => true
  | .data0 _ | .data1 _ | .data2 _ | .data3 _ | .data4 _ | .data5 _ | .data6 _ | .data7 _ => true
  | .dbCfg .. | .dbClr | .dbAdd .. | .dbAddf .. | .dbEnd _ | .dbRd _ => false
  | .psgRst | .psgWr .. | .psgRen _ | .psgRate _ | .psgChip _ | .psgHq _ | .psgMute .. => false
  | .rsCfg .. | .rsPush .. | .rsHas | .rsPop | .rsRen _ => false

/-- The instruction is a command of the resampler (43_resampler.md R230). -/
def isResampler : Instr → Bool
  | .rsCfg .. | .rsPush .. | .rsHas | .rsPop | .rsRen _ => true
  | .dbCfg .. | .dbClr | .dbAdd .. | .dbAddf .. | .dbEnd _ | .dbRd _ => false
  | .psgRst | .psgWr .. | .psgRen _ | .psgRate _ | .psgChip _ | .psgHq _ | .psgMute .. => false
  | .latch0 _ | .latch1 _ | .latch2 _ | .latch3 _ | .latch4 _ | .latch5 _ | .latch6 _ | .latch7 _ => false
  | .data0 _ | .data1 _ | .data2 _ | .data3 _ | .data4 _ | .data5 _ | .data6 _ | .data7 _ => false

/-- The instruction is a command of the delta buffer family. -/
def isDeltaBuffer : Instr → Bool
  | .dbCfg .. | .dbClr | .dbAdd .. | .dbAddf .. | .dbEnd _ | .dbRd _ => true
  | .rsCfg .. | .rsPush .. | .rsHas | .rsPop | .rsRen _ => false
  | .psgRst | .psgWr .. | .psgRen _ | .psgRate _ | .psgChip _ | .psgHq _ | .psgMute .. => false
  | .latch0 _ | .latch1 _ | .latch2 _ | .latch3 _ | .latch4 _ | .latch5 _ | .latch6 _ | .latch7 _ => false
  | .data0 _ | .data1 _ | .data2 _ | .data3 _ | .data4 _ | .data5 _ | .data6 _ | .data7 _ => false

/-- The byte form of an attenuation register with its new value: LATCH 1, 3, 5, 7 write the four data bits, DATA
under those latches the low four (30_encoding.md R105). The three components are the channel, the register's new
value and the latch afterwards. -/
def attWrite (g : Psg) : Instr → Option (Chan × BitVec 4 × BitVec 3)
  | .latch1 d => some (.c0, d, 1)
  | .latch3 d => some (.c1, d, 3)
  | .latch5 d => some (.c2, d, 5)
  | .latch7 d => some (.c3, d, 7)
  | .data1 d => some (.c0, d.setWidth 4, g.latch)
  | .data3 d => some (.c1, d.setWidth 4, g.latch)
  | .data5 d => some (.c2, d.setWidth 4, g.latch)
  | .data7 d => some (.c3, d.setWidth 4, g.latch)
  | .latch0 _ | .latch2 _ | .latch4 _ | .latch6 _ | .data0 _ | .data2 _ | .data4 _ | .data6 _ => none
  | .dbCfg .. | .dbClr | .dbAdd .. | .dbAddf .. | .dbEnd _ | .dbRd _ => none
  | .psgRst | .psgWr .. | .psgRen _ | .psgRate _ | .psgChip _ | .psgHq _ | .psgMute .. => none
  | .rsCfg .. | .rsPush .. | .rsHas | .rsPop | .rsRen _ => none

/-- The instruction writes an attenuation or the noise control, with the register write's effect on the amplitudes
(41_psg_write.md R161, R167). -/
def writesLevel (g : Psg) (i : Instr) : Bool := (attWrite g i).isSome || (noiseWrite g i).isSome

/-- The instruction can emit deltas into the slots: the two delta commands, the scheduling passes of `PSG.WR` and
`PSG.REN`, `PSG.MUTE`, and the forms that write a level (40_delta_buffer.md R133, R134; 41_psg_write.md R161, R167;
42_psg_run.md R192). -/
def canEmit (g : Psg) (i : Instr) : Prop :=
  (∃ k dl dr, i = .dbAdd k dl dr) ∨ (∃ k dl dr, i = .dbAddf k dl dr) ∨ (∃ k b, i = .psgWr k b) ∨
  (∃ n, i = .psgRen n) ∨ (∃ ch x, i = .psgMute ch x) ∨ writesLevel g i = true

/-- The PSG after the register write of an attenuation form, before `setAmp`. -/
def attWritten (g : Psg) (ch : Chan) (v : BitVec 4) (latch : BitVec 3) : Psg :=
  { g with regs := g.regs.setAtt v ch, latch := latch }

end Sys2Proof.Machine
end

