-- ==== Sys2Proof/Certificates/Slice0/Obligations.lean ====
section
/-! DEFINITION. The statements about the machine, family by family. Each docstring names the rules it formalises; a
statement that rests on a choice of the model says so and names the log entry. -/

open Sys2Proof Sys2Proof.Machine

/-! ### Encoding and the port -/

/-- An instruction is well-formed in a latch state exactly when the decoder, in that latch state, reads it back from
its own encoding (30_encoding.md R100 to R107). Every operand ranges over every value its field admits. -/
def Obligations.DecodeEncodeRoundTrip : Prop :=
  ∀ (latch : BitVec 3) (i : Instr), i.wellFormed latch = true ↔ decode latch (encode i) = .ok i

/-- Operand bits a command does not use are ignored (30_encoding.md R109). -/
def Obligations.UnusedOperandBitsIgnored : Prop :=
  ∀ (latch : BitVec 3) (a a' : BitVec 64) (b b' c c' : BitVec 32),
    (∀ op ∈ ([0x11, 0x20, 0x32, 0x33] : List (BitVec 8)),
      decode latch (cmdWord op a b c) = decode latch (cmdWord op a' b' c')) ∧
    decode latch (cmdWord 0x10 a b c) = decode latch (cmdWord 0x10 a b c') ∧
    decode latch (cmdWord 0x14 a b c) = decode latch (cmdWord 0x14 a b' c') ∧
    decode latch (cmdWord 0x30 a b c) = decode latch (cmdWord 0x30 a b' c') ∧
    (∀ op ∈ ([0x15, 0x22, 0x23, 0x34] : List (BitVec 8)),
      decode latch (cmdWord op a b c) = decode latch (cmdWord op a' b c')) ∧
    (b.setWidth 8 = b'.setWidth 8 →
      decode latch (cmdWord 0x21 a b c) = decode latch (cmdWord 0x21 a b' c')) ∧
    (∀ op ∈ ([0x24, 0x25] : List (BitVec 8)), b.getLsbD 0 = b'.getLsbD 0 →
      decode latch (cmdWord op a b c) = decode latch (cmdWord op a' b' c')) ∧
    (c.getLsbD 0 = c'.getLsbD 0 →
      decode latch (cmdWord 0x26 a b c) = decode latch (cmdWord 0x26 a' b c')) ∧
    (b.setWidth 16 = b'.setWidth 16 → c.setWidth 16 = c'.setWidth 16 →
      decode latch (cmdWord 0x31 a b c) = decode latch (cmdWord 0x31 a' b' c'))

/-- A presented command word is refused as reserved exactly when its OP field is outside the 18 opcodes; each of the
18 decodes to an instruction, whose step is never refused as reserved (30_encoding.md R102, R108). That the model
refuses where the hardware would ignore the word is entry 14; that a command of a bounded instance may be refused for
its slots is entry 13. -/
def Obligations.ReservedOpcodesAreRefused : Prop :=
  ∀ (s : State) (w : BitVec 136) (buffers : Option (Stereo (Memory 32))) (answers : List (Stereo Sample))
    (rest : List HostEvent), s.host.events = .present (.command w) buffers answers :: rest →
    (w.extractLsb' 128 8 ∉ commandOpcodes → step s = .refused (.reservedOpcode (w.extractLsb' 128 8))) ∧
    (w.extractLsb' 128 8 ∈ commandOpcodes →
      (∃ i, decode s.psg.latch (.command w) = .ok i) ∧ ∀ op, step s ≠ .refused (.reservedOpcode op))

/-- Every byte selects exactly one form: by bits [6:4] when bit 7 is set, by the latch when it is clear
(30_encoding.md R104, R106). -/
def Obligations.EveryByteSelectsOneForm : Prop :=
  ∀ (latch : BitVec 3) (b : BitVec 8),
    (b.msb = true →
      let d := b.setWidth 4
      ([.latch0 d, .latch1 d, .latch2 d, .latch3 d, .latch4 d, .latch5 d, .latch6 d, .latch7 d] :
        List Instr)[b.toNat / 16 % 8]? = some (decodeByte latch b)) ∧
    (b.msb = false →
      let d := b.setWidth 6
      ([.data0 d, .data1 d, .data2 d, .data3 d, .data4 d, .data5 d, .data6 d, .data7 d] :
        List Instr)[latch.toNat]? = some (decodeByte latch b))

/-- A step runs the instruction that the presented word decodes to, in the state where the event is taken and what
the host handed over with it is in place (00_scope.md R15; entries 2, 5, 6). -/
def Obligations.StepRunsDecodedInstruction : Prop :=
  ∀ (s : State) (w : PortWord) (buffers : Option (Stereo (Memory 32))) (answers : List (Stereo Sample))
    (rest : List HostEvent) (i : Instr),
    s.host.events = .present w buffers answers :: rest → decode s.psg.latch w = .ok i →
    step s = exec i { s with host := { s.host with
      events := rest, out := buffers.getD s.host.out, answers := s.host.answers ++ answers } }

/-- With nothing presented a step changes nothing (10_state.md R20), and the reset input leaves the power-on state of
the instance's parameters (70_reset_and_hazards.md R280); what it keeps of the host's side is entry 19. -/
def Obligations.IdleAndResetSteps : Prop :=
  (∀ s : State, s.host.events = [] → step s = .next s) ∧
  (∀ (s : State) (rest : List HostEvent), s.host.events = .reset :: rest →
    step s = .next { State.powerOn s.params with host := { s.host with events := rest, rsp := 0 } })

/-- A few words written out from the spec's encodings decode to the instruction they stand for (95_test_vectors.md
V1, V2, M3, RS1; 30_encoding.md R104). -/
def Obligations.SpecWordsDecode : Prop :=
  decode 0 (.command 0x10_0000001000369E99_0000AC44_00000000#136) = .ok (.dbCfg 3579545 16 44100) ∧
  decode 0 (.command 0x12_0000000000000064_000003E8_FFFFFC18#136) = .ok (.dbAdd 100 1000 (-1000)) ∧
  decode 0 (.command 0x26_0000000000000000_FFFFFFFF_00000001#136) = .ok (.psgMute (-1) true) ∧
  decode 0 (.command 0x30_0000000400000003_00000000_00000000#136) = .ok (.rsCfg 3 4) ∧
  decode 0 (.psgByte 0x84#8) = .ok (.latch0 4) ∧
  decode 0 (.psgByte 0x7F#8) = .ok (.data0 0x3F)

/-! ### Reset and the invariant -/

/-- The power-on values (10_state.md R55), for every choice of the parameters. -/
def Obligations.PowerOnValues : Prop :=
  ∀ p : Params,
    let s := State.powerOn p
    let R := match p.variant with | .baseline => 1 | .accurate => p.mcyclesRatio
    s.params = p ∧
    s.dbuf.factor = 0 ∧ s.dbuf.offset = 0 ∧ s.dbuf.clkNum = 0 ∧ s.dbuf.clkDen = 0 ∧ s.dbuf.rate = 0 ∧
    (∀ (x : Lane) (i : Nat), (s.dbuf.buf.lane x).read i = 0) ∧ (∀ x : Lane, s.dbuf.integ.lane x = 0) ∧
    s.dbuf.cap = p.dbInitSamples + 34 ∧
    s.psg.chipType = .integrated ∧ s.psg.hqMode = true ∧ (∀ c, s.psg.mutes.get c = false) ∧
    s.psg.regs = ⟨0, 15, 0, 15, 0, 15, 0, 15⟩ ∧ s.psg.latch = 0 ∧
    s.psg.freqInc = ⟨BitVec.ofNat 64 R, BitVec.ofNat 64 R, BitVec.ofNat 64 R, BitVec.ofNat 64 (16 * R)⟩ ∧
    (∀ c, s.psg.freqCounter.get c = 0) ∧ (∀ c, s.psg.polarity.get c = .minus) ∧
    (∀ c, s.psg.chanOut.get c = ⟨0, 0⟩) ∧ (∀ c, s.psg.chanDelta.get c = ⟨0, 0⟩) ∧
    s.psg.noiseShiftValue = 0x8000 ∧ s.psg.clocks = 0 ∧
    s.rs.rsStep = 0 ∧ s.rs.rsPos = 0 ∧ s.rs.rsWr = 0 ∧
    (∀ (x : Lane) (i : Nat), (s.rs.hist.lane x).read i = 0)

/-- The invariant of `State.Inv` (canonical memories, 20_memory.md R72; `freqInc` >= 1, 10_state.md R54; no pending
delta in BASELINE, R41; `chanOut` equal to `amp`, R40; the LFSR within its width, R42; in BASELINE `clocks` >= 0, R36,
R54) is kept by every step; and in both variants a step keeps `clocks` >= 0 as long as the time it brings the PSG to
lies a whole cycle below 2^63 (entry 12 is about the times beyond). -/
def Obligations.StepKeepsInvariant : Prop :=
  ∀ s t : State, s.Inv → step s = .next t → t.Inv ∧
    (0 ≤ s.psg.clocks.toInt →
      (∀ w buffers answers rest i, s.host.events = .present w buffers answers :: rest →
        decode s.psg.latch w = .ok i → timeFits s i) →
      0 ≤ t.psg.clocks.toInt)

/-- The invariant holds at power-on, for every parameter record the model admits (entries 8, 23, 24), and at the reset
state. -/
def Obligations.PowerOnMeetsInvariant : Prop :=
  (∀ p : Params, p.wf = true → (State.powerOn p).Inv) ∧ State.reset.Inv

/-- No step changes a parameter: VARIANT and the others are fixed for the life of an instance (10_state.md R22,
R37; entry 7). -/
def Obligations.ParametersNeverChange : Prop :=
  ∀ s t : State, step s = .next t → t.params = s.params

/-- Capacity grows monotonically, never shrinks (10_state.md R34, 20_memory.md R74). -/
def Obligations.CapacityNeverShrinks : Prop :=
  ∀ (i : Instr) (s t : State), exec i s = .next t → s.dbuf.cap ≤ t.dbuf.cap

/-- Capacity is unobservable: a state that differs in `cap` only takes every command to the same outcome up to `cap`
(20_memory.md R75). -/
def Obligations.CapacityIsUnobservable : Prop :=
  ∀ (i : Instr) (s : State) (c : Nat),
    (∀ t, exec i s = .next t →
      ∃ c', exec i (s.withDbuf { s.dbuf with cap := c }) = .next (t.withDbuf { t.dbuf with cap := c' })) ∧
    (∀ r, exec i s = .refused r → exec i (s.withDbuf { s.dbuf with cap := c }) = .refused r)

/-- An instance with DB_MAX_SLOTS = m that has stayed within it does what the unbounded instance does, as long as no
`grow` of the command needs more than m slots; otherwise the command is refused (20_memory.md R76, 60_exceptions.md
R274; entry 13). -/
def Obligations.BoundedInstanceFollowsUnbounded : Prop :=
  ∀ (i : Instr) (s t : State) (m : Nat), s.dbuf.peakNeed ≤ m → exec i (s.withBound none) = .next t →
    (t.dbuf.peakNeed ≤ m → exec i (s.withBound (some m)) = .next (t.withBound (some m))) ∧
    (m < t.dbuf.peakNeed → exec i (s.withBound (some m)) = .refused (.slotsExceeded t.dbuf.peakNeed))

/-! ### Delta buffer -/

/-- `fixedTime`: the product and sum wrap to 64 bits, a negative position is clamped to 0, and the sample index,
phase and interpolation factor are the fields of the result (40_delta_buffer.md R130). -/
def Obligations.FixedTimeWrapsThenClamps : Prop :=
  ∀ (d : Dbuf) (t : Time),
    let v : BitVec 64 := t * d.factor + d.offset
    let f := fixedTime d t.toInt
    (v.toInt < 0 → f = 0) ∧ (0 ≤ v.toInt → (f : Int) = v.toInt) ∧ f ≤ 2 ^ 63 - 1 ∧
    f = slotIndex f * 2 ^ 20 + phaseOf f * 2 ^ 15 + interpOf f ∧ phaseOf f < 32 ∧ interpOf f < 2 ^ 15

/-- `DB.CFG` stores the rates and sets `factor` to the ratio rounded up, 0 when clkNum = 0; nothing else changes
(40_delta_buffer.md R131). -/
def Obligations.DbCfgSetsFactor : Prop :=
  ∀ (n d r : BitVec 32) (s : State),
    exec (.dbCfg n d r) s = .next ((s.withDbuf { s.dbuf with
      clkNum := n, clkDen := d, rate := r,
      factor := if n.toNat = 0 then 0
        else s64 ⌈((r.toNat * 2 ^ 20 * d.toNat : Nat) : ℚ) / (n.toNat : ℚ)⌉ }).respond 0)

/-- `DB.CLR` zeroes every slot and the integrators and sets `offset` to `factor >> 1`; nothing else changes
(40_delta_buffer.md R132). -/
def Obligations.DbClrEmptiesBuffer : Prop :=
  ∀ s : State, ∃ d' : Dbuf, exec .dbClr s = .next ((s.withDbuf d').respond 0) ∧
    d' = { s.dbuf with buf := d'.buf, integ := d'.integ, offset := s.dbuf.factor.sshiftRight 1 } ∧
    (∀ (x : Lane) (i : Nat), (d'.buf.lane x).read i = 0) ∧ (∀ x : Lane, d'.integ.lane x = 0)

/-- `DB.ADD` adds the 16 taps of the delta to slots idx to idx + 15 of each lane, modulo 2^32, leaves every other
slot, grows `cap` by the rule of R74, and changes nothing else (40_delta_buffer.md R133). The need of idx + 16 slots is
recorded in the model's own field `peakNeed` (entry 13), on which the refusal of a bounded instance rests
(BoundedInstanceFollowsUnbounded). -/
def Obligations.DbAddWritesSixteenSlots : Prop :=
  ∀ (t : Time) (dl dr : Amp) (s : State), s.Unbounded → pairWf s.dbuf.buf →
    let f := fixedTime s.dbuf t.toInt
    let idx := slotIndex f
    ∃ d' : Dbuf, exec (.dbAdd t dl dr) s = .next ((s.withDbuf d').respond 0) ∧
      s.dbuf.OnlySlots d' ∧
      d'.cap = (if s.dbuf.cap < idx + 16 then max (2 * s.dbuf.cap) (idx + 16) else s.dbuf.cap) ∧
      d'.peakNeed = max s.dbuf.peakNeed (idx + 16) ∧
      (∀ (x : Lane) (j : Nat), (d'.buf.lane x).read j =
        s32 (((s.dbuf.buf.lane x).read j).toInt +
          tapAt s.params.kernel f ((⟨dl, dr⟩ : Stereo Amp).lane x).toInt j)) ∧
      (∀ (x : Lane) (j : Nat), j < idx ∨ idx + 16 ≤ j → (d'.buf.lane x).read j = (s.dbuf.buf.lane x).read j)

/-- `DB.ADDF` adds d * 32768 - d * it to slot idx + 7 and d * it to slot idx + 8 of each lane, modulo 2^32, where it
is f[19:5]; `cap` grows by the rule of R74; every other slot and everything else is left (40_delta_buffer.md R134).
The need of idx + 9 slots is recorded in the model's own field `peakNeed` (entry 13). -/
def Obligations.DbAddfWritesTwoSlots : Prop :=
  ∀ (t : Time) (dl dr : Amp) (s : State), s.Unbounded → pairWf s.dbuf.buf →
    let f := fixedTime s.dbuf t.toInt
    let idx := slotIndex f
    let it : Int := ((f / 2 ^ 5 % 2 ^ 15 : Nat) : Int)
    ∃ d' : Dbuf, exec (.dbAddf t dl dr) s = .next ((s.withDbuf d').respond 0) ∧
      s.dbuf.OnlySlots d' ∧
      d'.cap = (if s.dbuf.cap < idx + 9 then max (2 * s.dbuf.cap) (idx + 9) else s.dbuf.cap) ∧
      d'.peakNeed = max s.dbuf.peakNeed (idx + 9) ∧
      (∀ x : Lane, let d := ((⟨dl, dr⟩ : Stereo Amp).lane x).toInt
        (d'.buf.lane x).read (idx + 7) = s32 (((s.dbuf.buf.lane x).read (idx + 7)).toInt + d * 32768 - d * it) ∧
        (d'.buf.lane x).read (idx + 8) = s32 (((s.dbuf.buf.lane x).read (idx + 8)).toInt + d * it)) ∧
      (∀ (x : Lane) (j : Nat), j ≠ idx + 7 → j ≠ idx + 8 →
        (d'.buf.lane x).read j = (s.dbuf.buf.lane x).read j)

/-- `DB.END` advances `offset` by clocks * `factor`, modulo 2^64, and changes nothing else (40_delta_buffer.md
R135). -/
def Obligations.DbEndAdvancesOffset : Prop :=
  ∀ (k : Time) (s : State),
    exec (.dbEnd k) s =
      .next ((s.withDbuf { s.dbuf with offset := s.dbuf.offset + k * s.dbuf.factor }).respond 0)

/-- Ending a frame of c ticks and then adding a delta at t is adding it at c + t and then ending the frame, on both
paths (40_delta_buffer.md R135, R143). -/
def Obligations.FrameEndMovesTimestamps : Prop :=
  ∀ (s : State) (c t : Time) (dl dr : Amp),
    andThen (exec (.dbEnd c) s) (.dbAdd t dl dr) = andThen (exec (.dbAdd (c + t) dl dr) s) (.dbEnd c) ∧
    andThen (exec (.dbEnd c) s) (.dbAddf t dl dr) = andThen (exec (.dbAddf (c + t) dl dr) s) (.dbEnd c)

/-- `DB.RD` delivers n = min(count, max(0, `offset >> 20`)) samples: sample i is the integrator's value after i
turns and is added into element i of the host's buffer; elements from n on are left; the tail of the slots moves
down by n; `offset` loses n * 2^20; RSP is n; nothing else changes (40_delta_buffer.md R136). That RSP[63:32] is 0 is entry 25. -/
def Obligations.DbRdDeliversSamples : Prop :=
  ∀ (count : BitVec 32) (s : State), pairWf s.dbuf.buf → pairWf s.host.out →
    let n := min count.toNat (s.dbuf.offset.toInt / 2 ^ 20).toNat
    ∃ (d' : Dbuf) (o' : Stereo (Memory 32)),
      exec (.dbRd count) s = .next (((s.withDbuf d').withOut o').respond (BitVec.ofNat 64 n)) ∧
      d' = { s.dbuf with
        buf := d'.buf, integ := d'.integ, offset := s.dbuf.offset - BitVec.ofNat 64 (n * 2 ^ 20) } ∧
      ∀ x : Lane,
        (∀ j, (d'.buf.lane x).read j = (s.dbuf.buf.lane x).read (j + n)) ∧
        d'.integ.lane x = integAt (s.dbuf.buf.lane x) (s.dbuf.integ.lane x) n ∧
        (∀ i, i < n → (o'.lane x).read i = s32 (((s.host.out.lane x).read i).toInt +
          pcm (integAt (s.dbuf.buf.lane x) (s.dbuf.integ.lane x) i))) ∧
        (∀ i, n ≤ i → (o'.lane x).read i = (s.host.out.lane x).read i)

/-- For any integrator state the produced sample lies in [-32768, 32767], and it is floor(integ / 32768) whenever
that lies in the range (40_delta_buffer.md R136, R142). -/
def Obligations.SampleIsClamped : Prop :=
  ∀ v : Amp, -32768 ≤ pcm v ∧ pcm v ≤ 32767 ∧
    (-32768 ≤ v.toInt / 32768 → v.toInt / 32768 ≤ 32767 → pcm v = v.toInt / 32768) ∧
    (v.toInt / 32768 < -32768 → pcm v = -32768) ∧ (32767 < v.toInt / 32768 → pcm v = 32767)

/-- The accounting identity of a read, per lane: the integrator ends at its start plus the slots integrated less 64
times the samples produced, modulo 2^32 (40_delta_buffer.md R140). -/
def Obligations.DbRdAccounting : Prop :=
  ∀ (count : BitVec 32) (s : State), pairWf s.dbuf.buf →
    let n := min count.toNat (s.dbuf.offset.toInt / 2 ^ 20).toNat
    ∃ t, exec (.dbRd count) s = .next t ∧ ∀ x : Lane,
      t.dbuf.integ.lane x = s.dbuf.integ.lane x + slotsRead (s.dbuf.buf.lane x) n -
        s32 (64 * samplesSum (s.dbuf.buf.lane x) (s.dbuf.integ.lane x) n)

/-- Reading a samples and then b samples leaves the delta buffer as reading a + b samples does (40_delta_buffer.md
R136, R143). -/
def Obligations.SplitReadsAgree : Prop :=
  ∀ (a b : BitVec 32) (s : State), a.toNat + b.toNat < 2 ^ 32 → pairWf s.dbuf.buf →
    ∃ t u, andThen (exec (.dbRd a) s) (.dbRd b) = .next t ∧ exec (.dbRd (a + b)) s = .next u ∧
      t.dbuf = u.dbuf

/-- One `DB.ADD` or `DB.ADDF` adds exactly 32768 * d to the slots of each lane, modulo 2^32, wherever it lands, given
the pair-sum property of KERNEL (40_delta_buffer.md R139). -/
def Obligations.StepHeightIsConserved : Prop :=
  ∀ (t : Time) (dl dr : Amp) (s : State), s.Unbounded → pairWf s.dbuf.buf → s.params.kernelOk = true →
    ∃ u v, exec (.dbAdd t dl dr) s = .next u ∧ exec (.dbAddf t dl dr) s = .next v ∧ ∀ x : Lane,
      (u.dbuf.buf.lane x).total = (s.dbuf.buf.lane x).total + 32768 * (⟨dl, dr⟩ : Stereo Amp).lane x ∧
      (v.dbuf.buf.lane x).total = (s.dbuf.buf.lane x).total + 32768 * (⟨dl, dr⟩ : Stereo Amp).lane x

/-- `DB.ADD t, -dl, -dr` takes back exactly what `DB.ADD t, dl, dr` added (40_delta_buffer.md R133, R144). The most
negative operand is left out: its negative is no operand. -/
def Obligations.DbAddIsOdd : Prop :=
  ∀ (t : Time) (dl dr : Amp) (s : State), s.Unbounded → pairWf s.dbuf.buf →
    dl ≠ BitVec.intMin 32 → dr ≠ BitVec.intMin 32 →
    ∃ u, andThen (exec (.dbAdd t dl dr) s) (.dbAdd t (-dl) (-dr)) = .next u ∧ u.dbuf.buf = s.dbuf.buf

/-- The slot contents after two deltas do not depend on their order, whichever path each takes (20_memory.md R83,
40_delta_buffer.md R144). -/
def Obligations.DeltaOrderIsIrrelevant : Prop :=
  ∀ (s : State) (hq1 hq2 : Bool) (t1 t2 : Time) (x1 x2 : Stereo Amp), s.Unbounded → pairWf s.dbuf.buf →
    let i1 := deltaCmd { s.psg with hqMode := hq1 } t1 x1
    let i2 := deltaCmd { s.psg with hqMode := hq2 } t2 x2
    ∃ u v, andThen (exec i1 s) i2 = .next u ∧ andThen (exec i2 s) i1 = .next v ∧ u.dbuf.buf = v.dbuf.buf

/-- `clocksNeeded(count)` is the smallest T >= 0 such that, after `DB.END T`, at least count samples can be read; it
is 0 when `factor` <= 0 (40_delta_buffer.md R137). The last clause says it of the machine, where the advance of
`offset` does not wrap. -/
def Obligations.ClocksNeededIsSmallest : Prop :=
  ∀ (s : State) (count : BitVec 32),
    let T := clocksNeeded s.dbuf count.toNat
    (s.dbuf.factor.toInt ≤ 0 → T = 0) ∧
    (0 < s.dbuf.factor.toInt →
      0 ≤ T ∧ (count.toNat : Int) ≤ (s.dbuf.offset.toInt + T * s.dbuf.factor.toInt) / 2 ^ 20 ∧
      (∀ T' : Int, 0 ≤ T' → T' < T →
        (s.dbuf.offset.toInt + T' * s.dbuf.factor.toInt) / 2 ^ 20 < count.toNat) ∧
      (s.dbuf.offset.toInt + T * s.dbuf.factor.toInt < 2 ^ 63 → T < 2 ^ 63 →
        ∃ u, exec (.dbEnd (s64 T)) s = .next u ∧ count.toNat ≤ (u.dbuf.offset.toInt / 2 ^ 20).toNat))

/-! ### PSG register writes -/

/-- `LATCH 0`, `LATCH 2`, `LATCH 4` write the low nibble of a tone period, keep the high six bits, latch the
register, and set the half-period; `LATCH 4` moves the noise half-period with it when RATE = 3; nothing else changes
(41_psg_write.md R166, R170, R172, R174). That a byte presented on its own runs its form with no `sync`, and returns
0, is the model's reading: entries 1 and 21. -/
def Obligations.ToneLatchForms : Prop :=
  ∀ (d : BitVec 4) (s : State),
    let g := s.psg
    let low (old : BitVec 10) : BitVec 10 := (old &&& 0x3F0) ||| d.setWidth 10
    let inc (old : BitVec 10) : Time := toneHalfPeriod s.params g (low old)
    exec (.latch0 d) s = .next ((s.withPsg { g with
      latch := 0, regs := { g.regs with tone1Freq := low g.regs.tone1Freq }
      freqInc := { g.freqInc with q0 := inc g.regs.tone1Freq } }).respond 0) ∧
    exec (.latch2 d) s = .next ((s.withPsg { g with
      latch := 2, regs := { g.regs with tone2Freq := low g.regs.tone2Freq }
      freqInc := { g.freqInc with q1 := inc g.regs.tone2Freq } }).respond 0) ∧
    exec (.latch4 d) s = .next ((s.withPsg { g with
      latch := 4, regs := { g.regs with tone3Freq := low g.regs.tone3Freq }
      freqInc := { g.freqInc with
        q2 := inc g.regs.tone3Freq
        q3 := if g.regs.noiseCtrl.setWidth 2 = 3 then inc g.regs.tone3Freq else g.freqInc.q3 } }).respond 0)

/-- `DATA` under latch 0, 2, 4 writes the high six bits of a tone period and keeps the low nibble and the latch
(41_psg_write.md R166, R178, R180, R182). That a byte presented on its own runs its form with no `sync`, and returns
0, is the model's reading (entries 1 and 21); that a DATA form executed under another latch does the same is its choice
(entry 20), and no step reaches it. -/
def Obligations.ToneDataForms : Prop :=
  ∀ (d : BitVec 6) (s : State),
    let g := s.psg
    let high6 (old : BitVec 10) : BitVec 10 := (old &&& 0x00F) ||| (d.setWidth 10 <<< 4)
    let inc (old : BitVec 10) : Time := toneHalfPeriod s.params g (high6 old)
    exec (.data0 d) s = .next ((s.withPsg { g with
      regs := { g.regs with tone1Freq := high6 g.regs.tone1Freq }
      freqInc := { g.freqInc with q0 := inc g.regs.tone1Freq } }).respond 0) ∧
    exec (.data2 d) s = .next ((s.withPsg { g with
      regs := { g.regs with tone2Freq := high6 g.regs.tone2Freq }
      freqInc := { g.freqInc with q1 := inc g.regs.tone2Freq } }).respond 0) ∧
    exec (.data4 d) s = .next ((s.withPsg { g with
      regs := { g.regs with tone3Freq := high6 g.regs.tone3Freq }
      freqInc := { g.freqInc with
        q2 := inc g.regs.tone3Freq
        q3 := if g.regs.noiseCtrl.setWidth 2 = 3 then inc g.regs.tone3Freq else g.freqInc.q3 } }).respond 0)

/-- `amp(ch)`: zero while muted, else the volume table entry of the attenuation register scaled by PAN in percent,
rounded down (41_psg_write.md R163). -/
def Obligations.AmpFollowsTable : Prop :=
  ∀ (p : Params) (g : Psg) (ch : Chan) (x : Lane),
    (g.mutes.get ch = true → (amp p g ch).lane x = 0) ∧
    (g.mutes.get ch = false → (amp p g ch).lane x =
      BitVec.ofNat 32 (p.voltab.getD (g.regs.att ch).toNat 0 * (p.pan.get ch).lane x / 100))

/-- An attenuation form on a channel that is low: the register (and, for a LATCH form, the latch) is written,
`chanOut` takes the new amplitude, nothing is emitted or deferred, and nothing else changes (41_psg_write.md R161,
R171, R173, R175, R177, R179, R181, R183, R185). The byte on its own and its response 0 are entries 1 and 21; a DATA form
executed under another latch is entry 20. -/
def Obligations.AttenuationWriteOnLowChannel : Prop :=
  ∀ (i : Instr) (s : State) (ch : Chan) (v : BitVec 4) (latch : BitVec 3),
    attWrite s.psg i = some (ch, v, latch) → s.Within → high s.psg ch = false →
    exec i s = .next ((s.withPsg { attWritten s.psg ch v latch with
      chanOut := s.psg.chanOut.set ch (amp s.params (attWritten s.psg ch v latch) ch) }).respond 0)

/-- An attenuation form on a channel that is high, in BASELINE: besides the writes of the low case the difference of
the amplitudes is emitted at `clocks`, that is, the state is the one the delta command leaves, with the PSG's
registers written (41_psg_write.md R161, R165). For a bounded instance see BoundedInstanceFollowsUnbounded. The byte on its own and its response 0 are entries 1 and 21; a DATA form
executed under another latch is entry 20. -/
def Obligations.AttenuationWriteOnHighBaseline : Prop :=
  ∀ (i : Instr) (s : State) (ch : Chan) (v : BitVec 4) (latch : BitVec 3),
    attWrite s.psg i = some (ch, v, latch) → s.Unbounded → s.params.variant = .baseline →
    high s.psg ch = true →
    let new := amp s.params (attWritten s.psg ch v latch) ch
    let old := s.psg.chanOut.get ch
    ∃ u, exec (deltaCmd s.psg s.psg.clocks ⟨new.l - old.l, new.r - old.r⟩) s = .next u ∧
      exec i s = .next (u.withPsg { attWritten s.psg ch v latch with chanOut := s.psg.chanOut.set ch new })

/-- An attenuation form on a channel that is high, in ACCURATE: the difference of the amplitudes is added to
`chanDelta[ch]`, nothing is emitted (41_psg_write.md R161). The byte on its own and its response 0 are entries 1 and 21; a DATA form
executed under another latch is entry 20. -/
def Obligations.AttenuationWriteOnHighAccurate : Prop :=
  ∀ (i : Instr) (s : State) (ch : Chan) (v : BitVec 4) (latch : BitVec 3),
    attWrite s.psg i = some (ch, v, latch) → s.Within → s.params.variant = .accurate →
    high s.psg ch = true →
    let new := amp s.params (attWritten s.psg ch v latch) ch
    let old := s.psg.chanOut.get ch
    let pending := s.psg.chanDelta.get ch
    exec i s = .next ((s.withPsg { attWritten s.psg ch v latch with
      chanOut := s.psg.chanOut.set ch new
      chanDelta := s.psg.chanDelta.set ch
        ⟨pending.l + (new.l - old.l), pending.r + (new.r - old.r)⟩ }).respond 0)

/-- The noise control forms set the noise half-period from RATE, reseed the LFSR, and, if the output bit was 1, owe a
falling delta of `chanOut[3]`: emitted at `clocks` in BASELINE, deferred in ACCURATE (41_psg_write.md R167, R176,
R184). The byte on its own and its response 0 are entries 1 and 21; a DATA form
executed under another latch is entry 20. -/
def Obligations.NoiseControlForms : Prop :=
  ∀ (i : Instr) (s : State) (v latch : BitVec 3), noiseWrite s.psg i = some (v, latch) →
    let g := noiseWritten s.params s.psg v latch
    let out := s.psg.chanOut.q3
    let pending := s.psg.chanDelta.q3
    (s.psg.noiseShiftValue.getLsbD 0 = false → s.Within → exec i s = .next ((s.withPsg g).respond 0)) ∧
    (s.psg.noiseShiftValue.getLsbD 0 = true → s.params.variant = .accurate → s.Within →
      exec i s = .next ((s.withPsg { g with
        chanDelta := { s.psg.chanDelta with q3 := ⟨pending.l - out.l, pending.r - out.r⟩ } }).respond 0)) ∧
    (s.psg.noiseShiftValue.getLsbD 0 = true → s.params.variant = .baseline → s.Unbounded →
      ∃ u, exec (deltaCmd s.psg s.psg.clocks ⟨-out.l, -out.r⟩) s = .next u ∧
        exec i s = .next (u.withPsg g))

/-- A `PSG.WR` stamped at or before the PSG's current time applies now: it leaves what the byte's form leaves, run in
the state as it is (41_psg_write.md R160, 42_psg_run.md R191). That the byte presented on its own is this form, with
response 0, is entries 1 and 21. Later stamps are the subject of PsgWrCompletes. -/
def Obligations.LateWriteAppliesNow : Prop :=
  ∀ (t : Time) (b : BitVec 8) (s : State), t.toInt ≤ s.psg.clocks.toInt → s.Within →
    exec (.psgWr t b) s = exec (decodeByte s.psg.latch b) s

/-- `PSG.WR t, byte` completes, and leaves what the byte's form leaves in the state v that `sync(t)` leaves, the form
being the one the latch before the command selects. In v only what a run of the channels moves has changed, and
`clocks`: not at all for a t not later than `clocks`, else to t in BASELINE and to the first cycle boundary at or after
t in ACCURATE (while that does not wrap). Taken together `PSG.WR` latches the register of a LATCH byte and leaves the
delta buffer's rates, cursor and integrators, the mute flags, `hqMode`, `chipType`, the resampler and the host's buffers
(41_psg_write.md R160, 42_psg_run.md R191). The form is said through the byte presented on its own: entries 1 and 21. -/
def Obligations.PsgWrCompletes : Prop :=
  ∀ (t : Time) (s : State), s.Unbounded →
    let R : Nat := ratioOf s.params
    ∃ v : State, v.params = s.params ∧ v.rs = s.rs ∧ v.host = s.host ∧ s.dbuf.OnlySlots v.dbuf ∧
      ({ s.psg with clocks := v.psg.clocks } : Psg).OnlyRuns v.psg ∧
      (t.toInt ≤ s.psg.clocks.toInt → v = s) ∧
      (s.psg.clocks.toInt < t.toInt → s.params.variant = .baseline → v.psg.clocks = t) ∧
      (s.psg.clocks.toInt < t.toInt → 1 ≤ R → t.toInt + R ≤ 2 ^ 63 →
        t.toInt ≤ v.psg.clocks.toInt ∧ v.psg.clocks.toInt < t.toInt + R ∧
        (R : Int) ∣ v.psg.clocks.toInt - s.psg.clocks.toInt) ∧
      ∀ b : BitVec 8, ∃ u, exec (.psgWr t b) s = .next u ∧ exec (decodeByte s.psg.latch b) v = .next u ∧
        u.params = s.params ∧ u.rs = s.rs ∧ u.host = { s.host with rsp := 0 } ∧ s.dbuf.OnlySlots u.dbuf ∧
        u.psg.mutes = s.psg.mutes ∧ u.psg.hqMode = s.psg.hqMode ∧ u.psg.chipType = s.psg.chipType ∧
        u.psg.clocks = v.psg.clocks ∧
        (0x80 ≤ b.toNat → u.psg.latch.toNat = b.toNat / 16 % 8) ∧
        (b.toNat < 0x80 → u.psg.latch = s.psg.latch)

/-- A `PSG.WR` at a later time t runs every channel from flip to flip until its next flip is at or after t, one half
period per flip, turning the polarity at each; a channel whose next flip is not before t is not run
(42_psg_run.md R192, R194, R195). Where the last flip time would not fit 64 bits see entry 10. -/
def Obligations.ChannelsRunToTarget : Prop :=
  ∀ (t : Time) (b : BitVec 8) (s : State), s.Unbounded → s.psg.clocks.toInt < t.toInt →
    (∀ ch, 1 ≤ (s.psg.freqInc.get ch).toInt ∧ t.toInt + (s.psg.freqInc.get ch).toInt < 2 ^ 63) →
    ∃ u, exec (.psgWr t b) s = .next u ∧ ∀ ch : Chan, ∃ k : Nat,
      (u.psg.freqCounter.get ch).toInt = (s.psg.freqCounter.get ch).toInt + k * (s.psg.freqInc.get ch).toInt ∧
      t.toInt ≤ (u.psg.freqCounter.get ch).toInt ∧
      (0 < k → (u.psg.freqCounter.get ch).toInt < t.toInt + (s.psg.freqInc.get ch).toInt) ∧
      (t.toInt ≤ (s.psg.freqCounter.get ch).toInt → k = 0) ∧
      (u.psg.polarity.get ch = if k % 2 = 0 then s.psg.polarity.get ch else (s.psg.polarity.get ch).flip)

/-- While the channels run to t the LFSR shifts once at each flip of `polarity[3]` to +1: with k flips it shifts
(k + 1) / 2 times when the polarity was -1 and k / 2 times when it was +1 (42_psg_run.md R195, R196). The byte
written is one that does not reseed the LFSR. -/
def Obligations.LfsrShiftsOncePerHighFlip : Prop :=
  ∀ (t : Time) (b : BitVec 8) (s : State), s.Unbounded → s.psg.clocks.toInt < t.toInt →
    (1 ≤ s.psg.freqInc.q3.toInt ∧ t.toInt + s.psg.freqInc.q3.toInt < 2 ^ 63) →
    writesNoiseControl s.psg.latch b = false →
    let next : BitVec 16 → BitVec 16 :=
      lfsrNext (s.psg.regs.noiseCtrl.getLsbD 2) (match s.psg.chipType with | .integrated => 16 | .discrete => 15)
        (match s.psg.chipType with | .integrated => s.params.tapsIntegrated | .discrete => s.params.tapsDiscrete)
    ∃ (u : State) (k : Nat), exec (.psgWr t b) s = .next u ∧
      u.psg.freqCounter.q3.toInt = s.psg.freqCounter.q3.toInt + k * s.psg.freqInc.q3.toInt ∧
      u.psg.noiseShiftValue =
        (match s.psg.polarity.q3 with
          | .minus => next^[(k + 1) / 2] s.psg.noiseShiftValue
          | .plus => next^[k / 2] s.psg.noiseShiftValue)

/-- A scheduling pass emits, at every flip before the target, exactly that flip's delta at the flip's own time:
the delta buffer after a `PSG.WR` at a later time is the one that the delta commands of `passDeltas`, executed one
after the other, leave (42_psg_run.md R192, R193, R194, R195, 41_psg_write.md R165). The byte written is a tone
period write, which emits nothing itself. Where a flip time would wrap or `freqInc` is not positive the number of flips
is the model's reading, entry 10. -/
def Obligations.SyncEmitsDeltasAtFlips : Prop :=
  ∀ (t : Time) (s : State), s.Unbounded → s.psg.clocks.toInt < t.toInt →
    ∃ u v, exec (.psgWr t 0x80) s = .next u ∧
      (passDeltas s.params s.psg t.toInt).foldl (fun o e => andThen o (deltaCmd s.psg e.1 e.2)) (.next s) = .next v ∧
      u.dbuf = v.dbuf

/-- The slots account for the levels: a byte form, a `PSG.WR` or a `PSG.MUTE` changes the total of each lane's slots
by 32768 times the change of the sum over the channels of level(ch) - `chanDelta[ch]`, modulo 2^32, given the
pair-sum property of KERNEL. Together with R139 this is the emitted-amplitude invariant (10_state.md R52, R53). The
byte form on its own is entry 1; a DATA form executed under another latch is entry 20. -/
def Obligations.SlotsAccountForLevels : Prop :=
  ∀ (i : Instr) (s : State),
    (isByteForm i = true ∨ (∃ t b, i = .psgWr t b) ∨ (∃ ch x, i = .psgMute ch x)) →
    s.Unbounded → pairWf s.dbuf.buf → s.params.kernelOk = true →
    ∃ u, exec i s = .next u ∧ ∀ x : Lane,
      (u.dbuf.buf.lane x).total - (s.dbuf.buf.lane x).total =
        32768 * (emittedLevel u.psg x - emittedLevel s.psg x)

/-! ### PSG render, reset, configuration, mute -/

/-- `PSG.REN count` advances the frame by T = `clocksNeeded(count)`, rebases the PSG's time by T, ends the frame and
returns T and n, the smaller of count and the samples then readable; registers, latch, flags, half-periods and
amplitudes stay, and so do the host's elements from n on; `offset` loses n * 2^20. Where T >= 2^63 (`offset` near -2^63)
that T is not reduced is the model's reading, entry 11. The samples are the subject of RenderRunsChannelsAndReads (42_psg_run.md R198, 30_encoding.md R101). -/
def Obligations.PsgRenAdvancesOneFrame : Prop :=
  ∀ (count : BitVec 32) (s : State), s.Unbounded → pairWf s.host.out →
    let T := clocksNeeded s.dbuf count.toNat
    let ended : Time := s.dbuf.offset + BitVec.ofInt 64 T * s.dbuf.factor
    let n := min count.toNat (ended.toInt / 2 ^ 20).toNat
    ∃ u, exec (.psgRen count) s = .next u ∧ u.params = s.params ∧ u.rs = s.rs ∧
      u.host.rsp = (BitVec.ofInt 32 T ++ BitVec.ofNat 32 n : BitVec 64) ∧
      u.host = { s.host with out := u.host.out, rsp := u.host.rsp } ∧
      (∀ (x : Lane) (i : Nat), n ≤ i → (u.host.out.lane x).read i = (s.host.out.lane x).read i) ∧
      u.dbuf.offset = ended - BitVec.ofNat 64 (n * 2 ^ 20) ∧
      u.dbuf = { s.dbuf with
        offset := u.dbuf.offset, buf := u.dbuf.buf, integ := u.dbuf.integ
        cap := u.dbuf.cap, peakNeed := u.dbuf.peakNeed } ∧
      u.psg = { s.psg with
        clocks := u.psg.clocks, freqCounter := u.psg.freqCounter, polarity := u.psg.polarity
        chanDelta := u.psg.chanDelta, noiseShiftValue := u.psg.noiseShiftValue } ∧
      (T ≤ s.psg.clocks.toInt → u.psg.clocks.toInt = s.psg.clocks.toInt - T) ∧
      (s.psg.clocks.toInt < T → s.params.variant = .baseline → u.psg.clocks = 0)

/-- `PSG.REN count` runs the channels as a write stamped T does and then reads: polarities, pending deltas and LFSR
are the ones `PSG.WR T` leaves, its flip times and `clocks` less T; the samples are the integrator's course over the
slots that `PSG.WR T` leaves, added into the host's buffers; the tail of those slots moves down by n
(42_psg_run.md R198, 30_encoding.md R120). The byte of the write is a tone period write, which emits nothing. -/
def Obligations.RenderRunsChannelsAndReads : Prop :=
  ∀ (count : BitVec 32) (s : State), s.Unbounded → pairWf s.dbuf.buf → pairWf s.host.out →
    clocksNeeded s.dbuf count.toNat < 2 ^ 63 →
    let T : Time := s64 (clocksNeeded s.dbuf count.toNat)
    ∃ u w, exec (.psgRen count) s = .next u ∧ exec (.psgWr T 0x80) s = .next w ∧
      u.psg.polarity = w.psg.polarity ∧ u.psg.chanDelta = w.psg.chanDelta ∧
      u.psg.noiseShiftValue = w.psg.noiseShiftValue ∧ u.psg.clocks = w.psg.clocks - T ∧
      (∀ ch, u.psg.freqCounter.get ch = w.psg.freqCounter.get ch - T) ∧ u.dbuf.cap = w.dbuf.cap ∧
      let n := (u.host.rsp.setWidth 32).toNat
      ∀ x : Lane,
        (∀ j, (u.dbuf.buf.lane x).read j = (w.dbuf.buf.lane x).read (j + n)) ∧
        u.dbuf.integ.lane x = integAt (w.dbuf.buf.lane x) (s.dbuf.integ.lane x) n ∧
        (∀ i, i < n → (u.host.out.lane x).read i = s32 (((s.host.out.lane x).read i).toInt +
          pcm (integAt (w.dbuf.buf.lane x) (s.dbuf.integ.lane x) i)))

/-- `PSG.REN` delivers exactly count samples whenever `factor` > 0 and no 64-bit wrap occurs (42_psg_run.md R198). -/
def Obligations.RenderGivesCountSamples : Prop :=
  ∀ (count : BitVec 32) (s : State), s.Unbounded → 0 < s.dbuf.factor.toInt →
    s.dbuf.offset.toInt + clocksNeeded s.dbuf count.toNat * s.dbuf.factor.toInt < 2 ^ 63 →
    ∃ u, exec (.psgRen count) s = .next u ∧ u.host.rsp.setWidth 32 = count

/-- Rendering a silent chip is silence: with every `chanOut` and `chanDelta` zero, no queued delta and zero
integrators, `PSG.REN count` leaves the slots and integrators zero and the host's buffers as they were, whatever the
periods, the modes and the length of the frame (41_psg_write.md R187, 42_psg_run.md R207). -/
def Obligations.SilentChipRendersSilence : Prop :=
  ∀ (count : BitVec 32) (s : State), s.Unbounded → pairWf s.host.out →
    s.psg.chanOut = Quad.all ⟨0, 0⟩ → s.psg.chanDelta = Quad.all ⟨0, 0⟩ →
    s.dbuf.buf = ⟨[], []⟩ → s.dbuf.integ = ⟨0, 0⟩ →
    ∃ u, exec (.psgRen count) s = .next u ∧ u.host.out = s.host.out ∧
      u.dbuf.buf = ⟨[], []⟩ ∧ u.dbuf.integ = ⟨0, 0⟩ ∧
      u.psg.chanOut = Quad.all ⟨0, 0⟩ ∧ u.psg.chanDelta = Quad.all ⟨0, 0⟩

/-- `PSG.RST` gives every PSG register its reset value, keeps `chipType`, `hqMode` and `mutes`, and does not touch
the delta buffer (42_psg_run.md R199). -/
def Obligations.PsgRstValues : Prop :=
  ∀ s : State,
    let R := match s.params.variant with | .baseline => 1 | .accurate => s.params.mcyclesRatio
    let z := match s.psg.chipType with | .integrated => 1 | .discrete => 0x400
    exec .psgRst s = .next ((s.withPsg
      { regs := ⟨0, 15, 0, 15, 0, 15, 0, 15⟩
        latch := 0
        polarity := ⟨.minus, .minus, .minus, .minus⟩
        mutes := s.psg.mutes
        hqMode := s.psg.hqMode
        chipType := s.psg.chipType
        clocks := 0
        freqInc := ⟨BitVec.ofNat 64 (z * R), BitVec.ofNat 64 (z * R), BitVec.ofNat 64 (z * R),
          BitVec.ofNat 64 (16 * R)⟩
        freqCounter := ⟨0, 0, 0, 0⟩
        chanOut := ⟨⟨0, 0⟩, ⟨0, 0⟩, ⟨0, 0⟩, ⟨0, 0⟩⟩
        chanDelta := ⟨⟨0, 0⟩, ⟨0, 0⟩, ⟨0, 0⟩, ⟨0, 0⟩⟩
        noiseShiftValue := match s.psg.chipType with | .integrated => 0x8000 | .discrete => 0x4000 }).respond 0)

/-- `PSG.RATE` is `DB.CFG` with the stored clock rate; `PSG.CHIP` sets the type and truncates the LFSR to the new
width; `PSG.HQ` sets `hqMode`; nothing else changes (42_psg_run.md R200, R201, R202). -/
def Obligations.PsgConfigurationCommands : Prop :=
  ∀ s : State,
    (∀ r : BitVec 32, ∃ u, exec (.psgRate r) s = .next u ∧
      exec (.dbCfg s.dbuf.clkNum s.dbuf.clkDen r) s = .next u) ∧
    (∀ c : ChipType, ∃ v : BitVec 16,
      exec (.psgChip c) s = .next ((s.withPsg { s.psg with chipType := c, noiseShiftValue := v }).respond 0) ∧
      v.toNat = s.psg.noiseShiftValue.toNat % (match c with | .integrated => 2 ^ 16 | .discrete => 2 ^ 15)) ∧
    (∀ x : Bool, exec (.psgHq x) s = .next ((s.withPsg { s.psg with hqMode := x }).respond 0))

/-- `PSG.MUTE` does nothing for a channel outside 0 to 3 or a flag already at that value; else it sets the flag and
`chanOut[ch]` takes the new amplitude, the difference being owed exactly if the channel is high: emitted at `clocks`
in BASELINE, added to `chanDelta[ch]` in ACCURATE (42_psg_run.md R203). -/
def Obligations.PsgMuteCases : Prop :=
  ∀ (k : BitVec 32) (x : Bool) (s : State),
    (k.toInt < 0 ∨ 3 < k.toInt → s.Within → exec (.psgMute k x) s = .next (s.respond 0)) ∧
    ∀ ch : Chan, k.toInt = chanIndex ch →
      let g := { s.psg with mutes := s.psg.mutes.set ch x }
      let new := amp s.params g ch
      let old := s.psg.chanOut.get ch
      let pending := s.psg.chanDelta.get ch
      let g' := { g with chanOut := s.psg.chanOut.set ch new }
      (s.psg.mutes.get ch = x → s.Within → exec (.psgMute k x) s = .next (s.respond 0)) ∧
      (s.psg.mutes.get ch ≠ x → high s.psg ch = false → s.Within →
        exec (.psgMute k x) s = .next ((s.withPsg g').respond 0)) ∧
      (s.psg.mutes.get ch ≠ x → high s.psg ch = true → s.params.variant = .accurate → s.Within →
        exec (.psgMute k x) s = .next ((s.withPsg { g' with
          chanDelta := s.psg.chanDelta.set ch
            ⟨pending.l + (new.l - old.l), pending.r + (new.r - old.r)⟩ }).respond 0)) ∧
      (s.psg.mutes.get ch ≠ x → high s.psg ch = true → s.params.variant = .baseline → s.Unbounded →
        ∃ u, exec (deltaCmd s.psg s.psg.clocks ⟨new.l - old.l, new.r - old.r⟩) s = .next u ∧
          exec (.psgMute k x) s = .next (u.withPsg g'))

/-- Toggling mute twice in immediate succession restores the PSG and the slots bit for bit, on both paths and in both
variants (42_psg_run.md R204). -/
def Obligations.MuteTwiceRestores : Prop :=
  ∀ (k : BitVec 32) (ch : Chan) (s : State), k.toInt = chanIndex ch → s.Inv → s.Unbounded →
    ∃ u, andThen (exec (.psgMute k (!s.psg.mutes.get ch)) s) (.psgMute k (s.psg.mutes.get ch)) = .next u ∧
      u.psg = s.psg ∧ u.dbuf.buf = s.dbuf.buf

/-- One shift of the LFSR, for every W-bit state and in both modes: the register shifts right and the feedback bit
enters at bit W - 1; it is the parity of the tapped bits in white mode and the output bit in periodic mode
(42_psg_run.md R196). In periodic mode the period is W: W shifts bring every state back, and from the seed no smaller
number does (R197). -/
def Obligations.LfsrShiftAndPeriod : Prop :=
  ∀ (c : ChipType) (mask sv : BitVec 16),
    let W := match c with | .integrated => 16 | .discrete => 15
    sv.toNat < 2 ^ W →
      (∀ white : Bool, (lfsrNext white W mask sv).toNat = sv.toNat / 2 + 2 ^ (W - 1) *
        (if white then (∑ i ∈ Finset.range 16, if mask.getLsbD i ∧ sv.getLsbD i then 1 else 0) % 2
          else sv.toNat % 2)) ∧
      (lfsrNext false W mask)^[W] sv = sv ∧
      ∀ k, 0 < k → k < W → (lfsrNext false W mask)^[k] (seedOf c) ≠ seedOf c

/-! ### Resampler -/

/-- `RS.CFG` sets the step to floor(inRate * 2^20 / outRate), 0 when outRate = 0, and zeroes the position, the count
of pushed samples and the history; nothing else changes (43_resampler.md R233). -/
def Obligations.RsCfgRestarts : Prop :=
  ∀ (i o : BitVec 32) (s : State), ∃ r : Rs, exec (.rsCfg i o) s = .next ((s.withRs r).respond 0) ∧
    r.rsStep.toNat = (if o.toNat = 0 then 0 else i.toNat * 2 ^ 20 / o.toNat) ∧ r.rsPos = 0 ∧ r.rsWr = 0 ∧
    ∀ (x : Lane) (j : Nat), (r.hist.lane x).read j = 0

/-- `RS.PUSH` stores the pair at ring index `rsWr` mod 32, leaves every other element, and advances `rsWr`; nothing
else changes (43_resampler.md R234). That `rsWr` wraps at 2^64 is entry 18. -/
def Obligations.RsPushStoresOneSample : Prop :=
  ∀ (l r : Sample) (s : State), pairWf s.rs.hist →
    ∃ h : Stereo (Memory 16),
      exec (.rsPush l r) s = .next ((s.withRs { s.rs with hist := h, rsWr := s.rs.rsWr + 1 }).respond 0) ∧
      ∀ (x : Lane) (j : Nat), (h.lane x).read j =
        if j = s.rs.rsWr.toNat % 32 then (⟨l, r⟩ : Stereo Sample).lane x else (s.rs.hist.lane x).read j

/-- `RS.HAS` returns whether `rsWr` >= (`rsPos` >> 20) + 9 and changes nothing but RSP (43_resampler.md R235).
That RSP[63:1] is 0 is entry 25. -/
def Obligations.RsHasReturnsFlag : Prop :=
  ∀ s : State, exec .rsHas s =
    .next (s.respond (if s.rs.rsPos.toNat / 2 ^ 20 + 9 ≤ s.rs.rsWr.toNat then 1 else 0))

/-- `RS.POP` returns in each lane the clamped sum of the 16 taps of the nearest phase row over the input samples
base - 7 to base + 8, and advances the position by `rsStep` modulo 2^64; nothing else changes (43_resampler.md
R236, 30_encoding.md R101). That RSP[63:32] is 0 is entry 25. -/
def Obligations.RsPopReturnsSum : Prop :=
  ∀ s : State, ∃ r : BitVec 64,
    exec .rsPop s = .next ((s.withRs { s.rs with rsPos := s.rs.rsPos + s.rs.rsStep }).respond r) ∧
    r.toNat < 2 ^ 32 ∧
    ∀ x : Lane,
      let base : Nat := s.rs.rsPos.toNat / 2 ^ 20
      let p : Nat := (s.rs.rsPos.toNat % 2 ^ 20 + 2 ^ 14) / 2 ^ 15
      let acc : Int := ∑ k ∈ Finset.range 16, tableAt sinc p k *
        (if (base : Int) - 7 + k < 0 then 0 else ((s.rs.hist.lane x).read ((base + 32 - 7 + k) % 32)).toInt)
      (r.extractLsb' (match x with | .left => 0 | .right => 16) 16).toInt =
        max (-32768) (min 32767 (acc / 32768))

/-- Unit gain: when all 16 taps of a lane read the same value c, `RS.POP` returns exactly c in that lane, at every
phase (43_resampler.md R239). That RSP[63:32] is 0 is entry 25. -/
def Obligations.ResamplerHasUnitGain : Prop :=
  ∀ (s : State) (c : Stereo Sample),
    (∀ (x : Lane) (k : Nat), k < 16 →
      7 ≤ s.rs.rsPos.toNat / 2 ^ 20 + k ∧
      (s.rs.hist.lane x).read ((s.rs.rsPos.toNat / 2 ^ 20 + 32 - 7 + k) % 32) = c.lane x) →
    exec .rsPop s =
      .next ((s.withRs { s.rs with rsPos := s.rs.rsPos + s.rs.rsStep }).respond
        ((0#32 ++ c.r ++ c.l : BitVec 64)))

/-- `RS.REN count` pulls input only when needed, never ahead: where the position does not wrap, it has advanced by
count steps afterwards and `rsWr` is the larger of its old value and the last output's base plus 9; the host's elements
from count on, the other units and the pending events stay. And each pull is an `RS.PUSH` of the pair the host answers:
while the next output lacks input, `RS.REN` does what it does after that push (43_resampler.md R238). That the answers
stand in a queue taken from the front, with a free value beyond it and a count of requests, is entry 6. -/
def Obligations.RsRenPullsOnlyWhenNeeded : Prop :=
  (∀ (count : BitVec 32) (s : State), pairWf s.host.out →
    s.rs.rsPos.toNat + count.toNat * s.rs.rsStep.toNat < 2 ^ 64 →
    let n := count.toNat
    let last := (s.rs.rsPos.toNat + (n - 1) * s.rs.rsStep.toNat) / 2 ^ 20
    let wr := if n = 0 then s.rs.rsWr.toNat else max s.rs.rsWr.toNat (last + 9)
    ∃ u, exec (.rsRen count) s = .next u ∧ u.params = s.params ∧ u.dbuf = s.dbuf ∧ u.psg = s.psg ∧
      u.rs.rsStep = s.rs.rsStep ∧ u.rs.rsPos.toNat = s.rs.rsPos.toNat + n * s.rs.rsStep.toNat ∧
      u.rs.rsWr.toNat = wr ∧ u.host.pulled = s.host.pulled + (wr - s.rs.rsWr.toNat) ∧
      u.host.answers = s.host.answers.drop (wr - s.rs.rsWr.toNat) ∧
      u.host.events = s.host.events ∧ u.host.rsp = 0 ∧
      (∀ (x : Lane) (i : Nat), n ≤ i → (u.host.out.lane x).read i = (s.host.out.lane x).read i)) ∧
  (∀ (count : BitVec 32) (s : State), 0 < count.toNat → s.rs.rsWr.toNat < s.rs.rsPos.toNat / 2 ^ 20 + 9 →
    let x := s.host.answers.headD (Config.hostAnswer s.host.pulled)
    ∃ t u, exec (.rsPush x.l x.r) { s with host := { s.host with
        answers := s.host.answers.drop 1, pulled := s.host.pulled + 1 } } = .next t ∧
      exec (.rsRen count) t = .next u ∧ exec (.rsRen count) s = .next u)

/-- `RS.REN` output by output: with enough input already there, `RS.REN 1` is `RS.POP` with the pair written over
element 0, sign-extended; and `RS.REN (a + b)` is `RS.REN a` followed by `RS.REN b`, whose samples then stand from
element 0 on (43_resampler.md R236, R238). What is said of the queue of answers and the count of requests is entry 6.
-/
def Obligations.RsRenIsRepeatedPop : Prop :=
  (∀ s : State, pairWf s.host.out → s.rs.rsPos.toNat / 2 ^ 20 + 9 ≤ s.rs.rsWr.toNat →
    ∃ u v, exec (.rsRen 1) s = .next u ∧ exec .rsPop s = .next v ∧ u.rs = v.rs ∧
      u.host.out.l.read 0 = (v.host.rsp.extractLsb' 0 16).signExtend 32 ∧
      u.host.out.r.read 0 = (v.host.rsp.extractLsb' 16 16).signExtend 32) ∧
  (∀ (a b : BitVec 32) (s : State), pairWf s.host.out → a.toNat + b.toNat < 2 ^ 32 →
    ∃ t u, andThen (exec (.rsRen a) s) (.rsRen b) = .next t ∧ exec (.rsRen (a + b)) s = .next u ∧
      t.rs = u.rs ∧ t.host.answers = u.host.answers ∧ t.host.pulled = u.host.pulled ∧
      ∀ (x : Lane) (i : Nat), i < b.toNat →
        (t.host.out.lane x).read i = (u.host.out.lane x).read (a.toNat + i))

/-! ### The whole machine -/

/-- The resampler is independent: no resampler command writes or reads delta buffer or PSG state, and no other
command writes or reads resampler state (43_resampler.md R230). -/
def Obligations.ResamplerIsIndependent : Prop :=
  ∀ (i : Instr) (s t : State), exec i s = .next t →
    (isResampler i = true → t.dbuf = s.dbuf ∧ t.psg = s.psg ∧
      ∀ (d : Dbuf) (g : Psg), exec i ((s.withDbuf d).withPsg g) = .next ((t.withDbuf d).withPsg g)) ∧
    (isResampler i = false → t.rs = s.rs ∧ ∀ r : Rs, exec i (s.withRs r) = .next (t.withRs r))

/-- Which commands write which piece of core state: the "written by" sentences of 10_state.md R24 to R46 and of the
table of 20_memory.md R70 as one rule over all instructions, with the parameters (R22) and the host's buffers (R70).
`RS.REN` stands beside `RS.PUSH` and `RS.POP`, which it executes (43_resampler.md R238). The clauses on the model's own
`peakNeed`, queue of answers, count of requests and list of events are entries 13, 6 and 2; the byte forms on their own
are entry 1. -/
def Obligations.OnlyNamedCommandsWrite : Prop :=
  ∀ (i : Instr) (s t : State), exec i s = .next t →
    t.params = s.params ∧ t.host.events = s.host.events ∧
    (t.psg.mutes ≠ s.psg.mutes → ∃ ch x, i = .psgMute ch x) ∧
    (t.psg.hqMode ≠ s.psg.hqMode → ∃ x, i = .psgHq x) ∧
    (t.psg.chipType ≠ s.psg.chipType → ∃ c, i = .psgChip c) ∧
    (t.psg.regs ≠ s.psg.regs ∨ t.psg.latch ≠ s.psg.latch ∨ t.psg.freqInc ≠ s.psg.freqInc →
      isByteForm i = true ∨ (∃ k b, i = .psgWr k b) ∨ i = .psgRst) ∧
    (t.psg.polarity ≠ s.psg.polarity ∨ t.psg.clocks ≠ s.psg.clocks ∨ t.psg.freqCounter ≠ s.psg.freqCounter →
      (∃ k b, i = .psgWr k b) ∨ (∃ n, i = .psgRen n) ∨ i = .psgRst) ∧
    (t.psg.chanOut ≠ s.psg.chanOut →
      (attWrite s.psg i).isSome = true ∨ (∃ k b, i = .psgWr k b) ∨ (∃ ch x, i = .psgMute ch x) ∨ i = .psgRst) ∧
    (t.psg.chanDelta ≠ s.psg.chanDelta →
      writesLevel s.psg i = true ∨ (∃ k b, i = .psgWr k b) ∨ (∃ n, i = .psgRen n) ∨ (∃ ch x, i = .psgMute ch x) ∨
      i = .psgRst) ∧
    (t.psg.noiseShiftValue ≠ s.psg.noiseShiftValue →
      (noiseWrite s.psg i).isSome = true ∨ (∃ k b, i = .psgWr k b) ∨ (∃ n, i = .psgRen n) ∨ i = .psgRst ∨
      ∃ c, i = .psgChip c) ∧
    (t.dbuf.factor ≠ s.dbuf.factor → (∃ n d r, i = .dbCfg n d r) ∨ ∃ r, i = .psgRate r) ∧
    (t.dbuf.clkNum ≠ s.dbuf.clkNum ∨ t.dbuf.clkDen ≠ s.dbuf.clkDen → ∃ n d r, i = .dbCfg n d r) ∧
    (t.dbuf.rate ≠ s.dbuf.rate → (∃ n d r, i = .dbCfg n d r) ∨ ∃ r, i = .psgRate r) ∧
    (t.dbuf.offset ≠ s.dbuf.offset →
      i = .dbClr ∨ (∃ k, i = .dbEnd k) ∨ (∃ n, i = .dbRd n) ∨ ∃ n, i = .psgRen n) ∧
    (t.dbuf.integ ≠ s.dbuf.integ → i = .dbClr ∨ (∃ n, i = .dbRd n) ∨ ∃ n, i = .psgRen n) ∧
    (t.dbuf.cap ≠ s.dbuf.cap ∨ t.dbuf.peakNeed ≠ s.dbuf.peakNeed → canEmit s.psg i) ∧
    (t.dbuf.buf ≠ s.dbuf.buf → canEmit s.psg i ∨ i = .dbClr ∨ ∃ n, i = .dbRd n) ∧
    (t.rs.rsStep ≠ s.rs.rsStep → ∃ a b, i = .rsCfg a b) ∧
    (t.rs.rsPos ≠ s.rs.rsPos → (∃ a b, i = .rsCfg a b) ∨ i = .rsPop ∨ ∃ n, i = .rsRen n) ∧
    (t.rs.rsWr ≠ s.rs.rsWr ∨ t.rs.hist ≠ s.rs.hist →
      (∃ a b, i = .rsCfg a b) ∨ (∃ l r, i = .rsPush l r) ∨ ∃ n, i = .rsRen n) ∧
    (t.host.out ≠ s.host.out → (∃ n, i = .dbRd n) ∨ (∃ n, i = .psgRen n) ∨ ∃ n, i = .rsRen n) ∧
    (t.host.answers ≠ s.host.answers ∨ t.host.pulled ≠ s.host.pulled → ∃ n, i = .rsRen n)
end

