-- ==== Sys2Proof/Laws/Decode.lean ====
section
/-! SUPPORT. The fields of command words and PSG bytes: reading a field of a word that was put together from fields
gives the field back. -/

namespace Sys2Proof

theorem bitsAt_toNat {n : Nat} (v : BitVec n) (lo len : Nat) :
    (bitsAt v lo len).toNat = v.toNat / 2 ^ lo % 2 ^ len := by
  rw [bitsAt, BitVec.toNat_ofNat]

theorem CmdFields.toWord_toNat (f : CmdFields) :
    f.toWord.toNat = f.op.toNat * 2 ^ 128 + f.a.toNat * 2 ^ 64 + f.b.toNat * 2 ^ 32 + f.c.toNat := by
  have ho := f.op.isLt
  have ha := f.a.isLt
  have hb := f.b.isLt
  have hc := f.c.isLt
  rw [CmdFields.toWord, BitVec.toNat_ofNat]
  omega

/-- The fields of a word put together from fields are those fields (30_encoding.md R100). -/
theorem CmdFields.ofWord_toWord (f : CmdFields) : CmdFields.ofWord f.toWord = f := by
  have ho := f.op.isLt
  have ha := f.a.isLt
  have hb := f.b.isLt
  have hc := f.c.isLt
  obtain ⟨op, a, b, c⟩ := f
  simp only at ho ha hb hc
  unfold CmdFields.ofWord
  have h1 : bitsAt (CmdFields.toWord ⟨op, a, b, c⟩) 128 8 = op := by
    apply BitVec.eq_of_toNat_eq
    rw [bitsAt_toNat, CmdFields.toWord_toNat]
    simp only
    omega
  have h2 : bitsAt (CmdFields.toWord ⟨op, a, b, c⟩) 64 64 = a := by
    apply BitVec.eq_of_toNat_eq
    rw [bitsAt_toNat, CmdFields.toWord_toNat]
    simp only
    omega
  have h3 : bitsAt (CmdFields.toWord ⟨op, a, b, c⟩) 32 32 = b := by
    apply BitVec.eq_of_toNat_eq
    rw [bitsAt_toNat, CmdFields.toWord_toNat]
    simp only
    omega
  have h4 : bitsAt (CmdFields.toWord ⟨op, a, b, c⟩) 0 32 = c := by
    apply BitVec.eq_of_toNat_eq
    rw [bitsAt_toNat, CmdFields.toWord_toNat]
    simp only
    omega
  rw [h1, h2, h3, h4]

/-- A command word decodes by its fields, in every latch state (30_encoding.md R100, R107). -/
theorem decode_cmdWord (latch : BitVec 3) (op : BitVec 8) (a : BitVec 64) (b c : BitVec 32) :
    decode latch (cmdWord op a b c) = decodeFields ⟨op, a, b, c⟩ := by
  rw [cmdWord, decode, CmdFields.ofWord_toWord]

theorem packA_toNat (hi lo : BitVec 32) : (packA hi lo).toNat = hi.toNat * 2 ^ 32 + lo.toNat := by
  have h1 := hi.isLt
  have h2 := lo.isLt
  rw [packA, BitVec.toNat_ofNat]
  omega

theorem bitsAt_packA_low (hi lo : BitVec 32) : bitsAt (packA hi lo) 0 32 = lo := by
  have h1 := hi.isLt
  have h2 := lo.isLt
  apply BitVec.eq_of_toNat_eq
  rw [bitsAt_toNat, packA_toNat]
  omega

theorem bitsAt_packA_high (hi lo : BitVec 32) : bitsAt (packA hi lo) 32 32 = hi := by
  have h1 := hi.isLt
  have h2 := lo.isLt
  apply BitVec.eq_of_toNat_eq
  rw [bitsAt_toNat, packA_toNat]
  omega

theorem bitsAt_ofNat_byte (b : BitVec 8) : bitsAt (BitVec.ofNat 32 b.toNat) 0 8 = b := by
  have h := b.isLt
  apply BitVec.eq_of_toNat_eq
  rw [bitsAt_toNat, BitVec.toNat_ofNat]
  omega

theorem bitsAt_ofNat_sample (x : Sample) : bitsAt (BitVec.ofNat 32 x.toNat) 0 16 = x := by
  have h := x.isLt
  apply BitVec.eq_of_toNat_eq
  rw [bitsAt_toNat, BitVec.toNat_ofNat]
  omega

@[simp] theorem flagBit_flagField (x : Bool) : flagBit (flagField x) = x := by cases x <;> rfl

@[simp] theorem chipTypeOf_chipTypeField (c : ChipType) : chipTypeOf (flagBit (chipTypeField c)) = c := by
  cases c <;> rfl

/-- A LATCH byte selects its register and carries its data, whatever the latch (30_encoding.md R104). -/
theorem decodeByte_latchByte (latch r : BitVec 3) (d : BitVec 4) :
    decodeByte latch (latchByte r.toNat d) = decodeLatchByte r d := by
  have h1 := r.isLt
  have h2 := d.isLt
  have hb : (latchByte r.toNat d).toNat = 0x80 + r.toNat * 16 + d.toNat := by
    rw [latchByte, BitVec.toNat_ofNat]
    omega
  rw [decodeByte, hb, if_pos (by omega)]
  have e1 : bitsAt (latchByte r.toNat d) 4 3 = r := by
    apply BitVec.eq_of_toNat_eq
    rw [bitsAt_toNat, hb]
    omega
  have e2 : bitsAt (latchByte r.toNat d) 0 4 = d := by
    apply BitVec.eq_of_toNat_eq
    rw [bitsAt_toNat, hb]
    omega
  rw [e1, e2]

/-- A DATA byte is the data form of the latch (30_encoding.md R104, R106). -/
theorem decodeByte_dataByte (latch : BitVec 3) (d : BitVec 6) :
    decodeByte latch (dataByte d) = decodeDataByte latch d := by
  have h2 := d.isLt
  have hb : (dataByte d).toNat = d.toNat := by
    rw [dataByte, BitVec.toNat_ofNat]
    omega
  rw [decodeByte, hb, if_neg (by omega)]
  have e2 : bitsAt (dataByte d) 0 6 = d := by
    apply BitVec.eq_of_toNat_eq
    rw [bitsAt_toNat, hb]
    omega
  rw [e2]

end Sys2Proof
end

