-- ==== Sys2Proof/Laws/Exec.lean ====
section
/-! SUPPORT. What `exec` calls for each instruction, true by `rfl`, and the shape of the byte forms. -/

namespace Sys2Proof.Machine

@[simp] theorem exec_dbCfg (n d r : BitVec 32) (s : State) :
    exec (.dbCfg n d r) s = execDbCfg n d r s := rfl
@[simp] theorem exec_dbClr (s : State) :
    exec .dbClr s = execDbClr s := rfl
@[simp] theorem exec_dbAdd (t : Time) (dl dr : Amp) (s : State) :
    exec (.dbAdd t dl dr) s = execDbAdd t dl dr s := rfl
@[simp] theorem exec_dbAddf (t : Time) (dl dr : Amp) (s : State) :
    exec (.dbAddf t dl dr) s = execDbAddf t dl dr s := rfl
@[simp] theorem exec_dbEnd (k : Time) (s : State) :
    exec (.dbEnd k) s = execDbEnd k s := rfl
@[simp] theorem exec_dbRd (n : BitVec 32) (s : State) :
    exec (.dbRd n) s = execDbRd n s := rfl
@[simp] theorem exec_psgRst (s : State) :
    exec .psgRst s = execPsgRst s := rfl
@[simp] theorem exec_psgWr (t : Time) (b : BitVec 8) (s : State) :
    exec (.psgWr t b) s = execPsgWr t b s := rfl
@[simp] theorem exec_psgRen (n : BitVec 32) (s : State) :
    exec (.psgRen n) s = execPsgRen n s := rfl
@[simp] theorem exec_psgRate (r : BitVec 32) (s : State) :
    exec (.psgRate r) s = execPsgRate r s := rfl
@[simp] theorem exec_psgChip (c : ChipType) (s : State) :
    exec (.psgChip c) s = execPsgChip c s := rfl
@[simp] theorem exec_psgHq (x : Bool) (s : State) :
    exec (.psgHq x) s = execPsgHq x s := rfl
@[simp] theorem exec_psgMute (ch : BitVec 32) (x : Bool) (s : State) :
    exec (.psgMute ch x) s = execPsgMute ch x s := rfl
@[simp] theorem exec_rsCfg (a b : BitVec 32) (s : State) :
    exec (.rsCfg a b) s = execRsCfg a b s := rfl
@[simp] theorem exec_rsPush (l r : Sample) (s : State) :
    exec (.rsPush l r) s = execRsPush l r s := rfl
@[simp] theorem exec_rsHas (s : State) :
    exec .rsHas s = execRsHas s := rfl
@[simp] theorem exec_rsPop (s : State) :
    exec .rsPop s = execRsPop s := rfl
@[simp] theorem exec_rsRen (n : BitVec 32) (s : State) :
    exec (.rsRen n) s = execRsRen n s := rfl
@[simp] theorem exec_latch0 (d : BitVec 4) (s : State) :
    exec (.latch0 d) s = execLatch0 d s := rfl
@[simp] theorem exec_latch1 (d : BitVec 4) (s : State) :
    exec (.latch1 d) s = execLatch1 d s := rfl
@[simp] theorem exec_latch2 (d : BitVec 4) (s : State) :
    exec (.latch2 d) s = execLatch2 d s := rfl
@[simp] theorem exec_latch3 (d : BitVec 4) (s : State) :
    exec (.latch3 d) s = execLatch3 d s := rfl
@[simp] theorem exec_latch4 (d : BitVec 4) (s : State) :
    exec (.latch4 d) s = execLatch4 d s := rfl
@[simp] theorem exec_latch5 (d : BitVec 4) (s : State) :
    exec (.latch5 d) s = execLatch5 d s := rfl
@[simp] theorem exec_latch6 (d : BitVec 4) (s : State) :
    exec (.latch6 d) s = execLatch6 d s := rfl
@[simp] theorem exec_latch7 (d : BitVec 4) (s : State) :
    exec (.latch7 d) s = execLatch7 d s := rfl
@[simp] theorem exec_data0 (d : BitVec 6) (s : State) :
    exec (.data0 d) s = execData0 d s := rfl
@[simp] theorem exec_data1 (d : BitVec 6) (s : State) :
    exec (.data1 d) s = execData1 d s := rfl
@[simp] theorem exec_data2 (d : BitVec 6) (s : State) :
    exec (.data2 d) s = execData2 d s := rfl
@[simp] theorem exec_data3 (d : BitVec 6) (s : State) :
    exec (.data3 d) s = execData3 d s := rfl
@[simp] theorem exec_data4 (d : BitVec 6) (s : State) :
    exec (.data4 d) s = execData4 d s := rfl
@[simp] theorem exec_data5 (d : BitVec 6) (s : State) :
    exec (.data5 d) s = execData5 d s := rfl
@[simp] theorem exec_data6 (d : BitVec 6) (s : State) :
    exec (.data6 d) s = execData6 d s := rfl
@[simp] theorem exec_data7 (d : BitVec 6) (s : State) :
    exec (.data7 d) s = execData7 d s := rfl

/-- `PSG.WR` is `sync` and then the form of the byte (41_psg_write.md R160). The form is chosen by the latch, which
`sync` leaves. -/
theorem execPsgWr_eq (t : Time) (b : BitVec 8) (s : State) :
    execPsgWr t b s = completeWithin (writeByte b (sync s t.toInt)) 0 := rfl

end Sys2Proof.Machine
end

