-- ==== Sys2Proof/Laws/Memory.lean ====
section
/-! SUPPORT. The laws of the element-addressed memories: the canonical form is kept by every memory operation
(write, block move), what a read gives after each, and that memories in canonical form with equal reads are equal. -/

namespace Sys2Proof.Machine

variable {w : Nat}

@[simp] theorem Memory.read_nil (i : Nat) : Memory.read ([] : Memory w) i = 0 := rfl

theorem Memory.read_cons (a : Nat) (v : BitVec w) (m : Memory w) (i : Nat) :
    Memory.read ((a, v) :: m) i = if i = a then v else Memory.read m i := rfl

@[simp] theorem Memory.wfFrom_nil (lo : Nat) : Memory.wfFrom lo ([] : Memory w) = true := rfl

theorem Memory.wfFrom_cons {lo a : Nat} {v : BitVec w} {m : Memory w} :
    Memory.wfFrom lo ((a, v) :: m) = true ↔ lo ≤ a ∧ v ≠ 0 ∧ Memory.wfFrom (a + 1) m = true := by
  simp [Memory.wfFrom, and_assoc]

theorem Memory.wfFrom_mono {lo lo' : Nat} {m : Memory w} (hl : lo' ≤ lo) (h : m.wfFrom lo = true) :
    m.wfFrom lo' = true := by
  cases m with
  | nil => rfl
  | cons p m =>
    obtain ⟨a, v⟩ := p
    rw [Memory.wfFrom_cons] at h ⊢
    exact ⟨hl.trans h.1, h.2⟩

@[simp] theorem Memory.wf_nil : Memory.wf ([] : Memory w) = true := rfl

/-- Below its first index a canonical memory reads 0. -/
theorem Memory.read_eq_zero_of_lt {lo : Nat} {m : Memory w} (h : m.wfFrom lo = true) {i : Nat} (hi : i < lo) :
    m.read i = 0 := by
  induction m generalizing lo with
  | nil => rfl
  | cons p m ih =>
    obtain ⟨a, v⟩ := p
    rw [Memory.wfFrom_cons] at h
    rw [Memory.read_cons, if_neg (by omega)]
    exact ih h.2.2 (by omega)

theorem Memory.write_nil (i : Nat) (v : BitVec w) :
    Memory.write ([] : Memory w) i v = if v = 0 then [] else [(i, v)] := rfl

theorem Memory.write_cons_lt {i a : Nat} (h : i < a) (x v : BitVec w) (m : Memory w) :
    Memory.write ((a, x) :: m) i v = if v = 0 then (a, x) :: m else (i, v) :: (a, x) :: m := by
  rw [Memory.write, if_pos h]

theorem Memory.write_cons_eq (a : Nat) (x v : BitVec w) (m : Memory w) :
    Memory.write ((a, x) :: m) a v = if v = 0 then m else (a, v) :: m := by
  rw [Memory.write, if_neg (Nat.lt_irrefl a), if_pos rfl]

theorem Memory.write_cons_gt {i a : Nat} (h : a < i) (x v : BitVec w) (m : Memory w) :
    Memory.write ((a, x) :: m) i v = (a, x) :: Memory.write m i v := by
  rw [Memory.write, if_neg (by omega), if_neg (by omega)]

theorem Memory.wfFrom_write {lo : Nat} {m : Memory w} (h : m.wfFrom lo = true) {i : Nat} (hi : lo ≤ i)
    (v : BitVec w) : (m.write i v).wfFrom lo = true := by
  induction m generalizing lo with
  | nil =>
    rw [Memory.write_nil]
    split
    · rfl
    · next hv => exact Memory.wfFrom_cons.mpr ⟨hi, hv, rfl⟩
  | cons p m ih =>
    obtain ⟨a, x⟩ := p
    have hc := Memory.wfFrom_cons.mp h
    rcases Nat.lt_trichotomy i a with hl | he | hg
    · rw [Memory.write_cons_lt hl]
      split
      · exact h
      · next hv => exact Memory.wfFrom_cons.mpr ⟨hi, hv, Memory.wfFrom_cons.mpr ⟨hl, hc.2⟩⟩
    · subst he
      rw [Memory.write_cons_eq]
      split
      · exact Memory.wfFrom_mono (by omega) hc.2.2
      · next hv => exact Memory.wfFrom_cons.mpr ⟨hi, hv, hc.2.2⟩
    · rw [Memory.write_cons_gt hg]
      exact Memory.wfFrom_cons.mpr ⟨hc.1, hc.2.1, ih hc.2.2 hg⟩

/-- A write keeps the canonical form. -/
theorem Memory.wf_write {m : Memory w} (h : m.wf = true) (i : Nat) (v : BitVec w) : (m.write i v).wf = true :=
  Memory.wfFrom_write h (Nat.zero_le i) v

theorem Memory.read_write_from {lo : Nat} {m : Memory w} (h : m.wfFrom lo = true) (i : Nat) (v : BitVec w)
    (j : Nat) : (m.write i v).read j = if j = i then v else m.read j := by
  induction m generalizing lo with
  | nil =>
    rw [Memory.write_nil]
    split
    · next hv => split <;> [exact hv.symm; rfl]
    · rfl
  | cons p m ih =>
    obtain ⟨a, x⟩ := p
    have hc := Memory.wfFrom_cons.mp h
    have hz : ∀ k, k ≤ a → Memory.read m k = 0 := fun k hk => Memory.read_eq_zero_of_lt hc.2.2 (by omega)
    rcases Nat.lt_trichotomy i a with hl | he | hg
    · rw [Memory.write_cons_lt hl]
      split
      · next hv =>
        split
        · next hj => rw [Memory.read_cons, if_neg (by omega), hz j (by omega), hv]
        · rfl
      · rfl
    · subst he
      rw [Memory.write_cons_eq, Memory.read_cons]
      split
      · next hv =>
        split
        · next hj => rw [hz j (by omega), hv]
        · rfl
      · rw [Memory.read_cons]
        split <;> rfl
    · rw [Memory.write_cons_gt hg, Memory.read_cons, Memory.read_cons, ih hc.2.2]
      by_cases hj : j = a
      · rw [if_pos hj, if_neg (by omega), if_pos hj]
      · rw [if_neg hj, if_neg hj]

/-- A read after a write: the written element reads the value written, every other element reads as before. -/
theorem Memory.read_write {m : Memory w} (h : m.wf = true) (i : Nat) (v : BitVec w) (j : Nat) :
    (m.write i v).read j = if j = i then v else m.read j :=
  Memory.read_write_from h i v j

theorem Memory.read_write_same {m : Memory w} (h : m.wf = true) (i : Nat) (v : BitVec w) :
    (m.write i v).read i = v := by
  rw [Memory.read_write h, if_pos rfl]

theorem Memory.read_write_other {m : Memory w} (h : m.wf = true) {i j : Nat} (hj : j ≠ i) (v : BitVec w) :
    (m.write i v).read j = m.read j := by
  rw [Memory.read_write h, if_neg hj]

theorem Memory.ext_from {lo : Nat} {m m' : Memory w} (h : m.wfFrom lo = true) (h' : m'.wfFrom lo = true)
    (hr : ∀ i, m.read i = m'.read i) : m = m' := by
  induction m generalizing lo m' with
  | nil =>
    cases m' with
    | nil => rfl
    | cons p m' =>
      obtain ⟨a, v⟩ := p
      have hc := Memory.wfFrom_cons.mp h'
      have h0 := hr a
      rw [Memory.read_cons, if_pos rfl] at h0
      exact absurd h0.symm hc.2.1
  | cons p m ih =>
    obtain ⟨a, v⟩ := p
    have hc := Memory.wfFrom_cons.mp h
    cases m' with
    | nil =>
      have h0 := hr a
      rw [Memory.read_cons, if_pos rfl] at h0
      exact absurd h0 hc.2.1
    | cons p' m' =>
      obtain ⟨a', v'⟩ := p'
      have hc' := Memory.wfFrom_cons.mp h'
      have haa : a = a' := by
        have h1 := hr a
        have h2 := hr a'
        rw [Memory.read_cons, Memory.read_cons] at h1 h2
        rcases Nat.lt_trichotomy a a' with hl | he | hl
        · rw [if_pos rfl, if_neg (by omega), Memory.read_eq_zero_of_lt hc'.2.2 (by omega)] at h1
          exact absurd h1 hc.2.1
        · exact he
        · rw [if_pos rfl, if_neg (by omega), Memory.read_eq_zero_of_lt hc.2.2 (by omega)] at h2
          exact absurd h2.symm hc'.2.1
      subst haa
      have hv : v = v' := by
        have h1 := hr a
        rwa [Memory.read_cons, Memory.read_cons, if_pos rfl, if_pos rfl] at h1
      subst hv
      refine congrArg _ (ih hc.2.2 hc'.2.2 fun i => ?_)
      by_cases hi : i = a
      · subst hi
        rw [Memory.read_eq_zero_of_lt hc.2.2 (by omega), Memory.read_eq_zero_of_lt hc'.2.2 (by omega)]
      · have h1 := hr i
        rwa [Memory.read_cons, Memory.read_cons, if_neg hi, if_neg hi] at h1

/-- Equal memories are equal data: canonical memories with equal reads are equal. -/
theorem Memory.ext_read {m m' : Memory w} (h : m.wf = true) (h' : m'.wf = true)
    (hr : ∀ i, m.read i = m'.read i) : m = m' :=
  Memory.ext_from h h' hr

theorem Memory.write_comm {m : Memory w} (h : m.wf = true) {i j : Nat} (hij : i ≠ j) (x y : BitVec w) :
    (m.write i x).write j y = (m.write j y).write i x := by
  refine Memory.ext_read (Memory.wf_write (Memory.wf_write h _ _) _ _)
    (Memory.wf_write (Memory.wf_write h _ _) _ _) fun k => ?_
  rw [Memory.read_write (Memory.wf_write h _ _), Memory.read_write h, Memory.read_write (Memory.wf_write h _ _),
    Memory.read_write h]
  by_cases h1 : k = i
  · simp [h1, hij]
  · simp [h1]

theorem Memory.write_write {m : Memory w} (h : m.wf = true) (i : Nat) (x y : BitVec w) :
    (m.write i x).write i y = m.write i y := by
  refine Memory.ext_read (Memory.wf_write (Memory.wf_write h _ _) _ _) (Memory.wf_write h _ _) fun k => ?_
  rw [Memory.read_write (Memory.wf_write h _ _), Memory.read_write h, Memory.read_write h]
  split <;> rfl

theorem Memory.write_read_self {m : Memory w} (h : m.wf = true) (i : Nat) : m.write i (m.read i) = m := by
  refine Memory.ext_read (Memory.wf_write h _ _) h fun k => ?_
  rw [Memory.read_write h]
  split
  · subst k; rfl
  · rfl

theorem Memory.write_zero_nil (i : Nat) : Memory.write ([] : Memory w) i 0 = [] := by
  simp [Memory.write]

theorem Memory.shiftDown_spec {lo n : Nat} {m : Memory w} (h : m.wfFrom lo = true) :
    (m.shiftDown n).wfFrom (lo - n) = true ∧ ∀ j, lo ≤ j + n → (m.shiftDown n).read j = m.read (j + n) := by
  induction m generalizing lo with
  | nil => exact ⟨rfl, fun _ _ => rfl⟩
  | cons p m ih =>
    obtain ⟨a, v⟩ := p
    have hc := Memory.wfFrom_cons.mp h
    obtain ⟨i1, i2⟩ := ih hc.2.2
    by_cases han : a < n
    · simp only [Memory.shiftDown, han, if_true]
      refine ⟨Memory.wfFrom_mono (by omega) i1, fun j hj => ?_⟩
      rw [Memory.read_cons, if_neg (by omega)]
      exact i2 j (by omega)
    · simp only [Memory.shiftDown, han, if_false]
      refine ⟨Memory.wfFrom_cons.mpr ⟨by omega, hc.2.1, ?_⟩, fun j hj => ?_⟩
      · exact Memory.wfFrom_mono (by omega) i1
      · rw [Memory.read_cons, Memory.read_cons]
        by_cases hja : j = a - n
        · rw [if_pos hja, if_pos (by omega)]
        · rw [if_neg hja, if_neg (by omega)]
          rcases Nat.lt_or_ge (j + n) (a + 1) with hl | hg
          · rw [Memory.read_eq_zero_of_lt i1 (by omega), Memory.read_eq_zero_of_lt hc.2.2 hl]
          · exact i2 j hg

/-- The block move keeps the canonical form. -/
theorem Memory.wf_shiftDown {m : Memory w} (h : m.wf = true) (n : Nat) : (m.shiftDown n).wf = true :=
  Memory.wfFrom_mono (Nat.zero_le _) (Memory.shiftDown_spec (n := n) h).1

/-- After the block move element j reads as element j + n did. -/
theorem Memory.read_shiftDown {m : Memory w} (h : m.wf = true) (n j : Nat) :
    (m.shiftDown n).read j = m.read (j + n) :=
  (Memory.shiftDown_spec (n := n) h).2 j (Nat.zero_le _)

@[simp] theorem Memory.total_nil : Memory.total ([] : Memory 32) = 0 := rfl

theorem Memory.total_cons (a : Nat) (v : BitVec 32) (m : Memory 32) :
    Memory.total ((a, v) :: m) = v + m.total := rfl

theorem Memory.total_write_from {lo : Nat} {m : Memory 32} (h : m.wfFrom lo = true) (i : Nat) (v : BitVec 32) :
    Memory.total (m.write i v) = Memory.total m - m.read i + v := by
  induction m generalizing lo with
  | nil =>
    rw [Memory.write_nil, Memory.total_nil, Memory.read_nil]
    split
    · next hv => rw [hv]; rfl
    · rw [Memory.total_cons, Memory.total_nil]
      ring
  | cons p m ih =>
    obtain ⟨a, x⟩ := p
    have hc := Memory.wfFrom_cons.mp h
    rcases Nat.lt_trichotomy i a with hl | he | hg
    · have hr : Memory.read ((a, x) :: m) i = 0 := by
        rw [Memory.read_cons, if_neg (by omega), Memory.read_eq_zero_of_lt hc.2.2 (by omega)]
      rw [Memory.write_cons_lt hl, hr]
      split
      · next hv => rw [hv]; ring
      · rw [Memory.total_cons]; ring
    · subst he
      rw [Memory.write_cons_eq, Memory.read_cons, if_pos rfl, Memory.total_cons]
      split
      · next hv => rw [hv]; ring
      · rw [Memory.total_cons]; ring
    · rw [Memory.write_cons_gt hg, Memory.read_cons, if_neg (by omega), Memory.total_cons, Memory.total_cons, ih hc.2.2]
      ring

/-- A write moves the sum of all slots by the change of the slot written. -/
theorem Memory.total_write {m : Memory 32} (h : m.wf = true) (i : Nat) (v : BitVec 32) :
    (m.write i v).total = m.total - m.read i + v :=
  Memory.total_write_from h i v

/-- The reset state's memories are in canonical form. -/
theorem State.reset_memories_wf :
    pairWf State.reset.dbuf.buf ∧ pairWf State.reset.rs.hist ∧ pairWf State.reset.host.out :=
  ⟨fun x => by cases x <;> rfl, fun x => by cases x <;> rfl, fun x => by cases x <;> rfl⟩

end Sys2Proof.Machine
end

