-- ==== Sys2Proof/Laws/State.lean ====
section
/-! SUPPORT. One lemma per field per update of State and of the register arrays, true by `rfl`, so that no later
proof unfolds a record update. -/

namespace Sys2Proof

@[simp] theorem Quad.set_c0_q0 {α : Type} (q : Quad α) (x : α) : (q.set .c0 x).q0 = x := rfl
@[simp] theorem Quad.set_c0_q1 {α : Type} (q : Quad α) (x : α) : (q.set .c0 x).q1 = q.q1 := rfl
@[simp] theorem Quad.set_c0_q2 {α : Type} (q : Quad α) (x : α) : (q.set .c0 x).q2 = q.q2 := rfl
@[simp] theorem Quad.set_c0_q3 {α : Type} (q : Quad α) (x : α) : (q.set .c0 x).q3 = q.q3 := rfl
@[simp] theorem Quad.set_c1_q0 {α : Type} (q : Quad α) (x : α) : (q.set .c1 x).q0 = q.q0 := rfl
@[simp] theorem Quad.set_c1_q1 {α : Type} (q : Quad α) (x : α) : (q.set .c1 x).q1 = x := rfl
@[simp] theorem Quad.set_c1_q2 {α : Type} (q : Quad α) (x : α) : (q.set .c1 x).q2 = q.q2 := rfl
@[simp] theorem Quad.set_c1_q3 {α : Type} (q : Quad α) (x : α) : (q.set .c1 x).q3 = q.q3 := rfl
@[simp] theorem Quad.set_c2_q0 {α : Type} (q : Quad α) (x : α) : (q.set .c2 x).q0 = q.q0 := rfl
@[simp] theorem Quad.set_c2_q1 {α : Type} (q : Quad α) (x : α) : (q.set .c2 x).q1 = q.q1 := rfl
@[simp] theorem Quad.set_c2_q2 {α : Type} (q : Quad α) (x : α) : (q.set .c2 x).q2 = x := rfl
@[simp] theorem Quad.set_c2_q3 {α : Type} (q : Quad α) (x : α) : (q.set .c2 x).q3 = q.q3 := rfl
@[simp] theorem Quad.set_c3_q0 {α : Type} (q : Quad α) (x : α) : (q.set .c3 x).q0 = q.q0 := rfl
@[simp] theorem Quad.set_c3_q1 {α : Type} (q : Quad α) (x : α) : (q.set .c3 x).q1 = q.q1 := rfl
@[simp] theorem Quad.set_c3_q2 {α : Type} (q : Quad α) (x : α) : (q.set .c3 x).q2 = q.q2 := rfl
@[simp] theorem Quad.set_c3_q3 {α : Type} (q : Quad α) (x : α) : (q.set .c3 x).q3 = x := rfl

@[simp] theorem Quad.get_c0 {α : Type} (q : Quad α) : q.get .c0 = q.q0 := rfl
@[simp] theorem Quad.get_c1 {α : Type} (q : Quad α) : q.get .c1 = q.q1 := rfl
@[simp] theorem Quad.get_c2 {α : Type} (q : Quad α) : q.get .c2 = q.q2 := rfl
@[simp] theorem Quad.get_c3 {α : Type} (q : Quad α) : q.get .c3 = q.q3 := rfl

@[simp] theorem Quad.get_set_same {α : Type} (q : Quad α) (c : Chan) (x : α) : (q.set c x).get c = x := by
  cases c <;> rfl

theorem Quad.get_set_other {α : Type} (q : Quad α) {c c' : Chan} (h : c' ≠ c) (x : α) :
    (q.set c x).get c' = q.get c' := by
  cases c <;> cases c' <;> first | rfl | exact absurd rfl h

theorem Quad.get_set {α : Type} (q : Quad α) (c c' : Chan) (x : α) :
    (q.set c x).get c' = if c' = c then x else q.get c' := by
  cases c <;> cases c' <;> rfl

@[simp] theorem Quad.set_get_self {α : Type} (q : Quad α) (c : Chan) : q.set c (q.get c) = q := by
  cases c <;> rfl

@[simp] theorem Quad.set_set {α : Type} (q : Quad α) (c : Chan) (x y : α) : (q.set c x).set c y = q.set c y := by
  cases c <;> rfl

@[simp] theorem Quad.get_all {α : Type} (x : α) (c : Chan) : (Quad.all x).get c = x := by
  cases c <;> rfl

theorem Quad.ext_get {α : Type} {q q' : Quad α} (h : ∀ c, q.get c = q'.get c) : q = q' := by
  obtain ⟨a0, a1, a2, a3⟩ := q
  obtain ⟨b0, b1, b2, b3⟩ := q'
  have h0 := h .c0
  have h1 := h .c1
  have h2 := h .c2
  have h3 := h .c3
  simp only [Quad.get_c0, Quad.get_c1, Quad.get_c2, Quad.get_c3] at h0 h1 h2 h3
  subst h0 h1 h2 h3
  rfl

@[simp] theorem Tone.chan_t0 : Tone.t0.chan = .c0 := rfl
@[simp] theorem Tone.chan_t1 : Tone.t1.chan = .c1 := rfl
@[simp] theorem Tone.chan_t2 : Tone.t2.chan = .c2 := rfl

end Sys2Proof

namespace Sys2Proof.Machine

/-! ### State.withDbuf -/

@[simp] theorem State.withDbuf_params (s : State) (d : Dbuf) : (s.withDbuf d).params = s.params := rfl
@[simp] theorem State.withDbuf_dbuf (s : State) (d : Dbuf) : (s.withDbuf d).dbuf = d := rfl
@[simp] theorem State.withDbuf_psg (s : State) (d : Dbuf) : (s.withDbuf d).psg = s.psg := rfl
@[simp] theorem State.withDbuf_rs (s : State) (d : Dbuf) : (s.withDbuf d).rs = s.rs := rfl
@[simp] theorem State.withDbuf_host (s : State) (d : Dbuf) : (s.withDbuf d).host = s.host := rfl
@[simp] theorem State.withDbuf_withDbuf (s : State) (d d' : Dbuf) : (s.withDbuf d).withDbuf d' = s.withDbuf d' := rfl
@[simp] theorem State.withDbuf_self (s : State) : s.withDbuf s.dbuf = s := rfl

/-! ### State.withPsg -/

@[simp] theorem State.withPsg_params (s : State) (g : Psg) : (s.withPsg g).params = s.params := rfl
@[simp] theorem State.withPsg_dbuf (s : State) (g : Psg) : (s.withPsg g).dbuf = s.dbuf := rfl
@[simp] theorem State.withPsg_psg (s : State) (g : Psg) : (s.withPsg g).psg = g := rfl
@[simp] theorem State.withPsg_rs (s : State) (g : Psg) : (s.withPsg g).rs = s.rs := rfl
@[simp] theorem State.withPsg_host (s : State) (g : Psg) : (s.withPsg g).host = s.host := rfl
@[simp] theorem State.withPsg_withPsg (s : State) (g g' : Psg) : (s.withPsg g).withPsg g' = s.withPsg g' := rfl
@[simp] theorem State.withPsg_self (s : State) : s.withPsg s.psg = s := rfl

/-! ### State.withRs -/

@[simp] theorem State.withRs_params (s : State) (r : Rs) : (s.withRs r).params = s.params := rfl
@[simp] theorem State.withRs_dbuf (s : State) (r : Rs) : (s.withRs r).dbuf = s.dbuf := rfl
@[simp] theorem State.withRs_psg (s : State) (r : Rs) : (s.withRs r).psg = s.psg := rfl
@[simp] theorem State.withRs_rs (s : State) (r : Rs) : (s.withRs r).rs = r := rfl
@[simp] theorem State.withRs_host (s : State) (r : Rs) : (s.withRs r).host = s.host := rfl
@[simp] theorem State.withRs_withRs (s : State) (r r' : Rs) : (s.withRs r).withRs r' = s.withRs r' := rfl
@[simp] theorem State.withRs_self (s : State) : s.withRs s.rs = s := rfl

/-! ### State.withHost -/

@[simp] theorem State.withHost_params (s : State) (h : HostSide) : (s.withHost h).params = s.params := rfl
@[simp] theorem State.withHost_dbuf (s : State) (h : HostSide) : (s.withHost h).dbuf = s.dbuf := rfl
@[simp] theorem State.withHost_psg (s : State) (h : HostSide) : (s.withHost h).psg = s.psg := rfl
@[simp] theorem State.withHost_rs (s : State) (h : HostSide) : (s.withHost h).rs = s.rs := rfl
@[simp] theorem State.withHost_host (s : State) (h : HostSide) : (s.withHost h).host = h := rfl
@[simp] theorem State.withHost_withHost (s : State) (h h' : HostSide) : (s.withHost h).withHost h' = s.withHost h' := rfl
@[simp] theorem State.withHost_self (s : State) : s.withHost s.host = s := rfl

/-! ### State.withOut -/

@[simp] theorem State.withOut_params (s : State) (o : Stereo (Memory 32)) : (s.withOut o).params = s.params := rfl
@[simp] theorem State.withOut_dbuf (s : State) (o : Stereo (Memory 32)) : (s.withOut o).dbuf = s.dbuf := rfl
@[simp] theorem State.withOut_psg (s : State) (o : Stereo (Memory 32)) : (s.withOut o).psg = s.psg := rfl
@[simp] theorem State.withOut_rs (s : State) (o : Stereo (Memory 32)) : (s.withOut o).rs = s.rs := rfl
@[simp] theorem State.withOut_host_events (s : State) (o : Stereo (Memory 32)) : (s.withOut o).host.events = s.host.events := rfl
@[simp] theorem State.withOut_host_out (s : State) (o : Stereo (Memory 32)) : (s.withOut o).host.out = o := rfl
@[simp] theorem State.withOut_host_answers (s : State) (o : Stereo (Memory 32)) : (s.withOut o).host.answers = s.host.answers := rfl
@[simp] theorem State.withOut_host_pulled (s : State) (o : Stereo (Memory 32)) : (s.withOut o).host.pulled = s.host.pulled := rfl
@[simp] theorem State.withOut_host_rsp (s : State) (o : Stereo (Memory 32)) : (s.withOut o).host.rsp = s.host.rsp := rfl

/-! ### State.respond -/

@[simp] theorem State.respond_params (s : State) (r : BitVec 64) : (s.respond r).params = s.params := rfl
@[simp] theorem State.respond_dbuf (s : State) (r : BitVec 64) : (s.respond r).dbuf = s.dbuf := rfl
@[simp] theorem State.respond_psg (s : State) (r : BitVec 64) : (s.respond r).psg = s.psg := rfl
@[simp] theorem State.respond_rs (s : State) (r : BitVec 64) : (s.respond r).rs = s.rs := rfl
@[simp] theorem State.respond_host_events (s : State) (r : BitVec 64) : (s.respond r).host.events = s.host.events := rfl
@[simp] theorem State.respond_host_out (s : State) (r : BitVec 64) : (s.respond r).host.out = s.host.out := rfl
@[simp] theorem State.respond_host_answers (s : State) (r : BitVec 64) : (s.respond r).host.answers = s.host.answers := rfl
@[simp] theorem State.respond_host_pulled (s : State) (r : BitVec 64) : (s.respond r).host.pulled = s.host.pulled := rfl
@[simp] theorem State.respond_host_rsp (s : State) (r : BitVec 64) : (s.respond r).host.rsp = r := rfl

@[simp] theorem State.respond_respond (s : State) (r r' : BitVec 64) : (s.respond r).respond r' = s.respond r' := rfl
@[simp] theorem State.respond_withDbuf (s : State) (r : BitVec 64) (d : Dbuf) :
    (s.respond r).withDbuf d = (s.withDbuf d).respond r := rfl
@[simp] theorem State.respond_withPsg (s : State) (r : BitVec 64) (g : Psg) :
    (s.respond r).withPsg g = (s.withPsg g).respond r := rfl
@[simp] theorem State.respond_withRs (s : State) (r : BitVec 64) (x : Rs) :
    (s.respond r).withRs x = (s.withRs x).respond r := rfl

/-- The updates of different components commute. -/
theorem State.withPsg_withDbuf (s : State) (g : Psg) (d : Dbuf) :
    (s.withPsg g).withDbuf d = (s.withDbuf d).withPsg g := rfl
theorem State.withRs_withDbuf (s : State) (r : Rs) (d : Dbuf) :
    (s.withRs r).withDbuf d = (s.withDbuf d).withRs r := rfl
theorem State.withRs_withPsg (s : State) (r : Rs) (g : Psg) :
    (s.withRs r).withPsg g = (s.withPsg g).withRs r := rfl
theorem State.withHost_withRs (s : State) (h : HostSide) (r : Rs) :
    (s.withHost h).withRs r = (s.withRs r).withHost h := rfl

/-! ### Registers -/

theorem Regs.att_setAtt (r : Regs) (v : BitVec 4) (c c' : Chan) :
    (r.setAtt v c).att c' = if c' = c then v else r.att c' := by
  cases c <;> cases c' <;> rfl

@[simp] theorem Regs.att_setAtt_same (r : Regs) (v : BitVec 4) (c : Chan) : (r.setAtt v c).att c = v := by
  cases c <;> rfl

@[simp] theorem Regs.period_setAtt (r : Regs) (v : BitVec 4) (c : Chan) (t : Tone) :
    (r.setAtt v c).period t = r.period t := by
  cases c <;> cases t <;> rfl

@[simp] theorem Regs.noiseCtrl_setAtt (r : Regs) (v : BitVec 4) (c : Chan) :
    (r.setAtt v c).noiseCtrl = r.noiseCtrl := by
  cases c <;> rfl

theorem Regs.period_setPeriod (r : Regs) (v : BitVec 10) (t t' : Tone) :
    (r.setPeriod v t).period t' = if t' = t then v else r.period t' := by
  cases t <;> cases t' <;> rfl

@[simp] theorem Regs.period_setPeriod_same (r : Regs) (v : BitVec 10) (t : Tone) :
    (r.setPeriod v t).period t = v := by
  cases t <;> rfl

@[simp] theorem Regs.att_setPeriod (r : Regs) (v : BitVec 10) (t : Tone) (c : Chan) :
    (r.setPeriod v t).att c = r.att c := by
  cases t <;> cases c <;> rfl

@[simp] theorem Regs.noiseCtrl_setPeriod (r : Regs) (v : BitVec 10) (t : Tone) :
    (r.setPeriod v t).noiseCtrl = r.noiseCtrl := by
  cases t <;> rfl

/-! ### Power-on -/

@[simp] theorem State.powerOn_params (p : Params) : (State.powerOn p).params = p := rfl
@[simp] theorem State.powerOn_dbuf (p : Params) : (State.powerOn p).dbuf = Dbuf.powerOn p := rfl
@[simp] theorem State.powerOn_psg (p : Params) : (State.powerOn p).psg = Psg.powerOn p := rfl
@[simp] theorem State.powerOn_rs (p : Params) : (State.powerOn p).rs = Rs.powerOn := rfl
@[simp] theorem State.powerOn_host (p : Params) : (State.powerOn p).host = HostSide.idle := rfl

end Sys2Proof.Machine
end

