-- ==== Sys2Proof/Laws/Ops.lean ====
section
/-! SUPPORT. For each shared operation, once, what it can do: the slots a delta changes, the frame of every operation
that only emits, the loops of the channels, of `DB.RD` and of `RS.REN`. Later proofs cite these and unfold no
operation. -/

namespace Sys2Proof.Machine

/-! ### Wrapping arithmetic -/

@[simp] theorem s32_toInt (v : Amp) : s32 v.toInt = v := BitVec.ofInt_toInt
@[simp] theorem s64_toInt (v : Time) : s64 v.toInt = v := BitVec.ofInt_toInt
theorem s32_add (a b : Int) : s32 (a + b) = s32 a + s32 b := BitVec.ofInt_add a b
theorem s64_add (a b : Int) : s64 (a + b) = s64 a + s64 b := BitVec.ofInt_add a b
theorem s32_mul (a b : Int) : s32 (a * b) = s32 a * s32 b := BitVec.ofInt_mul a b
theorem s64_mul (a b : Int) : s64 (a * b) = s64 a * s64 b := BitVec.ofInt_mul a b
@[simp] theorem s32_zero : s32 0 = 0 := rfl
@[simp] theorem s64_zero : s64 0 = 0 := rfl
theorem s32_neg (a : Int) : s32 (-a) = -s32 a := BitVec.ofInt_neg
theorem s64_neg (a : Int) : s64 (-a) = -s64 a := BitVec.ofInt_neg
theorem s32_sub (a b : Int) : s32 (a - b) = s32 a - s32 b := by
  rw [sub_eq_add_neg, s32_add, s32_neg, BitVec.sub_eq_add_neg]
theorem s64_sub (a b : Int) : s64 (a - b) = s64 a - s64 b := by
  rw [sub_eq_add_neg, s64_add, s64_neg, BitVec.sub_eq_add_neg]
theorem s32_natCast (n : Nat) : s32 (n : Int) = BitVec.ofNat 32 n := BitVec.ofInt_natCast 32 n
theorem s64_natCast (n : Nat) : s64 (n : Int) = BitVec.ofNat 64 n := BitVec.ofInt_natCast 64 n

/-! ### Slots -/

theorem addSlot_eq (m : Memory 32) (i : Nat) (v : Int) : addSlot m i v = m.write i (m.read i + s32 v) := by
  rw [addSlot, s32_add, s32_toInt]

theorem addSlot_wf {m : Memory 32} (h : m.wf = true) (i : Nat) (v : Int) : (addSlot m i v).wf = true :=
  Memory.wf_write h _ _

theorem addSlot_read {m : Memory 32} (h : m.wf = true) (i : Nat) (v : Int) (j : Nat) :
    (addSlot m i v).read j = m.read j + (if i = j then s32 v else 0) := by
  rw [addSlot_eq, Memory.read_write h]
  by_cases hj : j = i
  · subst hj; simp
  · rw [if_neg hj, if_neg (Ne.symm hj)]; simp

theorem addSlot_total {m : Memory 32} (h : m.wf = true) (i : Nat) (v : Int) :
    Memory.total (addSlot m i v) = Memory.total m + s32 v := by
  rw [addSlot_eq, Memory.total_write h]
  ring

/-- Slot additions commute (40_delta_buffer.md R144). -/
theorem addSlot_comm {m : Memory 32} (h : m.wf = true) (i j : Nat) (v x : Int) :
    addSlot (addSlot m i v) j x = addSlot (addSlot m j x) i v := by
  refine Memory.ext_read (addSlot_wf (addSlot_wf h _ _) _ _) (addSlot_wf (addSlot_wf h _ _) _ _) fun k => ?_
  rw [addSlot_read (addSlot_wf h _ _), addSlot_read h, addSlot_read (addSlot_wf h _ _), addSlot_read h]
  ring

/-- A list of slot additions, one after the other. -/
def addAll (l : List (Nat × Int)) (m : Memory 32) : Memory 32 := l.foldl (fun m p => addSlot m p.1 p.2) m

@[simp] theorem addAll_nil (m : Memory 32) : addAll [] m = m := rfl
theorem addAll_cons (p : Nat × Int) (l : List (Nat × Int)) (m : Memory 32) :
    addAll (p :: l) m = addAll l (addSlot m p.1 p.2) := rfl

theorem addAll_wf (l : List (Nat × Int)) {m : Memory 32} (h : m.wf = true) : (addAll l m).wf = true := by
  induction l generalizing m with
  | nil => exact h
  | cons p l ih => exact ih (addSlot_wf h _ _)

/-- After a list of slot additions, slot `j` has gained the sum of what the list adds to it. -/
theorem addAll_read (l : List (Nat × Int)) {m : Memory 32} (h : m.wf = true) (j : Nat) :
    (addAll l m).read j = m.read j + s32 ((l.map fun p => if p.1 = j then p.2 else 0).sum) := by
  induction l generalizing m with
  | nil => simp
  | cons p l ih =>
    rw [addAll_cons, ih (addSlot_wf h _ _), addSlot_read h, List.map_cons, List.sum_cons, s32_add]
    split
    · ring
    · rw [s32_zero]; ring

theorem addAll_total (l : List (Nat × Int)) {m : Memory 32} (h : m.wf = true) :
    Memory.total (addAll l m) = Memory.total m + s32 ((l.map Prod.snd).sum) := by
  induction l generalizing m with
  | nil => simp
  | cons p l ih =>
    rw [addAll_cons, ih (addSlot_wf h _ _), addSlot_total h, List.map_cons, List.sum_cons, s32_add]
    ring

/-- The 16 slot additions of one lane of `DB.ADD` (40_delta_buffer.md R133). -/
def tapList (kernel : List (List Int)) (f : Nat) (d : Int) : List (Nat × Int) :=
  [0, 1, 2, 3, 4, 5, 6, 7].flatMap fun k =>
    [(slotIndex f + k,
        tableAt kernel (phaseOf f) k * (d - tdiv (d * interpOf f) 32768) +
        tableAt kernel (phaseOf f + 1) k * tdiv (d * interpOf f) 32768),
     (slotIndex f + 8 + k,
        tableAt kernel (32 - phaseOf f) (7 - k) * (d - tdiv (d * interpOf f) 32768) +
        tableAt kernel (31 - phaseOf f) (7 - k) * tdiv (d * interpOf f) 32768)]

theorem addTaps_eq (kernel : List (List Int)) (f : Nat) (d : Int) (m : Memory 32) :
    addTaps kernel f d m = addAll (tapList kernel f d) m := by
  simp only [addTaps, addTapPair, addAll, tapList, List.flatMap_cons, List.flatMap_nil, List.cons_append,
    List.nil_append, List.append_nil, List.foldl_cons, List.foldl_nil]

/-- One lane of `DB.ADD`: every slot gains its tap, and the memory keeps its form. -/
theorem addTaps_spec (kernel : List (List Int)) (f : Nat) (d : Int) {m : Memory 32} (h : m.wf = true) :
    (addTaps kernel f d m).wf = true ∧
    (∀ j, j < slotIndex f ∨ slotIndex f + 16 ≤ j → (addTaps kernel f d m).read j = m.read j) ∧
    Memory.total (addTaps kernel f d m) = Memory.total m + s32 (((tapList kernel f d).map Prod.snd).sum) := by
  rw [addTaps_eq]
  refine ⟨addAll_wf _ h, fun j hj => ?_, addAll_total _ h⟩
  rw [addAll_read _ h]
  have hz : ((tapList kernel f d).map fun p => if p.1 = j then p.2 else 0).sum = 0 := by
    apply List.sum_eq_zero
    intro x hx
    rw [List.mem_map] at hx
    obtain ⟨p, hp, rfl⟩ := hx
    rw [if_neg]
    rw [tapList, List.mem_flatMap] at hp
    obtain ⟨k, hk, hp⟩ := hp
    have hk8 : k < 8 := by
      simp only [List.mem_cons, List.not_mem_nil, or_false] at hk
      omega
    simp only [List.mem_cons, List.not_mem_nil, or_false] at hp
    rcases hp with rfl | rfl
    · show ¬ slotIndex f + k = j
      omega
    · show ¬ slotIndex f + 8 + k = j
      omega
  rw [hz, s32_zero]
  simp

/-- One lane of `DB.ADDF`: the two slots it adds to, and the memory keeps its form (40_delta_buffer.md R134). -/
theorem addFast_spec (f : Nat) (d : Int) {m : Memory 32} (h : m.wf = true) :
    (addFast f d m).wf = true ∧
    (∀ j, (addFast f d m).read j = m.read j + (if slotIndex f + 7 = j then s32 (d * 32768 - d * fastWeight f) else 0) +
      (if slotIndex f + 8 = j then s32 (d * fastWeight f) else 0)) ∧
    Memory.total (addFast f d m) = Memory.total m + s32 (d * 32768) := by
  refine ⟨addSlot_wf (addSlot_wf h _ _) _ _, fun j => ?_, ?_⟩
  · rw [addFast, addSlot_read (addSlot_wf h _ _), addSlot_read h]
  · rw [addFast, addSlot_total (addSlot_wf h _ _), addSlot_total h, BitVec.add_assoc, ← s32_add]
    congr 2
    ring

/-! ### `fixedTime` and `grow` -/

/-- A fixed-point position fits 63 bits (40_delta_buffer.md R130). -/
theorem fixedTime_lt (d : Dbuf) (t : Int) : fixedTime d t < 2 ^ 63 := by
  have h : (s64 (t * d.factor.toInt + d.offset.toInt)).toInt < 2 ^ 63 := BitVec.toInt_lt
  unfold fixedTime
  omega

/-- The position depends on `factor` and `offset` only. -/
theorem fixedTime_congr {d d' : Dbuf} (hf : d'.factor = d.factor) (ho : d'.offset = d.offset) (t : Int) :
    fixedTime d' t = fixedTime d t := by
  unfold fixedTime
  rw [hf, ho]

@[simp] theorem grow_buf (d : Dbuf) (n : Nat) : (grow d n).buf = d.buf := rfl
@[simp] theorem grow_integ (d : Dbuf) (n : Nat) : (grow d n).integ = d.integ := rfl
@[simp] theorem grow_factor (d : Dbuf) (n : Nat) : (grow d n).factor = d.factor := rfl
@[simp] theorem grow_offset (d : Dbuf) (n : Nat) : (grow d n).offset = d.offset := rfl
@[simp] theorem grow_clkNum (d : Dbuf) (n : Nat) : (grow d n).clkNum = d.clkNum := rfl
@[simp] theorem grow_clkDen (d : Dbuf) (n : Nat) : (grow d n).clkDen = d.clkDen := rfl
@[simp] theorem grow_rate (d : Dbuf) (n : Nat) : (grow d n).rate = d.rate := rfl
@[simp] theorem grow_peakNeed (d : Dbuf) (n : Nat) : (grow d n).peakNeed = max d.peakNeed n := rfl
theorem grow_cap (d : Dbuf) (n : Nat) :
    (grow d n).cap = if d.cap < n then max (2 * d.cap) n else d.cap := rfl

/-- `grow` never shrinks, and reaches what is needed (20_memory.md R74). -/
theorem grow_cap_ge (d : Dbuf) (n : Nat) : d.cap ≤ (grow d n).cap ∧ n ≤ (grow d n).cap := by
  rw [grow_cap]
  split <;> omega

/-! ### What only slots change -/

/-- What a delta may do to the delta buffer: it changes slots, grows `cap`, keeps the canonical form and the zero
slots beyond `cap`. -/
structure SlotChange (d d' : Dbuf) : Prop where
  only : d.OnlySlots d'
  cap_le : d.cap ≤ d'.cap
  peak_le : d.peakNeed ≤ d'.peakNeed
  wf : pairWf d.buf → pairWf d'.buf
  beyond : pairWf d.buf → (∀ (x : Lane) (j : Nat), d.cap ≤ j → (d.buf.lane x).read j = 0) →
    ∀ (x : Lane) (j : Nat), d'.cap ≤ j → (d'.buf.lane x).read j = 0

theorem Dbuf.OnlySlots.refl (d : Dbuf) : d.OnlySlots d := rfl

theorem Dbuf.OnlySlots.trans {d d' d'' : Dbuf} (h : d.OnlySlots d') (h' : d'.OnlySlots d'') : d.OnlySlots d'' := by
  unfold Dbuf.OnlySlots at h h' ⊢
  rw [h'] at *
  rw [h]

theorem SlotChange.refl (d : Dbuf) : SlotChange d d where
  only := Dbuf.OnlySlots.refl d
  cap_le := le_refl _
  peak_le := le_refl _
  wf h := h
  beyond _ h := h

theorem SlotChange.trans {d d' d'' : Dbuf} (h : SlotChange d d') (h' : SlotChange d' d'') : SlotChange d d'' where
  only := h.only.trans h'.only
  cap_le := h.cap_le.trans h'.cap_le
  peak_le := h.peak_le.trans h'.peak_le
  wf w := h'.wf (h.wf w)
  beyond w b := h'.beyond (h.wf w) (h.beyond w b)

@[simp] theorem Stereo.lane_left {α : Type} (x : Stereo α) : x.lane .left = x.l := rfl
@[simp] theorem Stereo.lane_right {α : Type} (x : Stereo α) : x.lane .right = x.r := rfl

theorem addDelta_eq (kernel : List (List Int)) (d : Dbuf) (t : Int) (x : Stereo Amp) :
    addDelta kernel d t x = { grow d (slotIndex (fixedTime d t) + 16) with
      buf := ⟨addTaps kernel (fixedTime d t) x.l.toInt d.buf.l,
        addTaps kernel (fixedTime d t) x.r.toInt d.buf.r⟩ } := rfl

theorem addDelta_lane (kernel : List (List Int)) (d : Dbuf) (t : Int) (x : Stereo Amp) (l : Lane) :
    (addDelta kernel d t x).buf.lane l = addTaps kernel (fixedTime d t) (x.lane l).toInt (d.buf.lane l) := by
  rw [addDelta_eq]
  cases l
  · simp only [Stereo.lane_left]
  · simp only [Stereo.lane_right]

theorem addDeltaFast_lane (d : Dbuf) (t : Int) (x : Stereo Amp) (l : Lane) :
    (addDeltaFast d t x).buf.lane l = addFast (fixedTime d t) (x.lane l).toInt (d.buf.lane l) := by
  unfold addDeltaFast
  cases l
  · simp only [Stereo.lane_left]
  · simp only [Stereo.lane_right]

theorem addDelta_slots (kernel : List (List Int)) (d : Dbuf) (t : Int) (x : Stereo Amp) :
    SlotChange d (addDelta kernel d t x) where
  only := by rw [addDelta_eq]; rfl
  cap_le := (grow_cap_ge d _).1
  peak_le := le_max_left _ _
  wf h l := by
    rw [addDelta_lane]
    exact (addTaps_spec kernel (fixedTime d t) (x.lane l).toInt (h l)).1
  beyond h hb l j hj := by
    have hg := grow_cap_ge d (slotIndex (fixedTime d t) + 16)
    have hj' : (grow d (slotIndex (fixedTime d t) + 16)).cap ≤ j := hj
    rw [addDelta_lane, (addTaps_spec kernel (fixedTime d t) (x.lane l).toInt (h l)).2.1 j (Or.inr (by omega))]
    exact hb l j (by omega)

theorem addDeltaFast_slots (d : Dbuf) (t : Int) (x : Stereo Amp) : SlotChange d (addDeltaFast d t x) where
  only := rfl
  cap_le := (grow_cap_ge d _).1
  peak_le := le_max_left _ _
  wf h l := by
    rw [addDeltaFast_lane]
    exact (addFast_spec (fixedTime d t) (x.lane l).toInt (h l)).1
  beyond h hb l j hj := by
    have hg := grow_cap_ge d (slotIndex (fixedTime d t) + 9)
    have hj' : (grow d (slotIndex (fixedTime d t) + 9)).cap ≤ j := hj
    rw [addDeltaFast_lane, (addFast_spec (fixedTime d t) (x.lane l).toInt (h l)).2.1 j, if_neg (by omega),
      if_neg (by omega), hb l j (by omega)]
    rfl

/-! ### Emitting -/

@[simp] theorem emit_params (s : State) (t : Int) (x : Stereo Amp) : (emit s t x).params = s.params := rfl
@[simp] theorem emit_psg (s : State) (t : Int) (x : Stereo Amp) : (emit s t x).psg = s.psg := rfl
@[simp] theorem emit_rs (s : State) (t : Int) (x : Stereo Amp) : (emit s t x).rs = s.rs := rfl
@[simp] theorem emit_host (s : State) (t : Int) (x : Stereo Amp) : (emit s t x).host = s.host := rfl

theorem emit_slots (s : State) (t : Int) (x : Stereo Amp) : SlotChange s.dbuf (emit s t x).dbuf := by
  unfold emit
  rw [State.withDbuf_dbuf]
  split
  · exact addDelta_slots _ _ _ _
  · exact addDeltaFast_slots _ _ _

/-! ### What a run of the channels may do -/

/-- What a run of the channels may do to a state: it changes slots, polarities, flip times, pending deltas and the
LFSR, and nothing else. -/
structure Runs (s s' : State) : Prop where
  params : s'.params = s.params
  rs : s'.rs = s.rs
  host : s'.host = s.host
  slots : SlotChange s.dbuf s'.dbuf
  psg : s.psg.OnlyRuns s'.psg

theorem Psg.OnlyRuns.refl (g : Psg) : g.OnlyRuns g := rfl

theorem Psg.OnlyRuns.trans {g g' g'' : Psg} (h : g.OnlyRuns g') (h' : g'.OnlyRuns g'') : g.OnlyRuns g'' := by
  unfold Psg.OnlyRuns at h h' ⊢
  rw [h'] at *
  rw [h]

theorem Runs.refl (s : State) : Runs s s :=
  ⟨rfl, rfl, rfl, SlotChange.refl _, Psg.OnlyRuns.refl _⟩

theorem Runs.trans {s s' s'' : State} (h : Runs s s') (h' : Runs s' s'') : Runs s s'' :=
  ⟨h'.params.trans h.params, h'.rs.trans h.rs, h'.host.trans h.host, h.slots.trans h'.slots, h.psg.trans h'.psg⟩

theorem emit_runs (s : State) (t : Int) (x : Stereo Amp) : Runs s (emit s t x) :=
  ⟨rfl, rfl, rfl, emit_slots s t x, Psg.OnlyRuns.refl _⟩

/-- Replacing only what a run may move is a run. -/
theorem withPsg_runs {s : State} {g : Psg} (h : s.psg.OnlyRuns g) : Runs s (s.withPsg g) :=
  ⟨rfl, rfl, rfl, SlotChange.refl _, h⟩

theorem flush_runs (s : State) (ch : Chan) : Runs s (flush s ch) := by
  unfold flush
  split
  · exact Runs.refl s
  · refine (emit_runs s _ _).trans (withPsg_runs ?_)
    rfl

theorem setCounter_runs (s : State) (ch : Chan) (ts : Time) : Runs s (setCounter s ch ts) := withPsg_runs rfl

theorem toneFlip_runs (ch : Tone) (ts : Time) (s : State) : Runs s (toneFlip ch ts s) := by
  refine Runs.trans (withPsg_runs ?_) (emit_runs _ _ _)
  rfl

theorem toneLoop_runs (ch : Tone) (n : Nat) (ts : Time) (s : State) : Runs s (toneLoop ch n ts s) := by
  induction n generalizing ts s with
  | zero => exact setCounter_runs s _ ts
  | succ n ih => exact (toneFlip_runs ch ts s).trans (ih _ _)

theorem runTone_runs (s : State) (ch : Tone) (target : Int) : Runs s (runTone s ch target) :=
  toneLoop_runs ch _ _ s

theorem noiseFlip_runs (ts : Time) (s : State) : Runs s (noiseFlip ts s) := by
  unfold noiseFlip
  cases s.psg.polarity.q3
  · refine withPsg_runs ?_
    rfl
  · refine Runs.trans (withPsg_runs ?_) (emit_runs _ _ _)
    rfl

theorem noiseLoop_runs (n : Nat) (ts : Time) (s : State) : Runs s (noiseLoop n ts s) := by
  induction n generalizing ts s with
  | zero => exact setCounter_runs s _ ts
  | succ n ih => exact (noiseFlip_runs ts s).trans (ih _ _)

theorem runNoise_runs (s : State) (target : Int) : Runs s (runNoise s target) := noiseLoop_runs _ _ s

theorem psgUpdate_runs (s : State) (target : Int) : Runs s (psgUpdate s target) := by
  unfold psgUpdate
  exact ((flush_runs s .c0).trans (runTone_runs _ _ _)).trans
    (((flush_runs _ .c1).trans (runTone_runs _ _ _)).trans
      (((flush_runs _ .c2).trans (runTone_runs _ _ _)).trans
        ((flush_runs _ .c3).trans (runNoise_runs _ _))))

/-- What a run of the channels leaves alone in the PSG, field by field. -/
theorem Psg.OnlyRuns.fields {g g' : Psg} (h : g.OnlyRuns g') :
    g'.regs = g.regs ∧ g'.latch = g.latch ∧ g'.mutes = g.mutes ∧ g'.hqMode = g.hqMode ∧
    g'.chipType = g.chipType ∧ g'.clocks = g.clocks ∧ g'.freqInc = g.freqInc ∧ g'.chanOut = g.chanOut := by
  unfold Psg.OnlyRuns at h
  rw [h]
  exact ⟨rfl, rfl, rfl, rfl, rfl, rfl, rfl, rfl⟩

/-- What only slots change leaves alone in the delta buffer, field by field. -/
theorem Dbuf.OnlySlots.fields {d d' : Dbuf} (h : d.OnlySlots d') :
    d'.factor = d.factor ∧ d'.offset = d.offset ∧ d'.clkNum = d.clkNum ∧ d'.clkDen = d.clkDen ∧
    d'.rate = d.rate ∧ d'.integ = d.integ := by
  unfold Dbuf.OnlySlots at h
  rw [h]
  exact ⟨rfl, rfl, rfl, rfl, rfl, rfl⟩

/-- `sync` does nothing when the time is not later than `clocks` (42_psg_run.md R191). -/
theorem sync_of_le {s : State} {t : Int} (h : t ≤ s.psg.clocks.toInt) : sync s t = s := by
  unfold sync
  rw [if_neg (by omega)]

/-- Else it runs the channels and moves `clocks`. -/
theorem sync_of_lt {s : State} {t : Int} (h : s.psg.clocks.toInt < t) :
    sync s t = (psgUpdate s t).withPsg { (psgUpdate s t).psg with clocks := syncedClocks s.params s.psg.clocks t } := by
  have hr := psgUpdate_runs s t
  unfold sync
  rw [if_pos h]
  simp only [hr.params, hr.psg.fields.2.2.2.2.2.1]

/-- The frame of `sync`: as a run of the channels, but for `clocks`. -/
theorem sync_frame (s : State) (t : Int) :
    (sync s t).params = s.params ∧ (sync s t).rs = s.rs ∧ (sync s t).host = s.host ∧
    SlotChange s.dbuf (sync s t).dbuf ∧
    ({ s.psg with clocks := (sync s t).psg.clocks } : Psg).OnlyRuns (sync s t).psg := by
  rcases lt_or_ge s.psg.clocks.toInt t with h | h
  · have hr := psgUpdate_runs s t
    rw [sync_of_lt h]
    refine ⟨hr.params, hr.rs, hr.host, hr.slots, ?_⟩
    have hp := hr.psg
    unfold Psg.OnlyRuns at hp ⊢
    simp only [State.withPsg_psg]
    rw [hp]
  · rw [sync_of_le h]
    exact ⟨rfl, rfl, rfl, SlotChange.refl _, rfl⟩

/-! ### The loops of the channels -/

theorem setCounter_dbuf (s : State) (ch : Chan) (ts : Time) : (setCounter s ch ts).dbuf = s.dbuf := rfl

/-- The loop of a tone channel: its flip time advances by one half-period a turn, its polarity turns at every turn,
the other channels' stay, and the LFSR and the pending deltas stay (42_psg_run.md R194). -/
theorem toneLoop_spec (ch : Tone) (n : Nat) (ts : Time) (s : State) :
    (toneLoop ch n ts s).psg =
      { s.psg with
        polarity := s.psg.polarity.set ch.chan (Polarity.flip^[n] (s.psg.polarity.get ch.chan))
        freqCounter := s.psg.freqCounter.set ch.chan (ts + BitVec.ofNat 64 n * s.psg.freqInc.get ch.chan) } := by
  induction n generalizing ts s with
  | zero =>
    have e : ts + BitVec.ofNat 64 0 * s.psg.freqInc.get ch.chan = ts := by simp
    rw [e]
    show ({ s.psg with freqCounter := s.psg.freqCounter.set ch.chan ts } : Psg) = _
    rw [Function.iterate_zero, id, Quad.set_get_self]
  | succ n ih =>
    rw [toneLoop, ih]
    have hp : (toneFlip ch ts s).psg =
        { s.psg with polarity := s.psg.polarity.set ch.chan (s.psg.polarity.get ch.chan).flip } := rfl
    rw [hp]
    have hn : nextFlip s ch.chan ts = ts + s.psg.freqInc.get ch.chan := by
      rw [nextFlip, s64_add, s64_toInt, s64_toInt]
    have e : ts + s.psg.freqInc.get ch.chan + BitVec.ofNat 64 n * s.psg.freqInc.get ch.chan =
        ts + BitVec.ofNat 64 (n + 1) * s.psg.freqInc.get ch.chan := by
      have : BitVec.ofNat 64 (n + 1) = BitVec.ofNat 64 n + 1 := by rw [BitVec.ofNat_add]; rfl
      rw [this]
      ring
    simp only [Quad.get_set_same, Quad.set_set, Function.iterate_succ, Function.comp_apply, hn, e]

/-- The loop of the noise channel: its flip time advances by one half-period a turn and its polarity turns at every
turn (42_psg_run.md R195). -/
theorem noiseLoop_spec (n : Nat) (ts : Time) (s : State) :
    (noiseLoop n ts s).psg =
      { s.psg with
        polarity := s.psg.polarity.set .c3 (Polarity.flip^[n] s.psg.polarity.q3)
        freqCounter := s.psg.freqCounter.set .c3 (ts + BitVec.ofNat 64 n * s.psg.freqInc.q3)
        noiseShiftValue := (noiseLoop n ts s).psg.noiseShiftValue } := by
  induction n generalizing ts s with
  | zero =>
    have e : ts + BitVec.ofNat 64 0 * s.psg.freqInc.q3 = ts := by simp
    rw [e]
    rfl
  | succ n ih =>
    rw [noiseLoop, ih]
    have hp : (noiseFlip ts s).psg =
        { s.psg with
          polarity := s.psg.polarity.set .c3 s.psg.polarity.q3.flip
          noiseShiftValue := (noiseFlip ts s).psg.noiseShiftValue } := by
      unfold noiseFlip
      cases s.psg.polarity.q3 <;> rfl
    have hi : (noiseFlip ts s).psg.freqInc = s.psg.freqInc := by rw [hp]
    have hc : (noiseFlip ts s).psg.freqCounter = s.psg.freqCounter := by rw [hp]
    have hq : (noiseFlip ts s).psg.polarity = s.psg.polarity.set .c3 s.psg.polarity.q3.flip := by rw [hp]
    have hn : nextFlip s .c3 ts = ts + s.psg.freqInc.q3 := by
      rw [nextFlip, s64_add, s64_toInt, s64_toInt]
      rfl
    have e : ts + s.psg.freqInc.q3 + BitVec.ofNat 64 n * s.psg.freqInc.q3 =
        ts + BitVec.ofNat 64 (n + 1) * s.psg.freqInc.q3 := by
      have : BitVec.ofNat 64 (n + 1) = BitVec.ofNat 64 n + 1 := by rw [BitVec.ofNat_add]; rfl
      rw [this]
      ring
    rw [hi, hc, hq, hn, e]
    generalize (noiseLoop n (ts + s.psg.freqInc.q3) (noiseFlip ts s)).psg.noiseShiftValue = v
    rw [hp]
    rfl

/-! ### `DB.RD` -/

theorem readLoop_succ (n i : Nat) (x : ReadLane) : readLoop (n + 1) i x = readStep (i + n) (readLoop n i x) := by
  induction n generalizing i x with
  | zero => rfl
  | succ n ih =>
    rw [readLoop, ih]
    have : i + 1 + n = i + (n + 1) := by omega
    rw [this]
    rfl

/-- `n` turns of the loop of `DB.RD` from index 0 in one lane (40_delta_buffer.md R136). -/
theorem readLoop_spec (n : Nat) {x : ReadLane} (hb : x.buf.wf = true) (ho : x.out.wf = true) :
    (readLoop n 0 x).buf.wf = true ∧ (readLoop n 0 x).out.wf = true ∧
    (readLoop n 0 x).integ = integAt x.buf x.integ n ∧
    (∀ j, (readLoop n 0 x).buf.read j = if j < n then 0 else x.buf.read j) ∧
    (∀ j, (readLoop n 0 x).out.read j =
      if j < n then s32 ((x.out.read j).toInt + pcm (integAt x.buf x.integ j)) else x.out.read j) := by
  induction n with
  | zero => exact ⟨hb, ho, rfl, fun j => by simp [readLoop], fun j => by simp [readLoop]⟩
  | succ n ih =>
    obtain ⟨h1, h2, h3, h4, h5⟩ := ih
    rw [readLoop_succ, Nat.zero_add]
    refine ⟨Memory.wf_write h1 _ _, Memory.wf_write h2 _ _, ?_, fun j => ?_, fun j => ?_⟩
    · show integrate (readLoop n 0 x).integ ((readLoop n 0 x).buf.read n) (pcm (readLoop n 0 x).integ) = _
      rw [h3, h4, if_neg (Nat.lt_irrefl n)]
      rfl
    · show ((readLoop n 0 x).buf.write n 0).read j = _
      rw [Memory.read_write h1, h4]
      by_cases hj : j = n
      · rw [if_pos hj, if_pos (by omega)]
      · rw [if_neg hj]
        by_cases hl : j < n
        · rw [if_pos hl, if_pos (by omega)]
        · rw [if_neg hl, if_neg (by omega)]
    · show ((readLoop n 0 x).out.write n
        (s32 (((readLoop n 0 x).out.read n).toInt + pcm (readLoop n 0 x).integ))).read j = _
      rw [Memory.read_write h2, h3, h5, h5, if_neg (Nat.lt_irrefl n)]
      by_cases hj : j = n
      · subst hj
        rw [if_pos rfl, if_pos (by omega)]
      · rw [if_neg hj]
        by_cases hl : j < n
        · rw [if_pos hl, if_pos (by omega)]
        · rw [if_neg hl, if_neg (by omega)]

/-- One lane of `DB.RD` (40_delta_buffer.md R136). -/
theorem readLane_spec (n : Nat) {x : ReadLane} (hb : x.buf.wf = true) (ho : x.out.wf = true) :
    (readLane n x).buf.wf = true ∧ (readLane n x).out.wf = true ∧
    (readLane n x).integ = integAt x.buf x.integ n ∧
    (∀ j, (readLane n x).buf.read j = x.buf.read (j + n)) ∧
    (∀ j, (readLane n x).out.read j =
      if j < n then s32 ((x.out.read j).toInt + pcm (integAt x.buf x.integ j)) else x.out.read j) := by
  obtain ⟨h1, h2, h3, h4, h5⟩ := readLoop_spec n hb ho
  refine ⟨Memory.wf_shiftDown h1 n, h2, h3, fun j => ?_, h5⟩
  show ((readLoop n 0 x).buf.shiftDown n).read j = _
  rw [Memory.read_shiftDown h1, h4, if_neg (by omega)]

/-- The integrator turn as wrapping arithmetic: it gains the slot and loses 64 times the sample. -/
theorem integrate_eq (integ slot : Amp) (v : Int) : integrate integ slot v = integ + slot - s32 (v * 64) := by
  rw [integrate, s32_sub, s32_toInt, s32_add, s32_toInt, s32_toInt]
  norm_num

/-! ### Outcomes -/

theorem completeWithin_unbounded {s : State} (h : s.Unbounded) (r : BitVec 64) :
    completeWithin s r = .next (s.respond r) := by
  unfold completeWithin
  rw [h]
  rfl

theorem completeWithin_within {s : State} (h : s.Within) (r : BitVec 64) :
    completeWithin s r = .next (s.respond r) := by
  unfold completeWithin
  split
  · rfl
  · next m hm => rw [if_pos (h m hm)]; rfl

/-- When `completeWithin` answers a next state it is the completed one, and the bound was kept. -/
theorem completeWithin_next {s t : State} {r : BitVec 64} (h : completeWithin s r = .next t) :
    t = s.respond r ∧ s.Within := by
  unfold completeWithin at h
  split at h
  · next hn =>
    refine ⟨(Host.Outcome.next.inj h).symm, fun m hm => ?_⟩
    rw [hn] at hm
    exact absurd hm (by simp)
  · next m hm =>
    split at h
    · next hp =>
      refine ⟨(Host.Outcome.next.inj h).symm, fun m' hm' => ?_⟩
      rw [hm] at hm'
      cases hm'
      exact hp
    · exact absurd h (by simp)

theorem complete_next {s t : State} {r : BitVec 64} (h : complete s r = .next t) : t = s.respond r :=
  (Host.Outcome.next.inj h).symm

/-! ### Register writes -/

/-- A delta owed in BASELINE is emitted at `clocks`; in ACCURATE it is added to `chanDelta` (42_psg_run.md R190). -/
theorem owe_baseline {s : State} (hv : s.params.variant = .baseline) (ch : Chan) (x : Stereo Amp) :
    owe s ch x = emit s s.psg.clocks.toInt x := by
  unfold owe
  rw [hv]

theorem owe_accurate {s : State} (hv : s.params.variant = .accurate) (ch : Chan) (x : Stereo Amp) :
    owe s ch x =
      s.withPsg { s.psg with chanDelta := s.psg.chanDelta.set ch (addPair (s.psg.chanDelta.get ch) x) } := by
  unfold owe
  rw [hv]

/-- Owing a delta is a run of the channels in what it may change. -/
theorem owe_runs (s : State) (ch : Chan) (x : Stereo Amp) : Runs s (owe s ch x) := by
  cases hv : s.params.variant
  · rw [owe_baseline hv]
    exact emit_runs _ _ _
  · rw [owe_accurate hv]
    refine withPsg_runs ?_
    rfl

/-- Owing a delta changes `chanDelta` at most in the PSG. -/
theorem owe_psg (s : State) (ch : Chan) (x : Stereo Amp) :
    (owe s ch x).psg = { s.psg with chanDelta := (owe s ch x).psg.chanDelta } := by
  cases hv : s.params.variant
  · rw [owe_baseline hv]
    rfl
  · rw [owe_accurate hv]
    rfl

/-- `setTone` writes half-periods and nothing else (41_psg_write.md R166). -/
theorem setTone_eq (s : State) (ch : Tone) :
    setTone s ch = s.withPsg { s.psg with freqInc := (setTone s ch).psg.freqInc } := rfl

/-- The noise half-period that `setNoise` writes (41_psg_write.md R167). -/
def noiseIncOf (s : State) : Time :=
  if s.psg.regs.noiseRate = 3 then s.psg.freqInc.q2
  else s64 ((noiseDiv s.psg.regs.noiseRate * ratioOf s.params : Nat))

/-- `setNoise` in its three moves: the half-period, the falling delta it may owe, the seed (41_psg_write.md R167). -/
theorem setNoise_eq (s : State) :
    setNoise s =
      (fun s2 : State => s2.withPsg { s2.psg with noiseShiftValue := lfsrSeed s2.psg.chipType })
        (if noiseBit s.psg then
          owe (s.withPsg { s.psg with freqInc := s.psg.freqInc.set .c3 (noiseIncOf s) }) .c3
            (subPair ⟨0, 0⟩ s.psg.chanOut.q3)
        else s.withPsg { s.psg with freqInc := s.psg.freqInc.set .c3 (noiseIncOf s) }) := rfl

/-- The frame of `setNoise`: as owing a delta, but for the noise half-period and the LFSR, which is at its seed
(41_psg_write.md R167). -/
theorem setNoise_frame (s : State) :
    (setNoise s).params = s.params ∧ (setNoise s).rs = s.rs ∧ (setNoise s).host = s.host ∧
    SlotChange s.dbuf (setNoise s).dbuf ∧
    (setNoise s).psg = { s.psg with
      freqInc := s.psg.freqInc.set .c3 (noiseIncOf s)
      chanDelta := (setNoise s).psg.chanDelta
      noiseShiftValue := lfsrSeed s.psg.chipType } := by
  rw [setNoise_eq]
  generalize noiseIncOf s = inc
  cases noiseBit s.psg
  · exact ⟨rfl, rfl, rfl, SlotChange.refl _, rfl⟩
  · have hr := owe_runs (s.withPsg { s.psg with freqInc := s.psg.freqInc.set .c3 inc }) .c3
      (subPair ⟨0, 0⟩ s.psg.chanOut.q3)
    have hp := owe_psg (s.withPsg { s.psg with freqInc := s.psg.freqInc.set .c3 inc }) .c3
      (subPair ⟨0, 0⟩ s.psg.chanOut.q3)
    simp only [if_true]
    generalize owe (s.withPsg { s.psg with freqInc := s.psg.freqInc.set .c3 inc }) .c3
      (subPair ⟨0, 0⟩ s.psg.chanOut.q3) = s2 at hr hp
    refine ⟨hr.params, hr.rs, hr.host, hr.slots, ?_⟩
    simp only [State.withPsg_psg] at hp ⊢
    generalize s2.psg.chanDelta = d at hp ⊢
    rw [hp]

/-- `setAmp` on a low channel (41_psg_write.md R161). -/
theorem setAmp_low {s : State} {ch : Chan} (h : high s.psg ch = false) (new : Stereo Amp) :
    setAmp s ch new = s.withPsg { s.psg with chanOut := s.psg.chanOut.set ch new } := by
  unfold setAmp
  rw [h]
  rfl

/-- `setAmp` on a high channel in BASELINE: the difference is emitted at `clocks` (41_psg_write.md R161). -/
theorem setAmp_high_baseline {s : State} {ch : Chan} (h : high s.psg ch = true)
    (hv : s.params.variant = .baseline) (new : Stereo Amp) :
    setAmp s ch new = (emit s s.psg.clocks.toInt (subPair new (s.psg.chanOut.get ch))).withPsg
      { s.psg with chanOut := s.psg.chanOut.set ch new } := by
  unfold setAmp owe
  rw [h, hv]
  rfl

/-- `setAmp` on a high channel in ACCURATE: the difference is added to `chanDelta` (41_psg_write.md R161). -/
theorem setAmp_high_accurate {s : State} {ch : Chan} (h : high s.psg ch = true)
    (hv : s.params.variant = .accurate) (new : Stereo Amp) :
    setAmp s ch new = s.withPsg { s.psg with
      chanDelta := s.psg.chanDelta.set ch (addPair (s.psg.chanDelta.get ch) (subPair new (s.psg.chanOut.get ch)))
      chanOut := s.psg.chanOut.set ch new } := by
  unfold setAmp owe
  rw [h, hv]
  rfl

/-- The frame of `setAmp`: as owing a delta, but for `chanOut` (41_psg_write.md R161). -/
theorem setAmp_frame (s : State) (ch : Chan) (new : Stereo Amp) :
    (setAmp s ch new).params = s.params ∧ (setAmp s ch new).rs = s.rs ∧ (setAmp s ch new).host = s.host ∧
    SlotChange s.dbuf (setAmp s ch new).dbuf ∧
    (setAmp s ch new).psg = { s.psg with
      chanOut := s.psg.chanOut.set ch new, chanDelta := (setAmp s ch new).psg.chanDelta } := by
  cases hh : high s.psg ch
  · rw [setAmp_low hh]
    exact ⟨rfl, rfl, rfl, SlotChange.refl _, rfl⟩
  · cases hv : s.params.variant
    · rw [setAmp_high_baseline hh hv]
      exact ⟨rfl, rfl, rfl, emit_slots _ _ _, rfl⟩
    · rw [setAmp_high_accurate hh hv]
      exact ⟨rfl, rfl, rfl, SlotChange.refl _, rfl⟩

theorem subPair_eq (x y : Stereo Amp) : subPair x y = ⟨x.l - y.l, x.r - y.r⟩ := by
  unfold subPair
  rw [s32_sub, s32_sub, s32_toInt, s32_toInt, s32_toInt, s32_toInt]

theorem addPair_eq (x y : Stereo Amp) : addPair x y = ⟨x.l + y.l, x.r + y.r⟩ := by
  unfold addPair
  rw [s32_add, s32_add, s32_toInt, s32_toInt, s32_toInt, s32_toInt]

theorem scalePair_one (x : Stereo Amp) : scalePair 1 x = x := by
  unfold scalePair
  rw [one_mul, one_mul, s32_toInt, s32_toInt]

theorem scalePair_neg_one (x : Stereo Amp) : scalePair (-1) x = ⟨-x.l, -x.r⟩ := by
  unfold scalePair
  rw [neg_one_mul, neg_one_mul, s32_neg, s32_neg, s32_toInt, s32_toInt]

theorem scalePair_zero (x : Stereo Amp) : scalePair 0 x = ⟨0, 0⟩ := by
  unfold scalePair
  rw [zero_mul, zero_mul, s32_zero]

/-! ### Resampler -/

@[simp] theorem generateSample_events (h : HostSide) : (generateSample h).2.events = h.events := by
  unfold generateSample; split <;> rfl
@[simp] theorem generateSample_out (h : HostSide) : (generateSample h).2.out = h.out := by
  unfold generateSample; split <;> rfl
@[simp] theorem generateSample_rsp (h : HostSide) : (generateSample h).2.rsp = h.rsp := by
  unfold generateSample; split <;> rfl
@[simp] theorem generateSample_pulled (h : HostSide) : (generateSample h).2.pulled = h.pulled + 1 := by
  unfold generateSample; split <;> rfl
@[simp] theorem generateSample_answers (h : HostSide) : (generateSample h).2.answers = h.answers.drop 1 := by
  unfold generateSample
  split
  · next h0 => rw [h0]; rfl
  · next h0 => rw [h0]; rfl

/-- A pushed sample keeps the ring's form and size (43_resampler.md R234, 20_memory.md R78). -/
theorem rsPush_hist {r : Rs} (h : pairWf r.hist) (x : Stereo Sample) :
    pairWf (rsPush r x).hist ∧
    (∀ (l : Lane) (j : Nat), ((rsPush r x).hist.lane l).read j =
      if j = r.rsWr.toNat % 32 then x.lane l else (r.hist.lane l).read j) := by
  refine ⟨fun l => ?_, fun l j => ?_⟩
  · cases l
    · exact Memory.wf_write (h .left) _ _
    · exact Memory.wf_write (h .right) _ _
  · cases l
    · exact Memory.read_write (h .left) _ _ _
    · exact Memory.read_write (h .right) _ _ _

theorem rsPush_rsWr (r : Rs) (x : Stereo Sample) : (rsPush r x).rsWr = r.rsWr + 1 := by
  show s64 ((r.rsWr.toNat : Int) + 1) = _
  rw [s64_add, s64_natCast, BitVec.ofNat_toNat, BitVec.setWidth_eq]
  rfl

theorem rsAdvance_rsPos (r : Rs) : (rsAdvance r).rsPos = r.rsPos + r.rsStep := by
  show s64 ((r.rsPos.toNat : Int) + r.rsStep.toNat) = _
  rw [s64_add, s64_natCast, s64_natCast, BitVec.ofNat_toNat, BitVec.ofNat_toNat, BitVec.setWidth_eq,
    BitVec.setWidth_eq]

/-- `k` pulls: the queue loses its first `k` pairs, `k` requests are counted, `rsWr` advances by `k`; the position,
the step, the host's buffers and the other units stay (43_resampler.md R238). -/
theorem rsPulls_spec (k : Nat) (s : State) :
    (rsPulls k s).params = s.params ∧ (rsPulls k s).dbuf = s.dbuf ∧ (rsPulls k s).psg = s.psg ∧
    (rsPulls k s).rs.rsStep = s.rs.rsStep ∧ (rsPulls k s).rs.rsPos = s.rs.rsPos ∧
    (rsPulls k s).rs.rsWr = s.rs.rsWr + BitVec.ofNat 64 k ∧
    (rsPulls k s).host.events = s.host.events ∧ (rsPulls k s).host.out = s.host.out ∧
    (rsPulls k s).host.rsp = s.host.rsp ∧ (rsPulls k s).host.pulled = s.host.pulled + k ∧
    (rsPulls k s).host.answers = s.host.answers.drop k ∧ (pairWf s.rs.hist → pairWf (rsPulls k s).rs.hist) := by
  induction k generalizing s with
  | zero => simp [rsPulls]
  | succ k ih =>
    obtain ⟨h1, h2, h3, h4, h5, h6, h7, h8, h9, h10, h11, h12⟩ := ih (rsPull s)
    rw [rsPulls]
    refine ⟨h1, h2, h3, h4, h5, ?_, ?_, ?_, ?_, ?_, ?_, fun h => h12 (rsPush_hist h _).1⟩
    · rw [h6]
      show (rsPush s.rs _).rsWr + _ = _
      rw [rsPush_rsWr]
      have : BitVec.ofNat 64 (k + 1) = BitVec.ofNat 64 k + 1 := by rw [BitVec.ofNat_add]; rfl
      rw [this]
      ring
    · rw [h7]; exact generateSample_events s.host
    · rw [h8]; exact generateSample_out s.host
    · rw [h9]; exact generateSample_rsp s.host
    · rw [h10]
      show (generateSample s.host).2.pulled + k = _
      rw [generateSample_pulled]
      omega
    · rw [h11]
      show ((generateSample s.host).2.answers).drop k = _
      rw [generateSample_answers, List.drop_drop, Nat.add_comm]

@[simp] theorem rsEmit_params (i : Nat) (s : State) : (rsEmit i s).params = s.params := rfl
@[simp] theorem rsEmit_dbuf (i : Nat) (s : State) : (rsEmit i s).dbuf = s.dbuf := rfl
@[simp] theorem rsEmit_psg (i : Nat) (s : State) : (rsEmit i s).psg = s.psg := rfl
@[simp] theorem rsEmit_rs (i : Nat) (s : State) : (rsEmit i s).rs = rsAdvance s.rs := rfl
@[simp] theorem rsEmit_host_events (i : Nat) (s : State) : (rsEmit i s).host.events = s.host.events := rfl
@[simp] theorem rsEmit_host_answers (i : Nat) (s : State) : (rsEmit i s).host.answers = s.host.answers := rfl
@[simp] theorem rsEmit_host_pulled (i : Nat) (s : State) : (rsEmit i s).host.pulled = s.host.pulled := rfl
@[simp] theorem rsEmit_host_rsp (i : Nat) (s : State) : (rsEmit i s).host.rsp = s.host.rsp := rfl

/-- The frame of the loop of `RS.REN` (43_resampler.md R230, R238). -/
theorem rsLoop_frame (n i : Nat) (s : State) :
    (rsLoop n i s).params = s.params ∧ (rsLoop n i s).dbuf = s.dbuf ∧ (rsLoop n i s).psg = s.psg ∧
    (rsLoop n i s).rs.rsStep = s.rs.rsStep ∧ (rsLoop n i s).host.events = s.host.events ∧
    (rsLoop n i s).host.rsp = s.host.rsp ∧
    (pairWf s.rs.hist → pairWf (rsLoop n i s).rs.hist) ∧
    (pairWf s.host.out → pairWf (rsLoop n i s).host.out) := by
  induction n generalizing i s with
  | zero => exact ⟨rfl, rfl, rfl, rfl, rfl, rfl, id, id⟩
  | succ n ih =>
    have hp := rsPulls_spec (rsMissing s.rs) s
    obtain ⟨h1, h2, h3, h4, h5, h6, h7, h8⟩ := ih (i + 1) (rsEmit i (rsPulls (rsMissing s.rs) s))
    rw [rsLoop]
    refine ⟨h1.trans hp.1, h2.trans hp.2.1, h3.trans hp.2.2.1, h4.trans hp.2.2.2.1, h5.trans hp.2.2.2.2.2.2.1,
      h6.trans hp.2.2.2.2.2.2.2.2.1, fun h => h7 (hp.2.2.2.2.2.2.2.2.2.2.2 h), fun h => h8 fun l => ?_⟩
    have ho : (rsPulls (rsMissing s.rs) s).host.out = s.host.out := hp.2.2.2.2.2.2.2.1
    cases l
    · show (((rsPulls (rsMissing s.rs) s).host.out.l).write i _).wf = true
      rw [ho]
      exact Memory.wf_write (h .left) _ _
    · show (((rsPulls (rsMissing s.rs) s).host.out.r).write i _).wf = true
      rw [ho]
      exact Memory.wf_write (h .right) _ _

/-- The loop of `RS.REN` splits (43_resampler.md R238). -/
theorem rsLoop_add (a b i : Nat) (s : State) : rsLoop (a + b) i s = rsLoop b (i + a) (rsLoop a i s) := by
  induction a generalizing i s with
  | zero => rw [Nat.zero_add]; rfl
  | succ a ih =>
    have e : a + 1 + b = a + b + 1 := by omega
    rw [e, rsLoop, ih, rsLoop]
    congr 1
    omega

end Sys2Proof.Machine
end

