-- ==== Sys2Proof/Laws/PerInstr.lean ====
section
/-! SUPPORT. Statements about every instruction, one lemma per constructor. `TableMatch`: the word an instruction
encodes to has the width and the fixed bits of the instruction's row of spec/opcode_table.json. -/

namespace Sys2Proof.Laws.TableMatch

/-- The encoding fits the row. -/
def Statement (i : Instr) : Prop := i.row.fits (encode i) = true

/-- A command word has its OP in bits 135 to 128 (30_encoding.md R100). -/
theorem cmd_fits (op : BitVec 8) (a : BitVec 64) (b c : BitVec 32) (k : Nat) (h : k = op.toNat) :
    (cmdRow k).fits (cmdWord op a b c) = true := by
  have ho := op.isLt
  have ha := a.isLt
  have hb := b.isLt
  have hc := c.isLt
  subst h
  have hw : (CmdFields.toWord ⟨op, a, b, c⟩).toNat =
      op.toNat * 2 ^ 128 + (a.toNat * 2 ^ 64 + b.toNat * 2 ^ 32 + c.toNat) := by
    rw [CmdFields.toWord_toNat]
    simp only
    omega
  have hl : a.toNat * 2 ^ 64 + b.toNat * 2 ^ 32 + c.toNat < 2 ^ 128 := by omega
  simp only [OpcodeRow.fits, cmdRow, cmdWord, PortWord.nbits, PortWord.toNat, hw, beq_self_eq_true, Bool.true_and,
    beq_iff_eq]
  show (op.toNat * 2 ^ 128 + (a.toNat * 2 ^ 64 + b.toNat * 2 ^ 32 + c.toNat)) &&& (0xFF * 2 ^ 128) = _
  apply Nat.eq_of_testBit_eq
  intro i
  rw [Nat.testBit_and, Nat.testBit_mul_two_pow, Nat.testBit_mul_two_pow, Nat.mul_comm op.toNat,
    Nat.testBit_two_pow_mul_add _ hl]
  by_cases hi : i < 128
  · simp [hi, Nat.not_le.mpr hi]
  · have hi' : 128 ≤ i := by omega
    simp only [hi, hi', if_false, decide_true, Bool.true_and]
    rw [show (0xFF : Nat) = 2 ^ 8 - 1 from rfl, Nat.testBit_two_pow_sub_one]
    by_cases h8 : i - 128 < 8
    · simp [h8]
    · have : op.toNat.testBit (i - 128) = false :=
        Nat.testBit_lt_two_pow (lt_of_lt_of_le ho (Nat.pow_le_pow_right (by omega) (by omega)))
      simp [h8, this]

theorem dbCfg : ∀ n d r, Statement (.dbCfg n d r) := by
  intro n d r
  exact cmd_fits _ _ _ _ _ rfl

theorem dbClr : Statement (.dbClr) := by
  exact cmd_fits _ _ _ _ _ rfl

theorem dbAdd : ∀ t dl dr, Statement (.dbAdd t dl dr) := by
  intro t dl dr
  exact cmd_fits _ _ _ _ _ rfl

theorem dbAddf : ∀ t dl dr, Statement (.dbAddf t dl dr) := by
  intro t dl dr
  exact cmd_fits _ _ _ _ _ rfl

theorem dbEnd : ∀ k, Statement (.dbEnd k) := by
  intro k
  exact cmd_fits _ _ _ _ _ rfl

theorem dbRd : ∀ n, Statement (.dbRd n) := by
  intro n
  exact cmd_fits _ _ _ _ _ rfl

theorem psgRst : Statement (.psgRst) := by
  exact cmd_fits _ _ _ _ _ rfl

theorem psgWr : ∀ t b, Statement (.psgWr t b) := by
  intro t b
  exact cmd_fits _ _ _ _ _ rfl

theorem psgRen : ∀ n, Statement (.psgRen n) := by
  intro n
  exact cmd_fits _ _ _ _ _ rfl

theorem psgRate : ∀ r, Statement (.psgRate r) := by
  intro r
  exact cmd_fits _ _ _ _ _ rfl

theorem psgChip : ∀ c, Statement (.psgChip c) := by
  intro c
  exact cmd_fits _ _ _ _ _ rfl

theorem psgHq : ∀ x, Statement (.psgHq x) := by
  intro x
  exact cmd_fits _ _ _ _ _ rfl

theorem psgMute : ∀ ch x, Statement (.psgMute ch x) := by
  intro ch x
  exact cmd_fits _ _ _ _ _ rfl

theorem rsCfg : ∀ a b, Statement (.rsCfg a b) := by
  intro a b
  exact cmd_fits _ _ _ _ _ rfl

theorem rsPush : ∀ l r, Statement (.rsPush l r) := by
  intro l r
  exact cmd_fits _ _ _ _ _ rfl

theorem rsHas : Statement (.rsHas) := by
  exact cmd_fits _ _ _ _ _ rfl

theorem rsPop : Statement (.rsPop) := by
  exact cmd_fits _ _ _ _ _ rfl

theorem rsRen : ∀ n, Statement (.rsRen n) := by
  intro n
  exact cmd_fits _ _ _ _ _ rfl

theorem latch0 : ∀ d, Statement (.latch0 d) := by
  unfold Statement
  decide

theorem latch1 : ∀ d, Statement (.latch1 d) := by
  unfold Statement
  decide

theorem latch2 : ∀ d, Statement (.latch2 d) := by
  unfold Statement
  decide

theorem latch3 : ∀ d, Statement (.latch3 d) := by
  unfold Statement
  decide

theorem latch4 : ∀ d, Statement (.latch4 d) := by
  unfold Statement
  decide

theorem latch5 : ∀ d, Statement (.latch5 d) := by
  unfold Statement
  decide

theorem latch6 : ∀ d, Statement (.latch6 d) := by
  unfold Statement
  decide

theorem latch7 : ∀ d, Statement (.latch7 d) := by
  unfold Statement
  decide

theorem data0 : ∀ d, Statement (.data0 d) := by
  unfold Statement
  decide

theorem data1 : ∀ d, Statement (.data1 d) := by
  unfold Statement
  decide

theorem data2 : ∀ d, Statement (.data2 d) := by
  unfold Statement
  decide

theorem data3 : ∀ d, Statement (.data3 d) := by
  unfold Statement
  decide

theorem data4 : ∀ d, Statement (.data4 d) := by
  unfold Statement
  decide

theorem data5 : ∀ d, Statement (.data5 d) := by
  unfold Statement
  decide

theorem data6 : ∀ d, Statement (.data6 d) := by
  unfold Statement
  decide

theorem data7 : ∀ d, Statement (.data7 d) := by
  unfold Statement
  decide

end Sys2Proof.Laws.TableMatch
end

