-- ==== Sys2Proof/Machine/Assembly.lean ====
section
/-! DEFINITION. The assembler's text of an instruction (30_encoding.md R118): the mnemonic and the operands in the
order of the rule's table, numbers in decimal; PSG bytes as the disassembly `LATCH r, d` and `DATA d`. Nothing in the
machine depends on it. -/

namespace Sys2Proof

/-- Decimal digits of a number. -/
def decimal (n : Nat) : String := String.ofList (Nat.toDigits 10 n)

/-- A decimal number, with a minus sign if negative. -/
def signedDecimal (v : Int) : String := if v < 0 then "-" ++ decimal v.natAbs else decimal v.natAbs

/-- A mnemonic and its operands, separated by commas. -/
def asmLine (mnemonic : String) : List String → String
  | [] => mnemonic
  | x :: rest => rest.foldl (fun acc y => acc ++ ", " ++ y) (mnemonic ++ " " ++ x)

/-- `INTEGRATED` or `DISCRETE`. -/
def ChipType.asm : ChipType → String
  | .integrated => "INTEGRATED"
  | .discrete => "DISCRETE"

/-- A one-bit operand. -/
def flagAsm (x : Bool) : String := if x then "1" else "0"

/-- The text of an instruction (30_encoding.md R118). -/
def Instr.asm : Instr → String
  | .dbCfg n d r => asmLine "DB.CFG" [decimal n.toNat ++ "/" ++ decimal d.toNat, decimal r.toNat]
  | .dbClr => asmLine "DB.CLR" []
  | .dbAdd t dl dr => asmLine "DB.ADD" [signedDecimal t.toInt, signedDecimal dl.toInt, signedDecimal dr.toInt]
  | .dbAddf t dl dr => asmLine "DB.ADDF" [signedDecimal t.toInt, signedDecimal dl.toInt, signedDecimal dr.toInt]
  | .dbEnd k => asmLine "DB.END" [signedDecimal k.toInt]
  | .dbRd n => asmLine "DB.RD" [decimal n.toNat]
  | .psgRst => asmLine "PSG.RST" []
  | .psgWr t b => asmLine "PSG.WR" [signedDecimal t.toInt, decimal b.toNat]
  | .psgRen n => asmLine "PSG.REN" [decimal n.toNat]
  | .psgRate r => asmLine "PSG.RATE" [decimal r.toNat]
  | .psgChip c => asmLine "PSG.CHIP" [c.asm]
  | .psgHq x => asmLine "PSG.HQ" [flagAsm x]
  | .psgMute ch x => asmLine "PSG.MUTE" [signedDecimal ch.toInt, flagAsm x]
  | .rsCfg i o => asmLine "RS.CFG" [decimal i.toNat, decimal o.toNat]
  | .rsPush l r => asmLine "RS.PUSH" [signedDecimal l.toInt, signedDecimal r.toInt]
  | .rsHas => asmLine "RS.HAS" []
  | .rsPop => asmLine "RS.POP" []
  | .rsRen n => asmLine "RS.REN" [decimal n.toNat]
  | .latch0 d => asmLine "LATCH" ["0", decimal d.toNat]
  | .latch1 d => asmLine "LATCH" ["1", decimal d.toNat]
  | .latch2 d => asmLine "LATCH" ["2", decimal d.toNat]
  | .latch3 d => asmLine "LATCH" ["3", decimal d.toNat]
  | .latch4 d => asmLine "LATCH" ["4", decimal d.toNat]
  | .latch5 d => asmLine "LATCH" ["5", decimal d.toNat]
  | .latch6 d => asmLine "LATCH" ["6", decimal d.toNat]
  | .latch7 d => asmLine "LATCH" ["7", decimal d.toNat]
  | .data0 d => asmLine "DATA" [decimal d.toNat]
  | .data1 d => asmLine "DATA" [decimal d.toNat]
  | .data2 d => asmLine "DATA" [decimal d.toNat]
  | .data3 d => asmLine "DATA" [decimal d.toNat]
  | .data4 d => asmLine "DATA" [decimal d.toNat]
  | .data5 d => asmLine "DATA" [decimal d.toNat]
  | .data6 d => asmLine "DATA" [decimal d.toNat]
  | .data7 d => asmLine "DATA" [decimal d.toNat]

end Sys2Proof
end

