-- ==== Sys2Proof/Tests/Slice0.lean ====
section
/-! SUPPORT. Tests: what `WellFormed` refuses, every constructor's decoding from a word written out from the spec,
one step per instruction against the vectors of 95_test_vectors.md or a hand calculation from the cited rule, and a
witness for the hypotheses of every statement that has some (named `witness_<statement>`). -/

namespace Sys2Proof.Tests

/-! The tests are elaborated one after the other: each is a kernel evaluation, and elaborating them at once takes one
thread each. -/

set_option Elab.async false

open Sys2Proof Sys2Proof.Machine

/-! ### WellFormed refuses -/

/-- Each DATA form is refused under a latch that is not its own (30_encoding.md R107). -/
theorem test_data_forms_need_their_latch :
    (Instr.data0 1).wellFormed 1 = false ∧ (Instr.data1 1).wellFormed 0 = false ∧
    (Instr.data2 1).wellFormed 3 = false ∧ (Instr.data3 1).wellFormed 2 = false ∧
    (Instr.data4 1).wellFormed 5 = false ∧ (Instr.data5 1).wellFormed 4 = false ∧
    (Instr.data6 1).wellFormed 7 = false ∧ (Instr.data7 1).wellFormed 6 = false := by decide

theorem test_data_forms_wellformed :
    (Instr.data0 1).wellFormed 0 = true ∧ (Instr.data7 1).wellFormed 7 = true ∧
    (Instr.latch3 1).wellFormed 5 = true ∧ (Instr.rsPop).wellFormed 5 = true := by decide

/-- The default parameters are admitted (00_scope.md R8). -/
theorem test_params_default : paramsDefault.wf = true := by decide +kernel

/-- A kernel whose row pair does not sum to 32768 is refused (10_state.md R62). -/
theorem test_params_bad_kernel :
    ({ paramsDefault with kernel := [0, 0, 0, 0, 0, 0, 0, 1] :: kernelDefault.tail } : Params).kernelOk = false := by
  decide +kernel

/-- A volume table that does not end in 0, or one too loud, is refused (10_state.md R63). -/
theorem test_params_bad_voltab :
    ({ paramsDefault with voltab := List.replicate 16 1 } : Params).voltabOk = false ∧
    ({ paramsDefault with voltab := 8192 :: voltabDefault.tail } : Params).voltabOk = false := by decide +kernel

theorem test_params_bad_ratio : ({ paramsDefault with mcyclesRatio := 0 } : Params).ratioOk = false := by decide

theorem test_params_bad_taps : ({ paramsDefault with tapsDiscrete := 0x8003 } : Params).tapsOk = false := by decide

/-! ### Decoding, from words written out from 30_encoding.md R100 to R106 (most of them those of
95_test_vectors.md) -/

theorem decode_dbCfg : decode 0 (.command 0x10_0000001000369E99_0000AC44_00000000#136) =
    .ok (.dbCfg 3579545 16 44100) := by decide +kernel
theorem decode_dbClr : decode 3 (.command 0x11_0000000000000000_00000000_00000000#136) = .ok .dbClr := by
  decide +kernel
theorem decode_dbAdd : decode 0 (.command 0x12_0000000000000064_000003E8_FFFFFC18#136) =
    .ok (.dbAdd 100 1000 (-1000)) := by decide +kernel
theorem decode_dbAddf : decode 0 (.command 0x13_0000000000000064_000003E8_FFFFFFFF#136) =
    .ok (.dbAddf 100 1000 (-1)) := by decide +kernel
theorem decode_dbEnd : decode 0 (.command 0x14_0000000000000028_00000000_00000000#136) = .ok (.dbEnd 40) := by
  decide +kernel
theorem decode_dbRd : decode 0 (.command 0x15_0000000000000000_00000028_00000000#136) = .ok (.dbRd 40) := by
  decide +kernel
theorem decode_psgRst : decode 0 (.command 0x20_0000000000000000_00000000_00000000#136) = .ok .psgRst := by
  decide +kernel
theorem decode_psgWr : decode 0 (.command 0x21_000000000000000D_000000B4_00000000#136) = .ok (.psgWr 13 0xB4) := by
  decide +kernel
theorem decode_psgRen : decode 0 (.command 0x22_0000000000000000_000003E8_00000000#136) = .ok (.psgRen 1000) := by
  decide +kernel
theorem decode_psgRate : decode 0 (.command 0x23_0000000000000000_0000BB80_00000000#136) = .ok (.psgRate 48000) := by
  decide +kernel
theorem decode_psgChip : decode 0 (.command 0x24_0000000000000000_00000001_00000000#136) =
    .ok (.psgChip .discrete) := by decide +kernel
theorem decode_psgHq : decode 0 (.command 0x25_0000000000000000_00000000_00000000#136) = .ok (.psgHq false) := by
  decide +kernel
theorem decode_psgMute : decode 0 (.command 0x26_0000000000000000_FFFFFFFF_00000001#136) =
    .ok (.psgMute (-1) true) := by decide +kernel
theorem decode_rsCfg : decode 0 (.command 0x30_0000000400000003_00000000_00000000#136) = .ok (.rsCfg 3 4) := by
  decide +kernel
theorem decode_rsPush : decode 0 (.command 0x31_0000000000000000_000003E8_0000FC18#136) =
    .ok (.rsPush 1000 (-1000)) := by decide +kernel
theorem decode_rsHas : decode 0 (.command 0x32_0000000000000000_00000000_00000000#136) = .ok .rsHas := by
  decide +kernel
theorem decode_rsPop : decode 0 (.command 0x33_0000000000000000_00000000_00000000#136) = .ok .rsPop := by
  decide +kernel
theorem decode_rsRen : decode 0 (.command 0x34_0000000000000000_0000000C_00000000#136) = .ok (.rsRen 12) := by
  decide +kernel
theorem decode_latch0 : decode 7 (.psgByte 0b1_000_0100#8) = .ok (.latch0 4) := by decide +kernel
theorem decode_latch1 : decode 7 (.psgByte 0b1_001_1010#8) = .ok (.latch1 10) := by decide +kernel
theorem decode_latch2 : decode 7 (.psgByte 0b1_010_1110#8) = .ok (.latch2 14) := by decide +kernel
theorem decode_latch3 : decode 7 (.psgByte 0b1_011_0101#8) = .ok (.latch3 5) := by decide +kernel
theorem decode_latch4 : decode 7 (.psgByte 0b1_100_1001#8) = .ok (.latch4 9) := by decide +kernel
theorem decode_latch5 : decode 7 (.psgByte 0b1_101_0000#8) = .ok (.latch5 0) := by decide +kernel
theorem decode_latch6 : decode 7 (.psgByte 0b1_110_0111#8) = .ok (.latch6 7) := by decide +kernel
theorem decode_latch7 : decode 0 (.psgByte 0b1_111_0010#8) = .ok (.latch7 2) := by decide +kernel
theorem decode_data0 : decode 0 (.psgByte 0b0_0_111110#8) = .ok (.data0 0x3E) := by decide +kernel
theorem decode_data1 : decode 1 (.psgByte 0b0_0_110111#8) = .ok (.data1 0x37) := by decide +kernel
theorem decode_data2 : decode 2 (.psgByte 0b0_0_000001#8) = .ok (.data2 1) := by decide +kernel
theorem decode_data3 : decode 3 (.psgByte 0b0_0_001111#8) = .ok (.data3 15) := by decide +kernel
theorem decode_data4 : decode 4 (.psgByte 0b0_0_000001#8) = .ok (.data4 1) := by decide +kernel
theorem decode_data5 : decode 5 (.psgByte 0b0_0_100010#8) = .ok (.data5 0x22) := by decide +kernel
theorem decode_data6 : decode 6 (.psgByte 0b0_1_111110#8) = .ok (.data6 0x3E) := by decide +kernel
theorem decode_data7 : decode 7 (.psgByte 0b0_1_000100#8) = .ok (.data7 4) := by decide +kernel

/-- The opcodes next to the used ones are reserved (30_encoding.md R102, R108). -/
theorem decode_reserved :
    decode 0 (.command 0x00_0000000000000000_00000000_00000000#136) = .error (.reservedOpcode 0x00) ∧
    decode 0 (.command 0x0F_0000000000000000_00000000_00000000#136) = .error (.reservedOpcode 0x0F) ∧
    decode 0 (.command 0x16_0000000000000000_00000000_00000000#136) = .error (.reservedOpcode 0x16) ∧
    decode 0 (.command 0x27_0000000000000000_00000000_00000000#136) = .error (.reservedOpcode 0x27) ∧
    decode 0 (.command 0x35_0000000000000000_00000000_00000000#136) = .error (.reservedOpcode 0x35) ∧
    decode 0 (.command 0xFF_0000000000000000_00000000_00000000#136) = .error (.reservedOpcode 0xFF) := by
  decide +kernel

/-- A word of the table's numbering decodes and is what the next step fetches (entry 2). -/
theorem test_table_word : decodeTableWord 136 0x25_0000000000000000_00000001_00000000 = some (.psgHq true) ∧
    decodeTableWord 8 0x9A = some (.latch1 10) ∧ decodeTableWord 16 0x9A = none := by decide +kernel

/-! ### One step on a small state -/

/-- The state an outcome goes on in. -/
def nextOf (o : Host.Outcome State Fault Refusal) : Option State :=
  match o with
  | .next t => some t
  | .fault _ => none
  | .refused _ => none

/-- What a function reads of the next state. -/
def after {α : Type} (i : Instr) (s : State) (f : State → α) : Option α := (nextOf (exec i s)).map f

/-- The power-on state with a `factor` and an `offset`. -/
def atRate (f o : Int) : State := State.reset.withDbuf { State.reset.dbuf with factor := s64 f, offset := s64 o }

/-- The same in ACCURATE with R = 4. -/
def accurate : State := State.powerOn { paramsDefault with variant := .accurate, mcyclesRatio := 4 }

/-- Slots `i` to `i + n - 1` of the left lane. -/
def slots (i n : Nat) (s : State) : List Int := (List.range n).map fun k => (s.dbuf.buf.l.read (i + k)).toInt

/-- A state whose PSG differs from power-on. -/
def withPsg (s : State) (f : Psg → Psg) : State := s.withPsg (f s.psg)

/-- V1. -/
theorem test_dbCfg : after (.dbCfg 3579545 16 44100) State.reset (·.dbuf.factor) = some 206696 := by decide +kernel
theorem test_dbCfg_zero : after (.dbCfg 0 1 44100) (atRate 5 0) (·.dbuf.factor) = some 0 := by decide +kernel

/-- V1: `offset` = factor >> 1. -/
theorem test_dbClr : after .dbClr (atRate 206696 7) (fun t => (t.dbuf.offset, t.dbuf.factor)) =
    some (103348, 206696) := by decide +kernel

/-- V2 and V3c. -/
theorem test_dbAdd : after (.dbAdd 100 1000 (-1000)) (atRate 206696 103348) (slots 19 16) =
    some [9120, 15580, -62160, 307980, -481860, 1354480, -1384620, 9699540, 20239740, 2616640, -142960, 709200,
      -341960, 302160, -119820, 46940] := by decide +kernel
theorem test_dbAdd_rounding : after (.dbAdd 0 2 0) (atRate 1048576 20000) (slots 0 16) =
    some [87, -233, 698, -961, 2212, -1713, 11135, 42023, 12325, -1935, 2326, -987, 700, -225, 83, 1] := by
  decide +kernel

/-- V3d and V7. -/
theorem test_dbAddf : after (.dbAddf 100 1000 (-1)) (atRate 206696 103348) (slots 25 4) =
    some [0, 6206000, 26562000, 0] := by decide +kernel
theorem test_dbAddf_clamped : after (.dbAddf (-3) 5 7) (atRate 1048576 524288) (slots 6 3) =
    some [0, 163840, 0] := by decide +kernel

/-- V10. -/
theorem test_dbEnd : after (.dbEnd 5073) (atRate 206696 103348) (·.dbuf.offset) = some 1048672156 := by
  decide +kernel

/-- V9: n = 3 and the elements from 3 on stay; the host's elements wrap (R79, hand calculation with an integrator of
32768 * 5 and a host element of 2147483647). -/
theorem test_dbRd : after (.dbRd 10) (atRate 1048576 3670016) (fun t => (t.host.rsp, t.dbuf.offset)) =
    some (3, 524288) := by decide +kernel
theorem test_dbRd_wraps :
    after (.dbRd 1)
      (((atRate 0 1048576).withDbuf { (atRate 0 1048576).dbuf with integ := ⟨163840, 0⟩ }).withOut
        ⟨[(0, 2147483647#32)], []⟩)
      (fun t => ((t.host.out.l.read 0).toInt, t.dbuf.integ.l.toInt)) = some (-2147483644, 163520) := by
  decide +kernel

/-- C1: `PSG.RST` on a DISCRETE chip. -/
theorem test_psgRst : after .psgRst (withPsg State.reset fun g => { g with chipType := .discrete, latch := 5 })
    (fun t => (t.psg.noiseShiftValue, t.psg.freqInc, t.psg.latch)) =
    some (0x4000, ⟨1024, 1024, 1024, 16⟩, 0) := by decide +kernel

/-- Y1: `sync` rounds up to a cycle in ACCURATE; P4, command 8: the flip at 0 and the falling difference at 13. -/
theorem test_psgWr_rounds : after (.psgWr 13 0x80) accurate (·.psg.clocks) = some 16 := by decide +kernel
theorem test_psgWr_emits :
    after (.psgWr 13 0xB4)
      (withPsg (atRate 262144 131072) fun g => { g with
        hqMode := false, freqInc := ⟨1, 16, 1, 16⟩, chanOut := g.chanOut.set .c1 ⟨1766, 1766⟩ })
      (fun t => (slots 7 5 t, t.psg.freqCounter, t.psg.polarity.q1, t.psg.noiseShiftValue)) =
    some ([50634752, 7233536, 0, -13352960, -8011776], ⟨13, 16, 13, 16⟩, .plus, 0x4000) := by decide +kernel

/-- P2, command 8 in little: one frame of T = 8 ticks returns n and T and rebases the time (R198); P1: no rate, no
sample. -/
theorem test_psgRen : after (.psgRen 1) (withPsg (atRate 131072 65536) fun g => { g with freqInc := ⟨24, 8, 5, 16⟩ })
    (fun t => (t.host.rsp, t.psg.clocks, t.psg.freqCounter)) =
    some (0x0000000800000001, 0, ⟨16, 0, 2, 8⟩) := by decide +kernel
theorem test_psgRen_before_cfg : after (.psgRen 4) State.reset (·.host.rsp) = some 0 := by decide +kernel

/-- V1, last row. -/
theorem test_psgRate :
    after (.psgRate 48000) (State.reset.withDbuf { State.reset.dbuf with clkNum := 3579545, clkDen := 16, offset := 9 })
      (fun t => (t.dbuf.factor, t.dbuf.offset)) = some (224975, 9) := by decide +kernel

/-- C1. -/
theorem test_psgChip : after (.psgChip .discrete) State.reset (fun t => (t.psg.noiseShiftValue, t.psg.freqInc)) =
    some (0, ⟨1, 1, 1, 16⟩) := by decide +kernel

theorem test_psgHq : after (.psgHq false) State.reset (·.psg.hqMode) = some false := by decide +kernel

/-- M2 (ACCURATE, channel high) and M3. -/
theorem test_psgMute :
    after (.psgMute 0 true) (withPsg accurate fun g => { g with
      regs := { g.regs with tone1Att := 0 }, polarity := g.polarity.set .c0 .plus, chanOut := g.chanOut.set .c0 ⟨2800, 2800⟩ })
      (fun t => (t.psg.chanDelta.q0, t.psg.chanOut.q0)) = some (⟨-2800, -2800⟩, ⟨0, 0⟩) := by decide +kernel
theorem test_psgMute_outside : after (.psgMute 4 true) State.reset (·.psg) = some State.reset.psg := by decide +kernel

/-- RS1. -/
theorem test_rsCfg : after (.rsCfg 44100 48000) State.reset (·.rs.rsStep) = some 963379 := by decide +kernel
theorem test_rsCfg_zero : after (.rsCfg 5 0) State.reset (·.rs.rsStep) = some 0 := by decide +kernel

/-- R234: the ring index is `rsWr` mod 32. -/
theorem test_rsPush :
    after (.rsPush 1000 (-1000)) (State.reset.withRs { State.reset.rs with rsWr := 33 })
      (fun t => (t.rs.hist.l, t.rs.hist.r, t.rs.rsWr)) = some ([(1, 1000#16)], [(1, -1000#16)], 34) := by
  decide +kernel

/-- RS7. -/
theorem test_rsHas_false : after .rsHas (State.reset.withRs { State.reset.rs with rsWr := 8 }) (·.host.rsp) =
    some 0 := by decide +kernel
theorem test_rsHas_true : after .rsHas (State.reset.withRs { State.reset.rs with rsWr := 9 }) (·.host.rsp) =
    some 1 := by decide +kernel

/-- RS8 (a) and RS9. -/
theorem test_rsPop :
    after .rsPop (State.reset.withRs ⟨1048576, 0, 1, ⟨[(0, 1000#16)], [(0, -1000#16)]⟩⟩)
      (fun t => (t.host.rsp, t.rs.rsPos)) = some (0xFC90036F, 1048576) := by decide +kernel
theorem test_rsPop_phase :
    after .rsPop (State.reset.withRs ⟨0, 3 * 1048576 + 0xFBFFF, 32, ⟨[(4, 1000#16)], []⟩⟩) (·.host.rsp) =
      some 878 := by decide +kernel

/-- RS10 with one output: 9 inputs pulled, output 93. -/
theorem test_rsRen :
    after (.rsRen 1) (State.reset.withHost { State.reset.host with answers := List.replicate 10 ⟨100, 100⟩ })
      (fun t => (t.host.out.l.read 0, t.host.pulled, t.host.answers.length)) = some (93, 9, 1) := by decide +kernel

/-- W2, W9 and W6: LATCH 0 keeps the high bits; LATCH 4 moves a linked noise; period 0 acts as 1. -/
theorem test_latch0 : after (.latch0 15) (withPsg State.reset fun g => { g with regs := { g.regs with tone1Freq := 1008 } })
    (fun t => (t.psg.regs.tone1Freq, t.psg.freqInc.q0)) = some (1023, 1023) := by decide +kernel
theorem test_latch1 : after (.latch1 10) State.reset (fun t => (t.psg.regs.tone1Att, t.psg.latch, t.psg.chanOut.q0)) =
    some (10, 1, ⟨280, 280⟩) := by decide +kernel
theorem test_latch2 : after (.latch2 14) State.reset (fun t => (t.psg.regs.tone2Freq, t.psg.freqInc.q1)) =
    some (14, 14) := by decide +kernel
theorem test_latch3 : after (.latch3 5) State.reset (fun t => (t.psg.chanOut.q1, t.dbuf.buf.l)) =
    some (⟨885, 885⟩, []) := by decide +kernel
theorem test_latch4 :
    after (.latch4 3) (withPsg State.reset fun g => { g with regs := { g.regs with tone3Freq := 21, noiseCtrl := 7 } })
      (fun t => (t.psg.regs.tone3Freq, t.psg.freqInc)) = some (19, ⟨1, 1, 19, 19⟩) := by decide +kernel
theorem test_latch5 : after (.latch5 0) State.reset (fun t => (t.psg.regs.tone3Att, t.psg.chanOut.q2)) =
    some (0, ⟨2800, 2800⟩) := by decide +kernel
theorem test_latch6 :
    after (.latch6 15) (withPsg State.reset fun g => { g with freqInc := ⟨1, 1, 21, 16⟩, noiseShiftValue := 2 })
      (fun t => (t.psg.regs.noiseCtrl, t.psg.freqInc.q3, t.psg.noiseShiftValue)) = some (7, 21, 0x8000) := by
  decide +kernel
theorem test_latch7 : after (.latch7 0) State.reset (fun t => (t.psg.regs.noiseAtt, t.psg.chanOut.q3)) =
    some (0, ⟨2800, 2800⟩) := by decide +kernel

/-- W1, W3, W12, W14, W7, W15, W4, W5. -/
theorem test_data0 : after (.data0 0x3F) State.reset (fun t => (t.psg.regs.tone1Freq, t.psg.freqInc.q0, t.psg.latch)) =
    some (1008, 1008, 0) := by decide +kernel
theorem test_data1 : after (.data1 0x37) State.reset (fun t => (t.psg.regs.tone1Att, t.psg.chanOut.q0)) =
    some (7, ⟨558, 558⟩) := by decide +kernel
theorem test_data2 : after (.data2 1) (withPsg State.reset fun g => { g with regs := { g.regs with tone2Freq := 14 } })
    (fun t => (t.psg.regs.tone2Freq, t.psg.freqInc.q1)) = some (30, 30) := by decide +kernel
theorem test_data3 : after (.data3 0x0F) (withPsg State.reset fun g => { g with regs := { g.regs with tone2Att := 5 } })
    (fun t => (t.psg.regs.tone2Att, t.psg.chanOut.q1)) = some (15, ⟨0, 0⟩) := by decide +kernel
theorem test_data4 : after (.data4 1) (withPsg State.reset fun g => { g with regs := { g.regs with tone3Freq := 5 } })
    (fun t => (t.psg.regs.tone3Freq, t.psg.freqInc)) = some (21, ⟨1, 1, 21, 16⟩) := by decide +kernel
theorem test_data5 : after (.data5 0x22) State.reset (fun t => (t.psg.regs.tone3Att, t.psg.chanOut.q2)) =
    some (2, ⟨1766, 1766⟩) := by decide +kernel
theorem test_data6 : after (.data6 0x3E) State.reset (fun t => (t.psg.regs.noiseCtrl, t.psg.freqInc.q3)) =
    some (6, 64) := by decide +kernel
theorem test_data7 : after (.data7 4) State.reset (fun t => (t.psg.regs.noiseAtt, t.psg.chanOut.q3)) =
    some (4, ⟨1114, 1114⟩) := by decide +kernel

/-- N5: the noise reset owes a falling delta while the output bit is 1 (ACCURATE). -/
theorem test_noise_reset_owes :
    after (.latch6 4) (withPsg accurate fun g => { g with noiseShiftValue := 0x2001, chanOut := g.chanOut.set .c3 ⟨2800, 2800⟩ })
      (fun t => (t.psg.chanDelta.q3, t.psg.noiseShiftValue)) = some (⟨-2800, -2800⟩, 0x8000) := by decide +kernel

/-- N1, N2, N3: a shift with white feedback and one with periodic feedback. -/
theorem test_lfsr : lfsrNext true 16 0x0009 0x0008 = 0x8004 ∧ lfsrNext true 15 0x0003 0x4001 = 0x6000 ∧
    lfsrNext false 16 0x0009 0x0001 = 0x8000 ∧ lfsrNext false 15 0x0003 0x0001 = 0x4000 := by decide +kernel

/-- Every phase row of SINC has unit gain (43_resampler.md R239). -/
theorem test_sinc_rows : (List.range 33).all (fun p => (sinc.getD p []).sum == 32768 && (sinc.getD p []).length == 16) := by
  decide +kernel

/-- A reserved opcode is refused by `step` (30_encoding.md R108). -/
theorem test_step_refuses :
    (match step (State.reset.withFetchWord 136 (0x16 * 2 ^ 128)) with
      | .refused r => decide (r = .reservedOpcode 0x16)
      | .next _ => false
      | .fault _ => false) = true := by decide +kernel

/-- DB_MAX_SLOTS: a `DB.ADD` that needs 16 slots is refused at 15 (20_memory.md R76). -/
theorem test_bound_refuses :
    (match exec (.dbAdd 0 1 1) (State.reset.withBound (some 15)) with
      | .refused r => decide (r = .slotsExceeded 16)
      | .next _ => false
      | .fault _ => false) = true := by decide +kernel

/-- Examples of 30_encoding.md R118. -/
theorem test_asm : (Instr.dbCfg 3579545 16 44100).asm = "DB.CFG 3579545/16, 44100" ∧
    (Instr.dbAdd 100 (-3) 7).asm = "DB.ADD 100, -3, 7" ∧ (Instr.psgChip .discrete).asm = "PSG.CHIP DISCRETE" ∧
    Instr.rsPop.asm = "RS.POP" := by decide +kernel

/-- 30_encoding.md R119: TONE and VOL. -/
theorem test_pseudo : (Pseudo.tone 7 2 0x3A5).expand = [.psgWr 7 0xC5, .psgWr 7 0x3A] ∧
    (Pseudo.vol 7 3 9).expand = [.psgWr 7 0xF9] := by decide +kernel

/-! ### Witnesses: a concrete state and operands that meet the hypotheses of each statement, clause by clause at a
boundary value -/

theorem wf_pair_nil {w : Nat} : pairWf (⟨[], []⟩ : Stereo (Memory w)) := fun x => by cases x <;> rfl

/-- One slot in each lane: the state the delta buffer's witnesses use. -/
def oneSlot : State := State.reset.withDbuf { State.reset.dbuf with buf := ⟨[(0, 5#32)], [(3, 7#32)]⟩, offset := 1048576 }

theorem wf_oneSlot : pairWf oneSlot.dbuf.buf := fun x => by cases x <;> rfl

theorem witness_DecodeEncodeRoundTrip : (Instr.data3 9).wellFormed 3 = true ∧
    decode 3 (encode (.data3 9)) = .ok (.data3 9) := by decide +kernel

theorem witness_UnusedOperandBitsIgnored :
    (0x1FF#32).setWidth 8 = (0xFF#32).setWidth 8 ∧ (2#32).getLsbD 0 = (0#32).getLsbD 0 ∧
    (0xFFFFFFFF#32).getLsbD 0 = (1#32).getLsbD 0 ∧ (0x10001#32).setWidth 16 = (1#32).setWidth 16 := by decide

/-- Refused: 0x16; taken: 0x15. -/
theorem witness_ReservedOpcodesAreRefused :
    (State.reset.withFetchWord 136 (0x16 * 2 ^ 128)).host.events =
      .present (.command (BitVec.ofNat 136 (0x16 * 2 ^ 128))) none [] :: [] ∧
    (BitVec.ofNat 136 (0x16 * 2 ^ 128)).extractLsb' 128 8 ∉ commandOpcodes ∧
    (BitVec.ofNat 136 (0x15 * 2 ^ 128)).extractLsb' 128 8 ∈ commandOpcodes := by decide +kernel

theorem witness_EveryByteSelectsOneForm : (0x80#8).msb = true ∧ (0x7F#8).msb = false := by decide

theorem witness_StepRunsDecodedInstruction :
    (State.reset.withFetchWord 8 0x9F).host.events = .present (.psgByte 0x9F) none [] :: [] ∧
    decode (State.reset.withFetchWord 8 0x9F).psg.latch (.psgByte 0x9F) = .ok (.latch1 15) := by decide +kernel

theorem witness_IdleAndResetSteps : State.reset.host.events = [] ∧
    (State.reset.withHost { State.reset.host with events := [.reset] }).host.events = .reset :: [] := ⟨rfl, rfl⟩

/-- The reset state with a mute command presented meets the invariant, and its step has a next state. -/
theorem witness_StepKeepsInvariant : (State.reset.withFetchWord 136 (0x26 * 2 ^ 128 + 1)).Inv ∧
    ∃ t, step (State.reset.withFetchWord 136 (0x26 * 2 ^ 128 + 1)) = .next t := by
  refine ⟨?_, ?_⟩
  · exact {
      params := test_params_default
      bufWf := wf_pair_nil
      beyondCap := fun x j _ => by cases x <;> rfl
      histWf := wf_pair_nil
      histSize := fun x j _ => by cases x <;> rfl
      outWf := wf_pair_nil
      eventsWf := fun e he => by
        rcases List.mem_singleton.mp he with rfl
        exact trivial
      freqIncPos := fun ch => by cases ch <;> decide
      noPending := fun _ => rfl
      outIsAmp := fun ch => by cases ch <;> decide
      lfsrWidth := by decide
      clocksNonneg := fun _ => by decide
      within := fun m hm => nomatch (show (none : Option Nat) = some m from hm) }
  · cases h : step (State.reset.withFetchWord 136 (0x26 * 2 ^ 128 + 1)) with
    | next t => exact ⟨t, rfl⟩
    | fault f => exact nomatch f
    | refused r =>
      exact absurd (show (nextOf (step (State.reset.withFetchWord 136 (0x26 * 2 ^ 128 + 1)))).isSome = true from by
        decide +kernel) (by rw [h]; simp [nextOf])

/-- The clause on `clocks`: the last time that fits, in ACCURATE, and the state it is presented to. -/
theorem witness_StepKeepsInvariant_clocks :
    0 ≤ accurate.psg.clocks.toInt ∧ timeFits accurate (.psgWr 0x7FFFFFFFFFFFFFFC 0x80) ∧
    ¬ timeFits accurate (.psgWr 0x7FFFFFFFFFFFFFFD 0x80) ∧ timeFits accurate (.psgRen 24) ∧
    decode accurate.psg.latch (.command 0x21_7FFFFFFFFFFFFFFC_00000080_00000000#136) =
      .ok (.psgWr 0x7FFFFFFFFFFFFFFC 0x80) := by
  unfold timeFits
  decide +kernel

theorem witness_PowerOnMeetsInvariant : paramsDefault.wf = true ∧
    ({ paramsDefault with variant := .accurate, mcyclesRatio := 16, dbMaxSlots := some 0 } : Params).wf = true := by
  decide +kernel

theorem witness_ParametersNeverChange : ∃ t, step State.reset = .next t := ⟨_, rfl⟩

theorem witness_CapacityNeverShrinks : ∃ t, exec (.psgHq false) State.reset = .next t := ⟨_, rfl⟩

/-- Both clauses: a command that completes and one that is refused. -/
theorem witness_CapacityIsUnobservable : (∃ t, exec (.psgHq false) State.reset = .next t) ∧
    ∃ r, exec (.latch1 0)
      ((State.reset.withBound (some 0)).withDbuf { State.reset.dbuf with peakNeed := 1 }) = .refused r :=
  ⟨⟨_, rfl⟩, ⟨_, rfl⟩⟩

/-- `DB.ADD` at slot 0 needs 16 slots: m = 16 meets the first clause, m = 15 the second. -/
theorem witness_BoundedInstanceFollowsUnbounded :
    State.reset.dbuf.peakNeed ≤ 15 ∧
    after (.dbAdd 0 1 1) (State.reset.withBound none) (·.dbuf.peakNeed) = some 16 := by decide +kernel

/-- A position of -1 and one of 0. -/
theorem witness_FixedTimeWrapsThenClamps :
    (0 * (atRate 0 (-1)).dbuf.factor + (atRate 0 (-1)).dbuf.offset : Time).toInt < 0 ∧
    0 ≤ (0 * (atRate 0 0).dbuf.factor + (atRate 0 0).dbuf.offset : Time).toInt := by decide +kernel

theorem witness_DbAddWritesSixteenSlots : oneSlot.Unbounded ∧ pairWf oneSlot.dbuf.buf := ⟨rfl, wf_oneSlot⟩

/-- The slots just inside and just outside the sixteen. -/
theorem witness_DbAddWritesSixteenSlots_edges :
    let idx := slotIndex (fixedTime oneSlot.dbuf 0)
    idx = 1 ∧ (0 < idx ∨ idx + 16 ≤ 0) ∧ (17 < idx ∨ idx + 16 ≤ 17) ∧ ¬(16 < idx ∨ idx + 16 ≤ 16) := by
  decide +kernel

theorem witness_DbAddfWritesTwoSlots : oneSlot.Unbounded ∧ pairWf oneSlot.dbuf.buf := ⟨rfl, wf_oneSlot⟩

theorem witness_DbRdDeliversSamples : pairWf oneSlot.dbuf.buf ∧ pairWf oneSlot.host.out ∧
    min (2#32).toNat (oneSlot.dbuf.offset.toInt / 2 ^ 20).toNat = 1 := ⟨wf_oneSlot, wf_pair_nil, by decide +kernel⟩

/-- The last values inside and the first outside the range, on both sides. -/
theorem witness_SampleIsClamped :
    (-32768 ≤ (0x3FFFFFFF#32).toInt / 32768 ∧ (0x3FFFFFFF#32).toInt / 32768 ≤ 32767) ∧
    32767 < (0x40000000#32).toInt / 32768 ∧
    (-32768 ≤ (0xC0000000#32).toInt / 32768 ∧ (0xC0000000#32).toInt / 32768 ≤ 32767) ∧
    (0xBFFFFFFF#32).toInt / 32768 < -32768 := by decide +kernel

theorem witness_DbRdAccounting : pairWf oneSlot.dbuf.buf := wf_oneSlot

theorem witness_SplitReadsAgree : (0xFFFFFFFE#32).toNat + (1#32).toNat < 2 ^ 32 ∧ pairWf oneSlot.dbuf.buf :=
  ⟨by decide, wf_oneSlot⟩

theorem witness_StepHeightIsConserved : oneSlot.Unbounded ∧ pairWf oneSlot.dbuf.buf ∧
    oneSlot.params.kernelOk = true := ⟨rfl, wf_oneSlot, by decide +kernel⟩

theorem witness_DbAddIsOdd : oneSlot.Unbounded ∧ pairWf oneSlot.dbuf.buf ∧
    (0x80000001#32) ≠ BitVec.intMin 32 ∧ (0x7FFFFFFF#32) ≠ BitVec.intMin 32 := ⟨rfl, wf_oneSlot, by decide, by decide⟩

theorem witness_DeltaOrderIsIrrelevant : oneSlot.Unbounded ∧ pairWf oneSlot.dbuf.buf := ⟨rfl, wf_oneSlot⟩

/-- `factor` 0 and 1, T at its least and one below, and an advance of `offset` that ends just inside 64 bits. -/
theorem witness_ClocksNeededIsSmallest :
    (atRate 0 0).dbuf.factor.toInt ≤ 0 ∧ 0 < (atRate 1 0).dbuf.factor.toInt ∧
    clocksNeeded (atRate 1 0).dbuf 1 = 1048576 ∧
    (let s := atRate (2 ^ 62) (2 ^ 62 - 1)
     0 < s.dbuf.factor.toInt ∧ clocksNeeded s.dbuf 0xFFFFFFFF = 0 ∧
     s.dbuf.offset.toInt + clocksNeeded s.dbuf 0xFFFFFFFF * s.dbuf.factor.toInt < 2 ^ 63 ∧
     clocksNeeded s.dbuf 0xFFFFFFFF < 2 ^ 63) ∧
    (let s := atRate 1048576 (-1)
     clocksNeeded s.dbuf 1 = 2 ∧ (0 : Int) ≤ 1 ∧ 1 < clocksNeeded s.dbuf 1 ∧
     s.dbuf.offset.toInt + clocksNeeded s.dbuf 1 * s.dbuf.factor.toInt < 2 ^ 63) := by decide +kernel

theorem witness_AmpFollowsTable :
    (withPsg State.reset fun g => { g with mutes := Quad.all true }).psg.mutes.get .c0 = true ∧
    State.reset.psg.mutes.get .c3 = false := by decide

/-- The state with every channel high, and the same in ACCURATE. -/
def allHigh (s : State) : State :=
  withPsg s fun g => { g with
    polarity := Quad.all .plus, noiseShiftValue := 1, chanOut := Quad.all ⟨140, 140⟩, clocks := 5 }

theorem within_reset : State.reset.Within := fun m hm => nomatch (show (none : Option Nat) = some m from hm)
theorem within_bounded : (State.reset.withBound (some 0)).Within := fun m hm => by
  cases Option.some.inj hm
  exact Nat.le_refl 0
theorem within_accurate : (allHigh accurate).Within := fun m hm => nomatch (show (none : Option Nat) = some m from hm)

theorem witness_AttenuationWriteOnLowChannel :
    attWrite State.reset.psg (.latch1 0) = some (.c0, 0, 1) ∧ State.reset.Within ∧ high State.reset.psg .c0 = false ∧
    attWrite State.reset.psg (.data7 0x3F) = some (.c3, 15, 0) ∧ high State.reset.psg .c3 = false :=
  ⟨by decide, within_reset, by decide, by decide, by decide⟩

theorem witness_AttenuationWriteOnHighBaseline :
    attWrite (allHigh State.reset).psg (.latch1 0) = some (.c0, 0, 1) ∧ (allHigh State.reset).Unbounded ∧
    (allHigh State.reset).params.variant = .baseline ∧ high (allHigh State.reset).psg .c0 = true ∧
    attWrite (allHigh State.reset).psg (.data7 0x3F) = some (.c3, 15, 0) ∧
    high (allHigh State.reset).psg .c3 = true := by
  refine ⟨?_, rfl, ?_⟩ <;> decide

theorem witness_AttenuationWriteOnHighAccurate :
    attWrite (allHigh accurate).psg (.latch1 0) = some (.c0, 0, 1) ∧ (allHigh accurate).Within ∧
    (allHigh accurate).params.variant = .accurate ∧ high (allHigh accurate).psg .c0 = true := by
  refine ⟨by decide, within_accurate, by decide, by decide⟩

/-- The three clauses: output bit 0; output bit 1 in ACCURATE; output bit 1 in BASELINE. -/
theorem witness_NoiseControlForms :
    (noiseWrite State.reset.psg (.latch6 7) = some (7, 6) ∧ State.reset.psg.noiseShiftValue.getLsbD 0 = false ∧
      State.reset.Within) ∧
    (noiseWrite (allHigh accurate).psg (.data6 0x3F) = some (7, 0) ∧
      (allHigh accurate).psg.noiseShiftValue.getLsbD 0 = true ∧ (allHigh accurate).params.variant = .accurate ∧
      (allHigh accurate).Within) ∧
    ((allHigh State.reset).psg.noiseShiftValue.getLsbD 0 = true ∧
      (allHigh State.reset).params.variant = .baseline ∧ (allHigh State.reset).Unbounded) :=
  ⟨⟨by decide, by decide, within_reset⟩, ⟨by decide, by decide, by decide, within_accurate⟩,
    ⟨by decide, by decide, rfl⟩⟩

/-- A write stamped exactly at `clocks`, and one earlier. -/
theorem witness_LateWriteAppliesNow : (5 : Time).toInt ≤ (allHigh State.reset).psg.clocks.toInt ∧
    (-1 : Time).toInt ≤ (allHigh State.reset).psg.clocks.toInt ∧ State.reset.Within :=
  ⟨by decide, by decide, within_reset⟩

/-- A LATCH and a DATA byte; t at `clocks`, one past it, and the last t whose cycle boundary fits 64 bits. -/
theorem witness_PsgWrCompletes :
    (allHigh State.reset).Unbounded ∧ (0x80 ≤ (0x80#8).toNat) ∧ (0x7F#8).toNat < 0x80 ∧
    (5 : Time).toInt ≤ (allHigh State.reset).psg.clocks.toInt ∧
    ((allHigh State.reset).psg.clocks.toInt < (6 : Time).toInt ∧ (allHigh State.reset).params.variant = .baseline) ∧
    (accurate.psg.clocks.toInt < (0x7FFFFFFFFFFFFFFC : Time).toInt ∧ 1 ≤ ratioOf accurate.params ∧
      (0x7FFFFFFFFFFFFFFC : Time).toInt + ratioOf accurate.params ≤ 2 ^ 63) := by
  refine ⟨rfl, ?_⟩
  decide

/-- Power-on with the next flips at t = 1: channels run at t = 2, are not run at t = 1; and the last t whose next flip
fits 64 bits. -/
theorem witness_ChannelsRunToTarget :
    State.reset.Unbounded ∧ State.reset.psg.clocks.toInt < (1 : Time).toInt ∧
    (∀ ch : Chan, 1 ≤ (State.reset.psg.freqInc.get ch).toInt ∧
      (1 : Time).toInt + (State.reset.psg.freqInc.get ch).toInt < 2 ^ 63 ∧
      (0x7FFFFFFFFFFFFFEF : Time).toInt + (State.reset.psg.freqInc.get ch).toInt < 2 ^ 63) ∧
    (∀ ch : Chan, (0 : Time).toInt ≤ (State.reset.psg.freqCounter.get ch).toInt) :=
  ⟨rfl, by decide, fun ch => by cases ch <;> decide, fun ch => by cases ch <;> decide⟩

theorem witness_LfsrShiftsOncePerHighFlip :
    State.reset.Unbounded ∧ State.reset.psg.clocks.toInt < (33 : Time).toInt ∧
    (1 ≤ State.reset.psg.freqInc.q3.toInt ∧ (33 : Time).toInt + State.reset.psg.freqInc.q3.toInt < 2 ^ 63) ∧
    writesNoiseControl State.reset.psg.latch 0x7F = false ∧ writesNoiseControl State.reset.psg.latch 0xF0 = false := by
  refine ⟨rfl, ?_⟩
  decide

theorem witness_SyncEmitsDeltasAtFlips :
    (allHigh State.reset).Unbounded ∧ (allHigh State.reset).psg.clocks.toInt < (6 : Time).toInt := ⟨rfl, by decide⟩

/-- The three kinds of instruction. -/
theorem witness_SlotsAccountForLevels :
    isByteForm (.latch6 4) = true ∧ (∃ t b, Instr.psgWr 9 0xE4 = .psgWr t b) ∧
    (∃ ch x, Instr.psgMute 0 true = .psgMute ch x) ∧ oneSlot.Unbounded ∧ pairWf oneSlot.dbuf.buf ∧
    oneSlot.params.kernelOk = true :=
  ⟨rfl, ⟨_, _, rfl⟩, ⟨_, _, rfl⟩, rfl, wf_oneSlot, by decide +kernel⟩

/-- T below, at and above `clocks`. -/
theorem witness_PsgRenAdvancesOneFrame :
    (atRate 131072 65536).Unbounded ∧ pairWf (atRate 131072 65536).host.out ∧
    clocksNeeded (atRate 131072 65536).dbuf 0 = (atRate 131072 65536).psg.clocks.toInt ∧
    (atRate 131072 65536).psg.clocks.toInt < clocksNeeded (atRate 131072 65536).dbuf 1 ∧
    (atRate 131072 65536).params.variant = .baseline :=
  ⟨rfl, wf_pair_nil, by decide +kernel, by decide +kernel, by decide⟩

theorem witness_RenderRunsChannelsAndReads :
    (atRate 131072 65536).Unbounded ∧ pairWf (atRate 131072 65536).dbuf.buf ∧
    pairWf (atRate 131072 65536).host.out ∧ clocksNeeded (atRate 131072 65536).dbuf 24 < 2 ^ 63 :=
  ⟨rfl, wf_pair_nil, wf_pair_nil, by decide +kernel⟩

theorem witness_RenderGivesCountSamples :
    (atRate 131072 65536).Unbounded ∧ 0 < (atRate 131072 65536).dbuf.factor.toInt ∧
    (atRate 131072 65536).dbuf.offset.toInt +
      clocksNeeded (atRate 131072 65536).dbuf 24 * (atRate 131072 65536).dbuf.factor.toInt < 2 ^ 63 :=
  ⟨rfl, by decide, by decide +kernel⟩

theorem witness_SilentChipRendersSilence :
    (atRate 131072 65536).Unbounded ∧ pairWf (atRate 131072 65536).host.out ∧
    (atRate 131072 65536).psg.chanOut = Quad.all ⟨0, 0⟩ ∧ (atRate 131072 65536).psg.chanDelta = Quad.all ⟨0, 0⟩ ∧
    (atRate 131072 65536).dbuf.buf = ⟨[], []⟩ ∧ (atRate 131072 65536).dbuf.integ = ⟨0, 0⟩ :=
  ⟨rfl, wf_pair_nil, rfl, rfl, rfl, rfl⟩

/-- Channel operands -1 and 4; an unchanged flag; a low channel; a high one in each variant. -/
theorem witness_PsgMuteCases :
    (-1 : BitVec 32).toInt < 0 ∧ 3 < (4 : BitVec 32).toInt ∧ State.reset.Within ∧
    ((3 : BitVec 32).toInt = chanIndex .c3 ∧ State.reset.psg.mutes.get .c3 = false) ∧
    ((0 : BitVec 32).toInt = chanIndex .c0 ∧ State.reset.psg.mutes.get .c0 ≠ true ∧
      high State.reset.psg .c0 = false) ∧
    ((allHigh accurate).psg.mutes.get .c3 ≠ true ∧ high (allHigh accurate).psg .c3 = true ∧
      (allHigh accurate).params.variant = .accurate ∧ (allHigh accurate).Within) ∧
    ((allHigh State.reset).psg.mutes.get .c3 ≠ true ∧ high (allHigh State.reset).psg .c3 = true ∧
      (allHigh State.reset).params.variant = .baseline ∧ (allHigh State.reset).Unbounded) :=
  ⟨by decide, by decide, within_reset, by decide, by decide, ⟨by decide, by decide, by decide, within_accurate⟩,
    ⟨by decide, by decide, by decide, rfl⟩⟩

theorem witness_MuteTwiceRestores : (3 : BitVec 32).toInt = chanIndex .c3 ∧
    (State.reset.withFetchWord 136 (0x26 * 2 ^ 128 + 1)).Inv ∧
    (State.reset.withFetchWord 136 (0x26 * 2 ^ 128 + 1)).Unbounded :=
  ⟨by decide, witness_StepKeepsInvariant.1, rfl⟩

theorem witness_LfsrShiftAndPeriod : (0xFFFF : BitVec 16).toNat < 2 ^ 16 ∧ (0x7FFF : BitVec 16).toNat < 2 ^ 15 ∧
    (0 < 1 ∧ 1 < 15) ∧ (0 < 15 ∧ 15 < 16) := by
  decide

theorem witness_RsPushStoresOneSample : pairWf State.reset.rs.hist := wf_pair_nil

/-- A ring full of one value, at base 9. -/
def fullRing : State :=
  State.reset.withRs ⟨1048576, 9 * 1048576, 32,
    ⟨(List.range 32).map fun k => (k, 1234#16), (List.range 32).map fun k => (k, -4321#16)⟩⟩

theorem witness_ResamplerHasUnitGain :
    ∀ (x : Lane) (k : Nat), k < 16 →
      7 ≤ fullRing.rs.rsPos.toNat / 2 ^ 20 + k ∧
      (fullRing.rs.hist.lane x).read ((fullRing.rs.rsPos.toNat / 2 ^ 20 + 32 - 7 + k) % 32) =
        (⟨1234, -4321⟩ : Stereo Sample).lane x := by
  intro x
  cases x <;> decide +kernel

/-- The last position that does not wrap; and one input short of the next output. -/
theorem witness_RsRenPullsOnlyWhenNeeded :
    (let s := State.reset.withRs { State.reset.rs with rsStep := 1, rsPos := 0xFFFFFFFFFFFFFFFE }
     pairWf s.host.out ∧ s.rs.rsPos.toNat + (1#32).toNat * s.rs.rsStep.toNat < 2 ^ 64) ∧
    (let s := State.reset.withRs { State.reset.rs with rsWr := 8 }
     0 < (1#32).toNat ∧ s.rs.rsWr.toNat < s.rs.rsPos.toNat / 2 ^ 20 + 9) :=
  ⟨⟨wf_pair_nil, by decide⟩, by decide⟩

theorem witness_RsRenIsRepeatedPop :
    (let s := State.reset.withRs { State.reset.rs with rsWr := 9 }
     pairWf s.host.out ∧ s.rs.rsPos.toNat / 2 ^ 20 + 9 ≤ s.rs.rsWr.toNat) ∧
    (3#32).toNat + (4#32).toNat < 2 ^ 32 := ⟨⟨wf_pair_nil, by decide⟩, by decide⟩

theorem witness_ResamplerIsIndependent :
    (isResampler .rsHas = true ∧ ∃ t, exec .rsHas State.reset = .next t) ∧
    (isResampler (.psgHq false) = false ∧ ∃ t, exec (.psgHq false) State.reset = .next t) :=
  ⟨⟨rfl, _, rfl⟩, ⟨rfl, _, rfl⟩⟩

/-- Each clause's state does change under a command that it names. -/
theorem witness_OnlyNamedCommandsWrite :
    after (.psgMute 0 true) State.reset (fun t => decide (t.psg.mutes ≠ State.reset.psg.mutes)) = some true ∧
    after (.psgHq false) State.reset (fun t => decide (t.psg.hqMode ≠ State.reset.psg.hqMode)) = some true ∧
    after (.psgChip .discrete) State.reset (fun t => decide (t.psg.chipType ≠ State.reset.psg.chipType)) = some true ∧
    after (.dbCfg 1 1 1) State.reset (fun t => decide (t.dbuf.factor ≠ State.reset.dbuf.factor)) = some true ∧
    after (.dbEnd 1) (atRate 1 0) (fun t => decide (t.dbuf.offset ≠ (atRate 1 0).dbuf.offset)) = some true ∧
    after (.dbRd 1) oneSlot (fun t => decide (t.dbuf.integ ≠ oneSlot.dbuf.integ)) = some true ∧
    after (.latch0 5) State.reset (fun t => decide (t.psg.regs ≠ State.reset.psg.regs)) = some true ∧
    after (.psgWr 1 0x80) State.reset (fun t => decide (t.psg.clocks ≠ State.reset.psg.clocks)) = some true ∧
    after (.rsCfg 1 1) State.reset (fun t => decide (t.rs.rsStep ≠ State.reset.rs.rsStep)) = some true ∧
    after (.latch1 0) State.reset (fun t => decide (t.psg.chanOut ≠ State.reset.psg.chanOut)) = some true ∧
    after (.latch6 4) (allHigh accurate) (fun t => decide (t.psg.chanDelta ≠ (allHigh accurate).psg.chanDelta ∧
      t.psg.noiseShiftValue ≠ (allHigh accurate).psg.noiseShiftValue)) = some true ∧
    after (.dbCfg 1 1 1) State.reset (fun t => decide (t.dbuf.clkNum ≠ State.reset.dbuf.clkNum ∧
      t.dbuf.rate ≠ State.reset.dbuf.rate)) = some true ∧
    after (.dbAdd 0 1 1) (atRate 0 (2 ^ 25)) (fun t => decide (t.dbuf.cap ≠ State.reset.dbuf.cap ∧
      t.dbuf.buf ≠ State.reset.dbuf.buf)) = some true ∧
    after .rsPop fullRing (fun t => decide (t.rs.rsPos ≠ fullRing.rs.rsPos)) = some true ∧
    after (.rsPush 1 1) State.reset (fun t => decide (t.rs.rsWr ≠ State.reset.rs.rsWr ∧
      t.rs.hist ≠ State.reset.rs.hist)) = some true ∧
    after (.rsRen 1) (fullRing.withHost { fullRing.host with answers := [] })
      (fun t => decide (t.host.out ≠ fullRing.host.out)) = some true ∧
    after (.rsRen 1) State.reset (fun t => decide (t.host.pulled ≠ State.reset.host.pulled)) = some true := by
  decide +kernel

end Sys2Proof.Tests
end

section
/-! The command port: what a step does with a presented word (00_scope.md R15). -/

namespace Sys2Proof.Proofs

open Sys2Proof Sys2Proof.Machine

/-- What taking a presented word changes: only the host's side (entries 2, 5, 6). -/
theorem accept_eq_record_update (s : State) (rest : List HostEvent) (buffers : Option (Stereo (Memory 32)))
    (answers : List (Stereo Sample)) :
    s.accept rest buffers answers = { s with host := { s.host with
      events := rest, out := buffers.getD s.host.out, answers := s.host.answers ++ answers } } := rfl

/-- The step on a word that has an instruction in the present latch state (30_encoding.md R107). -/
theorem step_of_decodeWord_ok {s : State} {w : PortWord} {buffers : Option (Stereo (Memory 32))}
    {answers : List (Stereo Sample)} {rest : List HostEvent} {i : Instr}
    (hevents : s.host.events = .present w buffers answers :: rest) (hdecode : s.decodeWord w = .ok i) :
    step s = exec i (s.accept rest buffers answers) := by
  simp only [step, hevents, hdecode]

/-- Settles O5: the step's branch for a presented word that decodes, with the accepted state written out. -/
theorem stepRunsDecodedInstruction : Obligations.StepRunsDecodedInstruction := by
  intro s w buffers answers rest i hevents hdecode
  rw [← accept_eq_record_update]
  exact step_of_decodeWord_ok hevents hdecode

end Sys2Proof.Proofs
end

section
/-! What an instruction does to the state, said once: `effect i s` is the state a completed instruction leaves, less
its response, and `Emits` is the frame that every PSG procedure keeps. -/

namespace Sys2Proof.Proofs

open Sys2Proof Sys2Proof.Machine

/-! ### The effect of an instruction -/

/-- The state that a completed instruction leaves, before RSP is set (30_encoding.md R101). -/
def effect (i : Instr) (s : State) : State :=
  match i with
  | .dbCfg n d r => s.withDbuf (setRates s.dbuf n d r)
  | .dbClr => s.withDbuf (clearDbuf s.dbuf)
  | .dbAdd t dl dr => s.withDbuf (addDelta s.params.kernel s.dbuf t.toInt ⟨dl, dr⟩)
  | .dbAddf t dl dr => s.withDbuf (addDeltaFast s.dbuf t.toInt ⟨dl, dr⟩)
  | .dbEnd k => s.withDbuf (endFrame s.dbuf k.toInt)
  | .dbRd n => readSamples s n.toNat
  | .psgRst => s.withPsg (resetPsg s.params s.psg)
  | .psgWr t b => writeByte b (sync s t.toInt)
  | .psgRen n => readSamples (renderFrame s (clocksNeeded s.dbuf n.toNat)) n.toNat
  | .psgRate r => s.withDbuf (setRates s.dbuf s.dbuf.clkNum s.dbuf.clkDen r)
  | .psgChip c => s.withPsg { s.psg with
      chipType := c
      noiseShiftValue := s.psg.noiseShiftValue &&& BitVec.ofNat 16 (2 ^ noiseWidth c - 1) }
  | .psgHq x => s.withPsg { s.psg with hqMode := x }
  | .psgMute ch x => muteChannel s ch x
  | .rsCfg a b => s.withRs { rsStep := rsStepOf a b, rsPos := 0, rsWr := 0, hist := ⟨[], []⟩ }
  | .rsPush l r => s.withRs (rsPush s.rs ⟨l, r⟩)
  | .rsHas => s
  | .rsPop => s.withRs (rsAdvance s.rs)
  | .rsRen n => rsLoop n.toNat 0 s
  | .latch0 _ | .latch1 _ | .latch2 _ | .latch3 _ | .latch4 _ | .latch5 _ | .latch6 _ | .latch7 _ => applyForm i s
  | .data0 _ | .data1 _ | .data2 _ | .data3 _ | .data4 _ | .data5 _ | .data6 _ | .data7 _ => applyForm i s

/-- Every instruction completes with its effect: the ones that may `grow` within DB_MAX_SLOTS, the others, which leave
the record of the largest need alone, always (20_memory.md R76, entry 13). -/
theorem exec_completes (i : Instr) (s : State) :
    ∃ r, exec i s = completeWithin (effect i s) r ∨
      (exec i s = complete (effect i s) r ∧ (effect i s).dbuf.peakNeed = s.dbuf.peakNeed) := by
  cases i with
  | dbAdd | dbAddf | psgWr | psgRen | psgMute | latch1 | latch3 | latch5 | latch6 | latch7 | data1 | data3 | data5
  | data6 | data7 => exact ⟨_, .inl rfl⟩
  | rsRen n =>
    obtain ⟨-, hdbuf, -⟩ := rsLoop_frame n.toNat 0 s
    exact ⟨0, .inr ⟨rfl, congrArg Dbuf.peakNeed hdbuf⟩⟩
  | _ => exact ⟨_, .inr ⟨rfl, rfl⟩⟩

/-- When an instruction has a next state, that is its effect with a response, and either the bound of 20_memory.md
R76 was kept or no slot was asked for. -/
theorem exec_next {i : Instr} {s t : State} (h : exec i s = .next t) :
    (∃ r, t = (effect i s).respond r) ∧
      ((effect i s).Within ∨ (effect i s).dbuf.peakNeed = s.dbuf.peakNeed) := by
  obtain ⟨r, hw | ⟨hc, hpeak⟩⟩ := exec_completes i s
  · obtain ⟨ht, hwithin⟩ := completeWithin_next (hw.symm.trans h)
    exact ⟨⟨r, ht⟩, .inl hwithin⟩
  · exact ⟨⟨r, complete_next (hc.symm.trans h)⟩, .inr hpeak⟩

/-! ### The PSG procedures and their frame -/

/-- What every procedure of the PSG leaves alone: the parameters, the resampler, the host's side, and the delta
buffer but for slots, `cap` and the record of the largest need. -/
structure Emits (s s' : State) : Prop where
  params : s'.params = s.params
  rs : s'.rs = s.rs
  host : s'.host = s.host
  slots : SlotChange s.dbuf s'.dbuf

namespace Emits

theorem refl (s : State) : Emits s s := ⟨rfl, rfl, rfl, SlotChange.refl _⟩

theorem trans {s s' s'' : State} (h : Emits s s') (h' : Emits s' s'') : Emits s s'' :=
  ⟨h'.params.trans h.params, h'.rs.trans h.rs, h'.host.trans h.host, h.slots.trans h'.slots⟩

theorem withPsg (s : State) (g : Psg) : Emits s (s.withPsg g) := ⟨rfl, rfl, rfl, SlotChange.refl _⟩

theorem withDbuf {s : State} {d : Dbuf} (h : SlotChange s.dbuf d) : Emits s (s.withDbuf d) := ⟨rfl, rfl, rfl, h⟩

theorem setAmp (s : State) (ch : Chan) (new : Stereo Amp) : Emits s (setAmp s ch new) := by
  obtain ⟨hparams, hrs, hhost, hslots, -⟩ := setAmp_frame s ch new
  exact ⟨hparams, hrs, hhost, hslots⟩

theorem setNoise (s : State) : Emits s (setNoise s) := by
  obtain ⟨hparams, hrs, hhost, hslots, -⟩ := setNoise_frame s
  exact ⟨hparams, hrs, hhost, hslots⟩

theorem sync (s : State) (t : Int) : Emits s (sync s t) := by
  obtain ⟨hparams, hrs, hhost, hslots, -⟩ := sync_frame s t
  exact ⟨hparams, hrs, hhost, hslots⟩

theorem writePeriod (s : State) (ch : Tone) (v : BitVec 10) : Emits s (writePeriod s ch v) := withPsg s _

theorem writeAtt (s : State) (ch : Chan) (v : BitVec 4) : Emits s (writeAtt s ch v) :=
  (withPsg s _).trans (setAmp _ _ _)

theorem writeNoise (s : State) (v : BitVec 3) : Emits s (writeNoise s v) := (withPsg s _).trans (setNoise _)

theorem setMute (s : State) (ch : Chan) (flag : Bool) : Emits s (setMute s ch flag) :=
  (withPsg s _).trans (setAmp _ _ _)

end Emits

/-- `PSG.MUTE` does nothing, or gives one channel a new flag (42_psg_run.md R203). -/
theorem muteChannel_cases (s : State) (ch : BitVec 32) (flag : Bool) :
    muteChannel s ch flag = s ∨ ∃ c, muteChannel s ch flag = setMute s c flag := by
  unfold muteChannel
  split
  · exact .inl rfl
  · next c _ =>
    split
    · exact .inl rfl
    · exact .inr ⟨c, rfl⟩

theorem muteChannel_emits (s : State) (ch : BitVec 32) (flag : Bool) : Emits s (muteChannel s ch flag) := by
  obtain h | ⟨c, h⟩ := muteChannel_cases s ch flag
  · rw [h]
    exact Emits.refl s
  · rw [h]
    exact Emits.setMute s c flag

/-- What `setAmp` leaves alone in the PSG: all but `chanOut` and `chanDelta` (41_psg_write.md R161). -/
structure OnlyAmp (g g' : Psg) : Prop where
  regs : g'.regs = g.regs
  latch : g'.latch = g.latch
  polarity : g'.polarity = g.polarity
  mutes : g'.mutes = g.mutes
  hqMode : g'.hqMode = g.hqMode
  chipType : g'.chipType = g.chipType
  clocks : g'.clocks = g.clocks
  freqInc : g'.freqInc = g.freqInc
  freqCounter : g'.freqCounter = g.freqCounter
  noiseShiftValue : g'.noiseShiftValue = g.noiseShiftValue

/-- What `setNoise` leaves alone in the PSG: all but `freqInc`, `chanDelta` and the LFSR (41_psg_write.md R167). -/
structure OnlyNoise (g g' : Psg) : Prop where
  regs : g'.regs = g.regs
  latch : g'.latch = g.latch
  polarity : g'.polarity = g.polarity
  mutes : g'.mutes = g.mutes
  hqMode : g'.hqMode = g.hqMode
  chipType : g'.chipType = g.chipType
  clocks : g'.clocks = g.clocks
  freqCounter : g'.freqCounter = g.freqCounter
  chanOut : g'.chanOut = g.chanOut

/-- The PSG with one channel's mute flag replaced (42_psg_run.md R203). -/
def withMute (g : Psg) (ch : Chan) (x : Bool) : Psg := { g with mutes := g.mutes.set ch x }

/-- The PSG with one attenuation register replaced (41_psg_write.md R161). -/
def withAtt (g : Psg) (ch : Chan) (v : BitVec 4) : Psg := { g with regs := g.regs.setAtt v ch }

/-- The PSG with the noise control register replaced (41_psg_write.md R167). -/
def withNoiseCtrl (g : Psg) (v : BitVec 3) : Psg := { g with regs := { g.regs with noiseCtrl := v } }

/-- The PSG with one period register replaced (41_psg_write.md R166). -/
def withPeriod (g : Psg) (ch : Tone) (v : BitVec 10) : Psg := { g with regs := g.regs.setPeriod v ch }

theorem setMute_eq (s : State) (ch : Chan) (x : Bool) :
    setMute s ch x = setAmp (s.withPsg (withMute s.psg ch x)) ch (amp s.params (withMute s.psg ch x) ch) := rfl

theorem writeAtt_eq (s : State) (ch : Chan) (v : BitVec 4) :
    writeAtt s ch v = setAmp (s.withPsg (withAtt s.psg ch v)) ch (amp s.params (withAtt s.psg ch v) ch) := rfl

theorem writeNoise_eq (s : State) (v : BitVec 3) :
    writeNoise s v = setNoise (s.withPsg (withNoiseCtrl s.psg v)) := rfl

theorem setAmp_onlyAmp (s : State) (ch : Chan) (new : Stereo Amp) : OnlyAmp s.psg (setAmp s ch new).psg := by
  obtain ⟨-, -, -, -, hpsg⟩ := setAmp_frame s ch new
  constructor <;> rw [hpsg]

theorem setNoise_onlyNoise (s : State) : OnlyNoise s.psg (setNoise s).psg := by
  obtain ⟨-, -, -, -, hpsg⟩ := setNoise_frame s
  constructor <;> rw [hpsg]

theorem setMute_onlyAmp (s : State) (ch : Chan) (x : Bool) :
    OnlyAmp (withMute s.psg ch x) (setMute s ch x).psg := setAmp_onlyAmp (s.withPsg (withMute s.psg ch x)) ch _

theorem writeAtt_onlyAmp (s : State) (ch : Chan) (v : BitVec 4) :
    OnlyAmp (withAtt s.psg ch v) (writeAtt s ch v).psg := setAmp_onlyAmp (s.withPsg (withAtt s.psg ch v)) ch _

theorem writeNoise_onlyNoise (s : State) (v : BitVec 3) :
    OnlyNoise (withNoiseCtrl s.psg v) (writeNoise s v).psg := setNoise_onlyNoise (s.withPsg (withNoiseCtrl s.psg v))

/-- What `applyForm i s` can be (41_psg_write.md R170 to R185): a command changes nothing, and a byte form sets the
latch, which a DATA form leaves as it is, and writes a period, an attenuation or the noise control. -/
inductive FormWrite (s : State) (i : Instr) : State → Prop
  | command (hi : isByteForm i = false) : FormWrite s i s
  | period (r : BitVec 3) (ch : Tone) (v : BitVec 10) (hi : isByteForm i = true) :
      FormWrite s i (writePeriod (setLatch s r) ch v)
  | att (r : BitVec 3) (ch : Chan) (v : BitVec 4) (hi : isByteForm i = true)
      (hatt : (attWrite s.psg i).isSome = true) : FormWrite s i (writeAtt (setLatch s r) ch v)
  | noise (r : BitVec 3) (v : BitVec 3) (hi : isByteForm i = true) (hnoise : (noiseWrite s.psg i).isSome = true) :
      FormWrite s i (writeNoise (setLatch s r) v)

/-- One line per kind of form; a DATA form keeps the latch it finds. -/
theorem applyForm_write (i : Instr) (s : State) : FormWrite s i (applyForm i s) := by
  cases i with
  | latch0 | latch2 | latch4 => exact .period _ _ _ rfl
  | data0 | data2 | data4 => exact .period s.psg.latch _ _ rfl
  | latch1 | latch3 | latch5 | latch7 => exact .att _ _ _ rfl rfl
  | data1 | data3 | data5 | data7 => exact .att s.psg.latch _ _ rfl rfl
  | latch6 => exact .noise _ _ rfl rfl
  | data6 => exact .noise s.psg.latch _ rfl rfl
  | _ => exact .command rfl

theorem FormWrite.emits {s t : State} {i : Instr} (h : FormWrite s i t) : Emits s t := by
  cases h with
  | command => exact Emits.refl s
  | period r ch v => exact (Emits.withPsg s _).trans (Emits.writePeriod _ ch v)
  | att r ch v => exact (Emits.withPsg s _).trans (Emits.writeAtt _ ch v)
  | noise r v => exact (Emits.withPsg s _).trans (Emits.writeNoise _ v)

theorem applyForm_emits (i : Instr) (s : State) : Emits s (applyForm i s) := (applyForm_write i s).emits

/-- The byte forms run on their own (entry 1). -/
theorem effect_of_isByteForm {i : Instr} (h : isByteForm i = true) (s : State) : effect i s = applyForm i s := by
  cases i with
  | latch0 | latch1 | latch2 | latch3 | latch4 | latch5 | latch6 | latch7 => rfl
  | data0 | data1 | data2 | data3 | data4 | data5 | data6 | data7 => rfl
  | _ => exact absurd h Bool.false_ne_true

theorem psgWr_emits (t : Time) (b : BitVec 8) (s : State) : Emits s (effect (.psgWr t b) s) :=
  (Emits.sync s t.toInt).trans (applyForm_emits _ _)

end Sys2Proof.Proofs
end

section
/-! Parameters, capacity and the steps without an instruction. -/

namespace Sys2Proof.Proofs

open Sys2Proof Sys2Proof.Machine

/-! ### Steps -/

theorem step_of_no_events {s : State} (h : s.host.events = []) : step s = .next s := by
  simp only [step, h]

theorem step_of_reset_event {s : State} {rest : List HostEvent} (h : s.host.events = .reset :: rest) :
    step s = .next (s.hardReset rest) := by
  simp only [step, h]

/-- What a step with a next state was: idle, a hardware reset, or an instruction run in the state that accepted it. -/
theorem step_next_cases {s t : State} (h : step s = .next t) :
    t = s ∨ (∃ rest, s.host.events = .reset :: rest ∧ t = s.hardReset rest) ∨
    ∃ w buffers answers rest i, s.host.events = .present w buffers answers :: rest ∧
      decode s.psg.latch w = .ok i ∧ exec i (s.accept rest buffers answers) = .next t := by
  cases hevents : s.host.events with
  | nil => exact .inl (Host.Outcome.next.inj ((step_of_no_events hevents).symm.trans h)).symm
  | cons e rest =>
    cases e with
    | reset =>
      exact .inr (.inl ⟨rest, rfl, (Host.Outcome.next.inj ((step_of_reset_event hevents).symm.trans h)).symm⟩)
    | present w buffers answers =>
      cases hdecode : s.decodeWord w with
      | error e => simp [step, hevents, hdecode] at h
      | ok i =>
        exact .inr (.inr ⟨w, buffers, answers, rest, i, rfl, hdecode,
          (step_of_decodeWord_ok hevents hdecode).symm.trans h⟩)

/-- Settles O6: the two branches of the step that run no instruction. -/
theorem idleAndResetSteps : Obligations.IdleAndResetSteps :=
  ⟨fun _ h => step_of_no_events h, fun _ _ h => step_of_reset_event h⟩

/-! ### Parameters -/

theorem effect_params (i : Instr) (s : State) : (effect i s).params = s.params := by
  cases i with
  | psgWr t b => exact (psgWr_emits t b s).params
  | psgRen n => exact (Emits.sync s _).params
  | psgMute ch x => exact (muteChannel_emits s ch x).params
  | rsRen n =>
    obtain ⟨hparams, -⟩ := rsLoop_frame n.toNat 0 s
    exact hparams
  | latch0 | latch1 | latch2 | latch3 | latch4 | latch5 | latch6 | latch7 => exact (applyForm_emits _ s).params
  | data0 | data1 | data2 | data3 | data4 | data5 | data6 | data7 => exact (applyForm_emits _ s).params
  | _ => rfl

theorem exec_keeps_params {i : Instr} {s t : State} (h : exec i s = .next t) : t.params = s.params := by
  obtain ⟨⟨r, rfl⟩, -⟩ := exec_next h
  exact effect_params i s

/-- Settles O11: an idle step, a reset and every instruction keep the parameters. -/
theorem parametersNeverChange : Obligations.ParametersNeverChange := by
  intro s t h
  obtain rfl | ⟨rest, -, rfl⟩ | ⟨w, buffers, answers, rest, i, -, -, hexec⟩ := step_next_cases h
  · rfl
  · rfl
  · exact (exec_keeps_params hexec).trans rfl

/-! ### Capacity -/

theorem effect_cap_ge (i : Instr) (s : State) : s.dbuf.cap ≤ (effect i s).dbuf.cap := by
  cases i with
  | dbAdd t dl dr => exact (addDelta_slots _ _ _ _).cap_le
  | dbAddf t dl dr => exact (addDeltaFast_slots _ _ _).cap_le
  | psgWr t b => exact (psgWr_emits t b s).slots.cap_le
  | psgRen n => exact (Emits.sync s _).slots.cap_le
  | psgMute ch x => exact (muteChannel_emits s ch x).slots.cap_le
  | rsRen n =>
    obtain ⟨-, hdbuf, -⟩ := rsLoop_frame n.toNat 0 s
    exact (congrArg Dbuf.cap hdbuf).ge
  | latch0 | latch1 | latch2 | latch3 | latch4 | latch5 | latch6 | latch7 => exact (applyForm_emits _ s).slots.cap_le
  | data0 | data1 | data2 | data3 | data4 | data5 | data6 | data7 => exact (applyForm_emits _ s).slots.cap_le
  | _ => exact le_refl s.dbuf.cap

/-- Settles O12: only the emitting instructions touch `cap`, and `grow` never shrinks it. -/
theorem capacityNeverShrinks : Obligations.CapacityNeverShrinks := by
  intro i s t h
  obtain ⟨⟨r, rfl⟩, -⟩ := exec_next h
  exact effect_cap_ge i s

end Sys2Proof.Proofs
end

section
/-! The parts of the invariant, unit by unit, and the power-on state. -/

namespace Sys2Proof.Proofs

open Sys2Proof Sys2Proof.Machine

/-! ### Wrapped times -/

/-- An integer in the range of a time quantity is stored as it is (00_scope.md R9). -/
theorem s64_toInt_of_range {v : Int} (hlo : -2 ^ 63 ≤ v) (hhi : v < 2 ^ 63) : (s64 v).toInt = v :=
  BitVec.toInt_ofInt_eq_self (by decide) hlo hhi

/-- The effective ratio leaves room for the longest half-period, 1024 PSG cycles (entry 8). -/
theorem ratioOf_bounds {p : Params} (h : p.wf = true) : 1 ≤ ratioOf p ∧ 1024 * ratioOf p < 2 ^ 63 := by
  have hratio : 1 ≤ p.mcyclesRatio ∧ 1024 * p.mcyclesRatio < 2 ^ 63 := by
    simp only [Params.wf, Params.ratioOk, Bool.and_eq_true, decide_eq_true_eq] at h
    obtain ⟨⟨-, hratioOk⟩, -⟩ := h
    exact hratioOk
  unfold ratioOf
  cases p.variant with
  | baseline => exact ⟨le_refl 1, by norm_num⟩
  | accurate => exact hratio

/-- A half-period of 1 to 1024 PSG cycles is positive (10_state.md R54). -/
theorem halfPeriod_pos {p : Params} (h : p.wf = true) {k : Nat} (hlo : 1 ≤ k) (hhi : k ≤ 1024) :
    1 ≤ (s64 ((k * ratioOf p : Nat) : Int)).toInt := by
  obtain ⟨hpos, hfits⟩ := ratioOf_bounds h
  have hge : 1 * 1 ≤ k * ratioOf p := Nat.mul_le_mul hlo hpos
  have hle : k * ratioOf p ≤ 1024 * ratioOf p := Nat.mul_le_mul_right _ hhi
  rw [s64_toInt_of_range (by omega) (by omega)]
  omega

theorem zeroFreq_bounds (c : ChipType) : 1 ≤ zeroFreq c ∧ zeroFreq c ≤ 1024 := by
  cases c <;> decide

theorem noiseDiv_bounds (n : Nat) : 1 ≤ noiseDiv n ∧ noiseDiv n ≤ 1024 := by
  unfold noiseDiv
  split <;> decide

/-- The half-period of a tone register is positive (41_psg_write.md R166). -/
theorem toneInc_pos {p : Params} (h : p.wf = true) (c : ChipType) (v : BitVec 10) : 1 ≤ (toneInc p c v).toInt := by
  unfold toneInc
  split
  · exact halfPeriod_pos h (zeroFreq_bounds c).1 (zeroFreq_bounds c).2
  · next hv =>
    have hv0 : v.toNat ≠ 0 := fun h0 => hv (BitVec.eq_of_toNat_eq h0)
    have hlt := v.isLt
    exact halfPeriod_pos h (by omega) (by omega)

/-! ### The parts of the invariant -/

/-- The part of the invariant that speaks of the PSG, but for `clocks` (10_state.md R40, R41, R42, R54). -/
structure PsgOk (p : Params) (g : Psg) : Prop where
  freqIncPos : ∀ ch : Chan, 1 ≤ (g.freqInc.get ch).toInt
  noPending : p.variant = .baseline → g.chanDelta = Quad.all ⟨0, 0⟩
  outIsAmp : ∀ ch : Chan, g.chanOut.get ch = amp p g ch
  lfsrWidth : g.noiseShiftValue.toNat < 2 ^ noiseWidth g.chipType

/-- The part of the invariant that speaks of the slots (20_memory.md R72). -/
structure SlotsOk (d : Dbuf) : Prop where
  wf : pairWf d.buf
  beyond : ∀ (x : Lane) (j : Nat), d.cap ≤ j → (d.buf.lane x).read j = 0

/-- The part of the invariant that speaks of the ring (20_memory.md R78). -/
structure RingOk (r : Rs) : Prop where
  wf : pairWf r.hist
  size : ∀ (x : Lane) (j : Nat), 32 ≤ j → (r.hist.lane x).read j = 0

/-- The part of the invariant that no instruction needs the time or the bound of R76 for. -/
structure UnitsOk (s : State) : Prop where
  params : s.params.wf = true
  psg : PsgOk s.params s.psg
  slots : SlotsOk s.dbuf
  ring : RingOk s.rs
  out : pairWf s.host.out

/-- The invariant is the units' parts, the host's events, the time and the bound. -/
theorem inv_iff (s : State) : s.Inv ↔
    UnitsOk s ∧ (∀ e ∈ s.host.events, e.Wf) ∧ (s.params.variant = .baseline → 0 ≤ s.psg.clocks.toInt) ∧ s.Within := by
  constructor
  · intro h
    exact ⟨⟨h.params, ⟨h.freqIncPos, h.noPending, h.outIsAmp, h.lfsrWidth⟩, ⟨h.bufWf, h.beyondCap⟩,
      ⟨h.histWf, h.histSize⟩, h.outWf⟩, h.eventsWf, h.clocksNonneg, h.within⟩
  · rintro ⟨⟨hparams, hpsg, hslots, hring, hout⟩, hevents, hclocks, hwithin⟩
    exact ⟨hparams, hslots.wf, hslots.beyond, hring.wf, hring.size, hout, hevents, hpsg.freqIncPos, hpsg.noPending,
      hpsg.outIsAmp, hpsg.lfsrWidth, hclocks, hwithin⟩

/-! ### Power-on and `PSG.RST` -/

/-- Empty memories are in canonical form. -/
theorem pairWf_nil {w : Nat} : pairWf (⟨[], []⟩ : Stereo (Memory w)) := fun x => by cases x <;> rfl

theorem read_lane_nil {w : Nat} (x : Lane) (j : Nat) : ((⟨[], []⟩ : Stereo (Memory w)).lane x).read j = 0 := by
  cases x <;> rfl

theorem slotsOk_of_empty {d : Dbuf} (h : d.buf = ⟨[], []⟩) : SlotsOk d :=
  ⟨h ▸ pairWf_nil, fun x j _ => by rw [h, read_lane_nil]⟩

theorem ringOk_of_empty {r : Rs} (h : r.hist = ⟨[], []⟩) : RingOk r :=
  ⟨h ▸ pairWf_nil, fun x j _ => by rw [h, read_lane_nil]⟩

theorem lfsrSeed_lt (c : ChipType) : (lfsrSeed c).toNat < 2 ^ noiseWidth c := by
  cases c <;> decide

/-- Attenuation 15 is silence (10_state.md R63). -/
theorem amp_of_silent {p : Params} (h : p.wf = true) {g : Psg} {ch : Chan} (hatt : g.regs.att ch = 15) :
    amp p g ch = ⟨0, 0⟩ := by
  have hvol : p.voltab.getD 15 0 = 0 := by
    simp only [Params.wf, Params.voltabOk, Bool.and_eq_true, beq_iff_eq] at h
    obtain ⟨⟨⟨-, ⟨⟨-, hlast⟩, -⟩, -⟩, -⟩, -⟩ := h
    exact hlast
  have hindex : (g.regs.att ch).toNat = 15 := by rw [hatt]; rfl
  unfold amp
  split
  · rfl
  · simp only [hindex, hvol, Nat.zero_mul, Nat.zero_div, Nat.cast_zero, s32_zero]

theorem att_reset (ch : Chan) : Regs.reset.att ch = 15 := by
  cases ch <;> rfl

/-- The reset PSG meets its part of the invariant, whatever `chipType`, `hqMode` and `mutes` are (10_state.md R55,
42_psg_run.md R199). -/
theorem resetPsg_ok {p : Params} (h : p.wf = true) (g : Psg) : PsgOk p (resetPsg p g) where
  freqIncPos ch := by
    obtain ⟨hzlo, hzhi⟩ := zeroFreq_bounds g.chipType
    obtain ⟨hnlo, hnhi⟩ := noiseDiv_bounds 0
    cases ch with
    | c0 | c1 | c2 => exact halfPeriod_pos h hzlo hzhi
    | c3 => exact halfPeriod_pos h hnlo hnhi
  noPending _ := rfl
  outIsAmp ch := by rw [amp_of_silent h (att_reset ch)]; exact Quad.get_all _ ch
  lfsrWidth := lfsrSeed_lt g.chipType

/-- At power-on the PSG is as `PSG.RST` leaves it. -/
theorem resetPsg_powerOn (p : Params) : resetPsg p (Psg.powerOn p) = Psg.powerOn p := rfl

theorem powerOn_unitsOk {p : Params} (h : p.wf = true) : UnitsOk (State.powerOn p) where
  params := h
  psg := by
    rw [State.powerOn_psg, ← resetPsg_powerOn]
    exact resetPsg_ok h _
  slots := slotsOk_of_empty rfl
  ring := ringOk_of_empty rfl
  out := pairWf_nil

theorem powerOn_inv {p : Params} (h : p.wf = true) : (State.powerOn p).Inv :=
  (inv_iff _).mpr ⟨powerOn_unitsOk h, fun _ he => absurd he List.not_mem_nil, fun _ => le_refl 0,
    fun m _ => Nat.zero_le m⟩

/-- The default parameters are admitted (10_state.md R62, R63, 00_scope.md R8). -/
theorem paramsDefault_wf : paramsDefault.wf = true := by decide +kernel

/-- Settles O10: the base case of O9, at every admitted parameter record and so at the reset state. -/
theorem powerOnMeetsInvariant : Obligations.PowerOnMeetsInvariant :=
  ⟨fun _ h => powerOn_inv h, powerOn_inv paramsDefault_wf⟩

/-- The power-on half-periods: R cycles on the tone channels, 16 R on the noise channel (10_state.md R55). -/
theorem powerOn_freqInc (p : Params) : (State.powerOn p).psg.freqInc =
    ⟨BitVec.ofNat 64 (ratioOf p), BitVec.ofNat 64 (ratioOf p), BitVec.ofNat 64 (ratioOf p),
      BitVec.ofNat 64 (16 * ratioOf p)⟩ := by
  simp only [State.powerOn_psg, Psg.powerOn, zeroFreq, noiseDiv, Nat.one_mul, s64_natCast]

/-- Settles O8: the table of 10_state.md R55, the half-periods by `powerOn_freqInc`. -/
theorem powerOnValues : Obligations.PowerOnValues := by
  intro p
  refine ⟨rfl, rfl, rfl, rfl, rfl, rfl, read_lane_nil, fun x => ?_, rfl, rfl, rfl, Quad.get_all _, rfl, rfl,
    powerOn_freqInc p, Quad.get_all _, Quad.get_all _, Quad.get_all _, Quad.get_all _, rfl, rfl, rfl, rfl, rfl,
    read_lane_nil⟩
  cases x <;> rfl

end Sys2Proof.Proofs
end

section
/-! The invariant of State: each unit's procedures keep the unit's part, and `sync` and `PSG.REN` keep `clocks` from
going negative where the time fits. -/

namespace Sys2Proof.Proofs

open Sys2Proof Sys2Proof.Machine

/-! ### The PSG's part: running the channels -/

/-- One shift keeps the LFSR within its width (42_psg_run.md R196). -/
theorem lfsrNext_lt (white : Bool) {w : Nat} (hw : 1 ≤ w) (mask : BitVec 16) {sv : BitVec 16}
    (h : sv.toNat < 2 ^ w) : (lfsrNext white w mask sv).toNat < 2 ^ w := by
  have feedback_lt : ∀ b : Bool, ((if b then 1#16 else 0#16) <<< (w - 1)).toNat < 2 ^ w := by
    intro b
    have hpow : 2 ^ (w - 1) < 2 ^ w := Nat.pow_lt_pow_right (by omega) (by omega)
    cases b with
    | false => simp
    | true =>
      rw [if_pos rfl, BitVec.toNat_shiftLeft, Nat.shiftLeft_eq]
      exact lt_of_le_of_lt (Nat.mod_le _ _) (by simpa using hpow)
  have hshift : (sv >>> 1).toNat < 2 ^ w := by
    rw [BitVec.toNat_ushiftRight, Nat.shiftRight_eq_div_pow]
    omega
  rw [lfsrNext, BitVec.toNat_or]
  exact Nat.or_lt_two_pow hshift (feedback_lt _)

theorem noiseWidth_pos (c : ChipType) : 1 ≤ noiseWidth c := by
  cases c <;> decide

theorem shiftNoise_psgOk {p : Params} {g : Psg} (h : PsgOk p g) : PsgOk p (shiftNoise p g) :=
  ⟨h.freqIncPos, h.noPending, h.outIsAmp, lfsrNext_lt _ (noiseWidth_pos _) _ h.lfsrWidth⟩

theorem polarity_psgOk {p : Params} {g : Psg} (h : PsgOk p g) (x : Quad Polarity) :
    PsgOk p { g with polarity := x } :=
  ⟨h.freqIncPos, h.noPending, h.outIsAmp, h.lfsrWidth⟩

theorem flush_psgOk {s : State} (h : PsgOk s.params s.psg) (ch : Chan) :
    PsgOk (flush s ch).params (flush s ch).psg := by
  unfold flush
  split
  · exact h
  · refine ⟨h.freqIncPos, fun hv => ?_, h.outIsAmp, h.lfsrWidth⟩
    show s.psg.chanDelta.set ch ⟨0, 0⟩ = _
    rw [h.noPending hv]
    cases ch <;> rfl

theorem runTone_psgOk {s : State} (h : PsgOk s.params s.psg) (ch : Tone) (target : Int) :
    PsgOk (runTone s ch target).params (runTone s ch target).psg := by
  rw [(runTone_runs s ch target).params, runTone, toneLoop_spec]
  exact ⟨h.freqIncPos, h.noPending, h.outIsAmp, h.lfsrWidth⟩

theorem noiseFlip_psgOk {s : State} (h : PsgOk s.params s.psg) (ts : Time) :
    PsgOk (noiseFlip ts s).params (noiseFlip ts s).psg := by
  unfold noiseFlip
  cases s.psg.polarity.q3 with
  | plus => exact polarity_psgOk h _
  | minus => exact shiftNoise_psgOk (polarity_psgOk h _)

theorem noiseLoop_psgOk (n : Nat) (ts : Time) {s : State} (h : PsgOk s.params s.psg) :
    PsgOk (noiseLoop n ts s).params (noiseLoop n ts s).psg := by
  induction n generalizing ts s with
  | zero => exact ⟨h.freqIncPos, h.noPending, h.outIsAmp, h.lfsrWidth⟩
  | succ n ih => exact ih _ (noiseFlip_psgOk h ts)

theorem psgUpdate_psgOk {s : State} (h : PsgOk s.params s.psg) (target : Int) :
    PsgOk (psgUpdate s target).params (psgUpdate s target).psg := by
  have h0 := runTone_psgOk (flush_psgOk h .c0) .t0 target
  have h1 := runTone_psgOk (flush_psgOk h0 .c1) .t1 target
  have h2 := runTone_psgOk (flush_psgOk h1 .c2) .t2 target
  exact noiseLoop_psgOk _ _ (flush_psgOk h2 .c3)

theorem sync_psgOk {s : State} (h : PsgOk s.params s.psg) (t : Int) : PsgOk (sync s t).params (sync s t).psg := by
  rcases lt_or_ge s.psg.clocks.toInt t with hlt | hge
  · have hrun := psgUpdate_psgOk h t
    rw [sync_of_lt hlt]
    exact ⟨hrun.freqIncPos, hrun.noPending, hrun.outIsAmp, hrun.lfsrWidth⟩
  · rw [sync_of_le hge]
    exact h

/-! ### The PSG's part: register writes -/

/-- In BASELINE an owed delta is emitted and leaves `chanDelta` alone (42_psg_run.md R190). -/
theorem owe_chanDelta_baseline {s : State} (hv : s.params.variant = .baseline) (ch : Chan) (x : Stereo Amp) :
    (owe s ch x).psg.chanDelta = s.psg.chanDelta := by
  rw [owe_baseline hv, emit_psg]

theorem setAmp_chanDelta_baseline {s : State} (hv : s.params.variant = .baseline) (ch : Chan) (new : Stereo Amp) :
    (setAmp s ch new).psg.chanDelta = s.psg.chanDelta := by
  cases hh : high s.psg ch with
  | false => rw [setAmp_low hh, State.withPsg_psg]
  | true => rw [setAmp_high_baseline hh hv, State.withPsg_psg]

theorem setNoise_chanDelta_baseline {s : State} (hv : s.params.variant = .baseline) :
    (setNoise s).psg.chanDelta = s.psg.chanDelta := by
  rw [setNoise_eq]
  cases noiseBit s.psg with
  | false => rfl
  | true =>
    exact owe_chanDelta_baseline
      (s := s.withPsg { s.psg with freqInc := s.psg.freqInc.set .c3 (noiseIncOf s) }) hv _ _

/-- The amplitude of one channel does not depend on another channel's attenuation or mute flag (41_psg_write.md
R163). -/
theorem amp_setAtt_other (p : Params) (g : Psg) (v : BitVec 4) {ch c : Chan} (hc : c ≠ ch) :
    amp p (withAtt g ch v) c = amp p g c := by
  unfold amp
  simp only [withAtt, Regs.att_setAtt, if_neg hc]

theorem amp_setMute_other (p : Params) (g : Psg) (x : Bool) {ch c : Chan} (hc : c ≠ ch) :
    amp p (withMute g ch x) c = amp p g c := by
  unfold amp
  simp only [withMute, Quad.get_set_other _ hc]

/-- `setAmp(ch, amp(ch))` brings the part back after a change of registers, latch or mute flags that no other
channel's amplitude depends on (10_state.md R40, 41_psg_write.md R161). -/
theorem setAmp_psgOk {s : State} {g : Psg} {ch : Chan} (h : PsgOk s.params g)
    (hg : s.psg = { g with regs := s.psg.regs, latch := s.psg.latch, mutes := s.psg.mutes })
    (hother : ∀ c, c ≠ ch → amp s.params s.psg c = amp s.params g c) :
    PsgOk s.params (setAmp s ch (amp s.params s.psg ch)).psg := by
  obtain ⟨-, -, -, -, hpsg⟩ := setAmp_frame s ch (amp s.params s.psg ch)
  have hinc : s.psg.freqInc = g.freqInc := by rw [hg]
  have hdelta : s.psg.chanDelta = g.chanDelta := by rw [hg]
  have hout : s.psg.chanOut = g.chanOut := by rw [hg]
  have hnoise : s.psg.noiseShiftValue = g.noiseShiftValue := by rw [hg]
  have hchip : s.psg.chipType = g.chipType := by rw [hg]
  refine ⟨fun c => ?_, fun hv => ?_, fun c => ?_, ?_⟩
  · rw [hpsg, hinc]
    exact h.freqIncPos c
  · rw [setAmp_chanDelta_baseline hv, hdelta]
    exact h.noPending hv
  · rw [hpsg]
    show (s.psg.chanOut.set ch (amp s.params s.psg ch)).get c = amp s.params s.psg c
    rw [Quad.get_set]
    split
    · next hc => rw [hc]
    · next hc => rw [hother c hc, hout, h.outIsAmp c]
  · rw [hpsg, hnoise, hchip]
    exact h.lfsrWidth

theorem writeAtt_psgOk {s : State} (h : PsgOk s.params s.psg) (ch : Chan) (v : BitVec 4) :
    PsgOk s.params (writeAtt s ch v).psg :=
  setAmp_psgOk (s := s.withPsg (withAtt s.psg ch v)) h rfl fun _ hc => amp_setAtt_other s.params s.psg v hc

theorem setMute_psgOk {s : State} (h : PsgOk s.params s.psg) (ch : Chan) (x : Bool) :
    PsgOk s.params (setMute s ch x).psg :=
  setAmp_psgOk (s := s.withPsg (withMute s.psg ch x)) h rfl fun _ hc => amp_setMute_other s.params s.psg x hc

theorem muteChannel_psgOk {s : State} (h : PsgOk s.params s.psg) (ch : BitVec 32) (x : Bool) :
    PsgOk s.params (muteChannel s ch x).psg := by
  obtain hsame | ⟨c, hset⟩ := muteChannel_cases s ch x
  · rw [hsame]
    exact h
  · rw [hset]
    exact setMute_psgOk h c x

/-- The period of a tone register reaches one half-period, or two (41_psg_write.md R166). -/
theorem setTone_freqInc_pos {s : State} (hp : s.params.wf = true) (h : ∀ c, 1 ≤ (s.psg.freqInc.get c).toInt)
    (ch : Tone) (c : Chan) : 1 ≤ ((setTone s ch).psg.freqInc.get c).toInt := by
  have hset : ∀ (q : Quad Time) (d : Chan), (∀ c, 1 ≤ (q.get c).toInt) → ∀ c,
      1 ≤ ((q.set d (toneInc s.params s.psg.chipType (s.psg.regs.period ch))).get c).toInt := by
    intro q d hq c
    rw [Quad.get_set]
    split
    · exact toneInc_pos hp _ _
    · exact hq c
  unfold setTone
  simp only [State.withPsg_psg]
  split
  · exact hset _ _ (hset _ _ h) c
  · exact hset _ _ h c

theorem writePeriod_psgOk {s : State} (hp : s.params.wf = true) (h : PsgOk s.params s.psg) (ch : Tone)
    (v : BitVec 10) : PsgOk s.params (writePeriod s ch v).psg where
  freqIncPos := setTone_freqInc_pos (s := s.withPsg (withPeriod s.psg ch v)) hp h.freqIncPos ch
  noPending := h.noPending
  outIsAmp c := by
    show s.psg.chanOut.get c = amp s.params (withPeriod s.psg ch v) c
    rw [h.outIsAmp c]
    unfold amp
    simp only [withPeriod, Regs.att_setPeriod]
  lfsrWidth := h.lfsrWidth

theorem noiseIncOf_pos {s : State} (hp : s.params.wf = true) (h : ∀ c, 1 ≤ (s.psg.freqInc.get c).toInt) :
    1 ≤ (noiseIncOf s).toInt := by
  unfold noiseIncOf
  split
  · exact h .c2
  · obtain ⟨hlo, hhi⟩ := noiseDiv_bounds s.psg.regs.noiseRate
    exact halfPeriod_pos hp hlo hhi

theorem setNoise_psgOk {s : State} (hp : s.params.wf = true) (h : PsgOk s.params s.psg) :
    PsgOk s.params (setNoise s).psg := by
  obtain ⟨-, -, -, -, hpsg⟩ := setNoise_frame s
  refine ⟨fun c => ?_, fun hv => ?_, fun c => ?_, ?_⟩
  · rw [hpsg]
    show 1 ≤ ((s.psg.freqInc.set .c3 (noiseIncOf s)).get c).toInt
    rw [Quad.get_set]
    split
    · exact noiseIncOf_pos hp h.freqIncPos
    · exact h.freqIncPos c
  · rw [setNoise_chanDelta_baseline hv]
    exact h.noPending hv
  · rw [hpsg]
    exact h.outIsAmp c
  · rw [hpsg]
    exact lfsrSeed_lt _

theorem writeNoise_psgOk {s : State} (hp : s.params.wf = true) (h : PsgOk s.params s.psg) (v : BitVec 3) :
    PsgOk s.params (writeNoise s v).psg :=
  setNoise_psgOk (s := s.withPsg (withNoiseCtrl s.psg v)) hp ⟨h.freqIncPos, h.noPending, h.outIsAmp, h.lfsrWidth⟩

theorem setLatch_psgOk {s : State} (h : PsgOk s.params s.psg) (r : BitVec 3) : PsgOk s.params (setLatch s r).psg :=
  ⟨h.freqIncPos, h.noPending, h.outIsAmp, h.lfsrWidth⟩

theorem FormWrite.psgOk {s t : State} {i : Instr} (hw : FormWrite s i t) (hp : s.params.wf = true)
    (h : PsgOk s.params s.psg) : PsgOk s.params t.psg := by
  cases hw with
  | command => exact h
  | period r ch v => exact writePeriod_psgOk (s := setLatch s r) hp (setLatch_psgOk h r) ch v
  | att r ch v => exact writeAtt_psgOk (s := setLatch s r) (setLatch_psgOk h r) ch v
  | noise r v => exact writeNoise_psgOk (s := setLatch s r) hp (setLatch_psgOk h r) v

/-- `PSG.CHIP` cuts the LFSR to its new width (42_psg_run.md R201). -/
theorem noiseMask_lt (v : BitVec 16) (c : ChipType) :
    (v &&& BitVec.ofNat 16 (2 ^ noiseWidth c - 1)).toNat < 2 ^ noiseWidth c := by
  have hmask : (BitVec.ofNat 16 (2 ^ noiseWidth c - 1)).toNat < 2 ^ noiseWidth c := by cases c <;> decide
  rw [BitVec.toNat_and]
  exact lt_of_le_of_lt Nat.and_le_right hmask

/-! ### The slots and the ring -/

theorem SlotsOk.of_slotChange {d d' : Dbuf} (h : SlotsOk d) (hc : SlotChange d d') : SlotsOk d' :=
  ⟨hc.wf h.wf, hc.beyond h.wf h.beyond⟩

theorem endFrame_slotsOk {d : Dbuf} (h : SlotsOk d) (k : Int) : SlotsOk (endFrame d k) := ⟨h.wf, h.beyond⟩

theorem setRates_slotsOk {d : Dbuf} (h : SlotsOk d) (clkNum clkDen rate : BitVec 32) :
    SlotsOk (setRates d clkNum clkDen rate) := ⟨h.wf, h.beyond⟩

/-- One lane of what `DB.RD` leaves (40_delta_buffer.md R136). -/
theorem readSamples_buf_lane (s : State) (count : Nat) (x : Lane) :
    (readSamples s count).dbuf.buf.lane x =
      (readLane (readCount s.dbuf count) ⟨s.dbuf.buf.lane x, s.host.out.lane x, s.dbuf.integ.lane x⟩).buf := by
  cases x <;> rfl

theorem readSamples_out_lane (s : State) (count : Nat) (x : Lane) :
    (readSamples s count).host.out.lane x =
      (readLane (readCount s.dbuf count) ⟨s.dbuf.buf.lane x, s.host.out.lane x, s.dbuf.integ.lane x⟩).out := by
  cases x <;> rfl

/-- `DB.RD` shifts the slots down: a slot from `cap` on reads one further up, which is 0 (40_delta_buffer.md R136). -/
theorem readSamples_slotsOk {s : State} (h : SlotsOk s.dbuf) (hout : pairWf s.host.out) (count : Nat) :
    SlotsOk (readSamples s count).dbuf where
  wf x := by
    obtain ⟨hbuf, -⟩ := readLane_spec (readCount s.dbuf count)
      (x := ⟨s.dbuf.buf.lane x, s.host.out.lane x, s.dbuf.integ.lane x⟩) (h.wf x) (hout x)
    rw [readSamples_buf_lane]
    exact hbuf
  beyond x j hj := by
    obtain ⟨-, -, -, hread, -⟩ := readLane_spec (readCount s.dbuf count)
      (x := ⟨s.dbuf.buf.lane x, s.host.out.lane x, s.dbuf.integ.lane x⟩) (h.wf x) (hout x)
    rw [readSamples_buf_lane, hread]
    exact h.beyond x _ (le_trans (show s.dbuf.cap ≤ j from hj) (Nat.le_add_right _ _))

theorem readSamples_outWf {s : State} (h : SlotsOk s.dbuf) (hout : pairWf s.host.out) (count : Nat) :
    pairWf (readSamples s count).host.out := by
  intro x
  obtain ⟨-, hwf, -⟩ := readLane_spec (readCount s.dbuf count)
    (x := ⟨s.dbuf.buf.lane x, s.host.out.lane x, s.dbuf.integ.lane x⟩) (h.wf x) (hout x)
  rw [readSamples_out_lane]
  exact hwf

/-- A pushed sample goes into one of the 32 elements (43_resampler.md R234). -/
theorem rsPush_ringOk {r : Rs} (h : RingOk r) (x : Stereo Sample) : RingOk (rsPush r x) := by
  obtain ⟨hwf, hread⟩ := rsPush_hist h.wf x
  refine ⟨hwf, fun l j hj => ?_⟩
  rw [hread, if_neg (by omega)]
  exact h.size l j hj

theorem rsAdvance_ringOk {r : Rs} (h : RingOk r) : RingOk (rsAdvance r) := ⟨h.wf, h.size⟩

theorem rsPulls_ringOk (k : Nat) {s : State} (h : RingOk s.rs) : RingOk (rsPulls k s).rs := by
  induction k generalizing s with
  | zero => exact h
  | succ k ih => exact ih (rsPush_ringOk h _)

theorem rsLoop_ringOk (n i : Nat) {s : State} (h : RingOk s.rs) : RingOk (rsLoop n i s).rs := by
  induction n generalizing i s with
  | zero => exact h
  | succ n ih => exact ih _ (rsAdvance_ringOk (rsPulls_ringOk _ h))

/-! ### Every instruction keeps the units' parts -/

/-- A PSG procedure keeps the units' parts when it keeps the PSG's. -/
theorem UnitsOk.of_emits {s t : State} (h : UnitsOk s) (he : Emits s t) (hpsg : PsgOk s.params t.psg) :
    UnitsOk t where
  params := he.params ▸ h.params
  psg := he.params ▸ hpsg
  slots := h.slots.of_slotChange he.slots
  ring := he.rs ▸ h.ring
  out := he.host ▸ h.out

theorem applyForm_unitsOk {s : State} (h : UnitsOk s) (i : Instr) : UnitsOk (applyForm i s) :=
  h.of_emits (applyForm_emits i s) ((applyForm_write i s).psgOk h.params h.psg)

theorem sync_unitsOk {s : State} (h : UnitsOk s) (t : Int) : UnitsOk (sync s t) :=
  h.of_emits (Emits.sync s t) ((Emits.sync s t).params ▸ sync_psgOk h.psg t)

theorem readSamples_unitsOk {s : State} (h : UnitsOk s) (count : Nat) : UnitsOk (readSamples s count) :=
  ⟨h.params, h.psg, readSamples_slotsOk h.slots h.out count, h.ring, readSamples_outWf h.slots h.out count⟩

theorem renderFrame_unitsOk {s : State} (h : UnitsOk s) (T : Int) : UnitsOk (renderFrame s T) := by
  have hs := sync_unitsOk h T
  exact ⟨hs.params, ⟨hs.psg.freqIncPos, hs.psg.noPending, hs.psg.outIsAmp, hs.psg.lfsrWidth⟩,
    endFrame_slotsOk hs.slots T, hs.ring, hs.out⟩

theorem rsLoop_unitsOk {s : State} (h : UnitsOk s) (n i : Nat) : UnitsOk (rsLoop n i s) := by
  obtain ⟨hparams, hdbuf, hpsg, -, -, -, -, hout⟩ := rsLoop_frame n i s
  refine ⟨?_, ?_, ?_, rsLoop_ringOk n i h.ring, hout h.out⟩
  · exact hparams ▸ h.params
  · rw [hparams, hpsg]
    exact h.psg
  · exact hdbuf ▸ h.slots

theorem effect_unitsOk (i : Instr) {s : State} (h : UnitsOk s) : UnitsOk (effect i s) := by
  have hpsg := h.psg
  cases i with
  | dbCfg n d r => exact ⟨h.params, hpsg, setRates_slotsOk h.slots n d r, h.ring, h.out⟩
  | psgRate r => exact ⟨h.params, hpsg, setRates_slotsOk h.slots _ _ r, h.ring, h.out⟩
  | dbClr => exact ⟨h.params, hpsg, slotsOk_of_empty rfl, h.ring, h.out⟩
  | dbAdd t dl dr => exact h.of_emits (Emits.withDbuf (addDelta_slots _ _ _ _)) hpsg
  | dbAddf t dl dr => exact h.of_emits (Emits.withDbuf (addDeltaFast_slots _ _ _)) hpsg
  | dbEnd k => exact ⟨h.params, hpsg, endFrame_slotsOk h.slots _, h.ring, h.out⟩
  | dbRd n => exact readSamples_unitsOk h _
  | psgRst => exact h.of_emits (Emits.withPsg s _) (resetPsg_ok h.params _)
  | psgWr t b => exact applyForm_unitsOk (sync_unitsOk h _) _
  | psgRen n => exact readSamples_unitsOk (renderFrame_unitsOk h _) _
  | psgChip c =>
    exact h.of_emits (Emits.withPsg s _) ⟨hpsg.freqIncPos, hpsg.noPending, hpsg.outIsAmp, noiseMask_lt _ c⟩
  | psgHq x => exact h.of_emits (Emits.withPsg s _) ⟨hpsg.freqIncPos, hpsg.noPending, hpsg.outIsAmp, hpsg.lfsrWidth⟩
  | psgMute ch x => exact h.of_emits (muteChannel_emits s ch x) (muteChannel_psgOk hpsg ch x)
  | rsCfg a b => exact ⟨h.params, hpsg, h.slots, ringOk_of_empty rfl, h.out⟩
  | rsPush l r => exact ⟨h.params, hpsg, h.slots, rsPush_ringOk h.ring _, h.out⟩
  | rsHas => exact h
  | rsPop => exact ⟨h.params, hpsg, h.slots, rsAdvance_ringOk h.ring, h.out⟩
  | rsRen n => exact rsLoop_unitsOk h _ _
  | latch0 | latch1 | latch2 | latch3 | latch4 | latch5 | latch6 | latch7 | data0 | data1 | data2 | data3 | data4
  | data5 | data6 | data7 =>
    rw [effect_of_isByteForm rfl]
    exact applyForm_unitsOk h _

/-! ### `clocks` -/

/-- Rounding up to a multiple of `b` adds less than `b` (00_scope.md R11). -/
theorem ceilDiv_mul_bounds (a : Int) {b : Int} (hb : 0 < b) : a ≤ ceilDiv a b * b ∧ ceilDiv a b * b < a + b := by
  have hle := Int.ediv_mul_le (-a) (Int.ne_of_gt hb)
  have hlt := Int.lt_ediv_add_one_mul_self (-a) hb
  rw [Int.add_mul, Int.one_mul] at hlt
  rw [ceilDiv, Int.neg_mul]
  omega

/-- Where the time fits, the cycle boundary is at or after it and less than a cycle beyond (42_psg_run.md R191). -/
theorem syncedClocks_bounds {p : Params} (hp : p.wf = true) {c : Time} {t : Int} (hc : 0 ≤ c.toInt)
    (hlt : c.toInt < t) (hfit : t + ratioOf p ≤ 2 ^ 63) :
    t ≤ (syncedClocks p c t).toInt ∧ (syncedClocks p c t).toInt < t + ratioOf p := by
  obtain ⟨hpos, -⟩ := ratioOf_bounds hp
  obtain ⟨hlo, hhi⟩ := ceilDiv_mul_bounds (t - c.toInt) (b := (ratioOf p : Int)) (by omega)
  unfold syncedClocks
  rw [s64_toInt_of_range (by omega) (by omega)]
  omega

theorem sync_clocks_of_lt {s : State} {t : Int} (h : s.psg.clocks.toInt < t) :
    (sync s t).psg.clocks = syncedClocks s.params s.psg.clocks t := by
  rw [sync_of_lt h, State.withPsg_psg]

/-- `sync` keeps `clocks` non-negative where the time fits (42_psg_run.md R191, entry 12). -/
theorem sync_clocks_nonneg {s : State} (hp : s.params.wf = true) {t : Int} (h0 : 0 ≤ s.psg.clocks.toInt)
    (hfit : t + ratioOf s.params ≤ 2 ^ 63) : 0 ≤ (sync s t).psg.clocks.toInt := by
  rcases lt_or_ge s.psg.clocks.toInt t with hlt | hge
  · obtain ⟨hlo, -⟩ := syncedClocks_bounds hp h0 hlt hfit
    rw [sync_clocks_of_lt hlt]
    omega
  · rw [sync_of_le hge]
    exact h0

theorem clocksNeeded_nonneg (d : Dbuf) (count : Nat) : 0 ≤ clocksNeeded d count := by
  unfold clocksNeeded
  split
  · exact le_refl 0
  · split
    · exact le_refl 0
    · next hfactor hwant =>
      have hneg : -((count : Int) * 2 ^ 20 - d.offset.toInt) / d.factor.toInt ≤ 0 :=
        Int.ediv_nonpos_of_nonpos_of_neg (by omega) (by omega)
      rw [ceilDiv]
      omega

/-- With R = 1 every time is a cycle boundary (42_psg_run.md R191). -/
theorem syncedClocks_baseline {p : Params} (hv : p.variant = .baseline) (c : Time) (t : Int) :
    syncedClocks p c t = s64 t := by
  have hratio : ratioOf p = 1 := by rw [ratioOf, hv]
  rw [syncedClocks, hratio, ceilDiv, Nat.cast_one, Int.ediv_one, Int.mul_one]
  congr 1
  omega

/-- Rebasing by the frame length keeps `clocks` non-negative; in BASELINE also where the frame length is no `s64`,
because the reductions cancel (42_psg_run.md R198, entry 11). -/
theorem renderFrame_clocks_nonneg {s : State} (hp : s.params.wf = true) {T : Int} (h0 : 0 ≤ s.psg.clocks.toInt)
    (hT : 0 ≤ T) (hfit : s.params.variant = .baseline ∨ T + ratioOf s.params ≤ 2 ^ 63) :
    0 ≤ (renderFrame s T).psg.clocks.toInt := by
  show 0 ≤ (s64 ((sync s T).psg.clocks.toInt - T)).toInt
  rcases lt_or_ge s.psg.clocks.toInt T with hlt | hge
  · rw [sync_clocks_of_lt hlt]
    rcases hfit with hv | hfit
    · rw [syncedClocks_baseline hv, s64_sub, s64_toInt, BitVec.sub_self]
      decide
    · obtain ⟨hlo, -⟩ := syncedClocks_bounds hp h0 hlt hfit
      have hmax := BitVec.toInt_lt (x := syncedClocks s.params s.psg.clocks T)
      rw [s64_toInt_of_range (by omega) (by omega)]
      omega
  · have hmax := BitVec.toInt_lt (x := s.psg.clocks)
    rw [sync_of_le hge, s64_toInt_of_range (by omega) (by omega)]
    omega

theorem FormWrite.clocks {s t : State} {i : Instr} (h : FormWrite s i t) : t.psg.clocks = s.psg.clocks := by
  cases h with
  | command => rfl
  | period => rfl
  | att r ch v => exact (writeAtt_onlyAmp (setLatch s r) ch v).clocks
  | noise r v => exact (writeNoise_onlyNoise (setLatch s r) v).clocks

theorem applyForm_clocks (i : Instr) (s : State) : (applyForm i s).psg.clocks = s.psg.clocks :=
  (applyForm_write i s).clocks

theorem muteChannel_clocks (s : State) (ch : BitVec 32) (x : Bool) :
    (muteChannel s ch x).psg.clocks = s.psg.clocks := by
  obtain hsame | ⟨c, hset⟩ := muteChannel_cases s ch x
  · rw [hsame]
  · rw [hset]
    exact (setMute_onlyAmp s c x).clocks

/-- No instruction makes `clocks` negative where its time fits, and in BASELINE every time does (10_state.md R36,
R54). -/
theorem effect_clocks_nonneg (i : Instr) {s : State} (hp : s.params.wf = true) (h0 : 0 ≤ s.psg.clocks.toInt)
    (hfit : s.params.variant = .baseline ∨ timeFits s i) : 0 ≤ (effect i s).psg.clocks.toInt := by
  cases i with
  | psgRst => exact le_refl 0
  | psgWr t b =>
    have htime : t.toInt + ratioOf s.params ≤ 2 ^ 63 := by
      rcases hfit with hv | hfit
      · have hmax := BitVec.toInt_lt (x := t)
        have hratio : ratioOf s.params = 1 := by rw [ratioOf, hv]
        omega
      · exact hfit
    show 0 ≤ (applyForm _ _).psg.clocks.toInt
    rw [applyForm_clocks]
    exact sync_clocks_nonneg hp h0 htime
  | psgRen n => exact renderFrame_clocks_nonneg hp h0 (clocksNeeded_nonneg _ _) hfit
  | psgMute ch x =>
    show 0 ≤ (muteChannel s ch x).psg.clocks.toInt
    rw [muteChannel_clocks]
    exact h0
  | rsRen n =>
    obtain ⟨-, -, hpsg, -⟩ := rsLoop_frame n.toNat 0 s
    show 0 ≤ (rsLoop n.toNat 0 s).psg.clocks.toInt
    rw [hpsg]
    exact h0
  | latch0 | latch1 | latch2 | latch3 | latch4 | latch5 | latch6 | latch7 => exact (applyForm_clocks _ s).symm ▸ h0
  | data0 | data1 | data2 | data3 | data4 | data5 | data6 | data7 => exact (applyForm_clocks _ s).symm ▸ h0
  | _ => exact h0

/-! ### The step -/

/-- No instruction touches the host's next events (entry 2). -/
theorem effect_events (i : Instr) (s : State) : (effect i s).host.events = s.host.events := by
  cases i with
  | psgWr t b => exact congrArg HostSide.events (psgWr_emits t b s).host
  | psgRen n => exact (congrArg HostSide.events (Emits.sync s (clocksNeeded s.dbuf n.toNat)).host :)
  | psgMute ch x => exact congrArg HostSide.events (muteChannel_emits s ch x).host
  | rsRen n =>
    obtain ⟨-, -, -, -, hevents, -⟩ := rsLoop_frame n.toNat 0 s
    exact hevents
  | latch0 | latch1 | latch2 | latch3 | latch4 | latch5 | latch6 | latch7 =>
    exact congrArg HostSide.events (applyForm_emits _ s).host
  | data0 | data1 | data2 | data3 | data4 | data5 | data6 | data7 =>
    exact congrArg HostSide.events (applyForm_emits _ s).host
  | _ => rfl

/-- Every instruction keeps the bound of DB_MAX_SLOTS that was kept before it (20_memory.md R76). -/
theorem exec_keeps_within {i : Instr} {s t : State} (h : exec i s = .next t) (hs : s.Within) : t.Within := by
  obtain ⟨⟨r, rfl⟩, hwithin | hpeak⟩ := exec_next h
  · exact hwithin
  · intro m hm
    rw [State.respond_params, effect_params] at hm
    rw [State.respond_dbuf, hpeak]
    exact hs m hm

theorem respond_unitsOk {s : State} (h : UnitsOk s) (r : BitVec 64) : UnitsOk (s.respond r) :=
  ⟨h.params, h.psg, h.slots, h.ring, h.out⟩

/-- Every instruction keeps the invariant. -/
theorem exec_keeps_inv {i : Instr} {s t : State} (hs : s.Inv) (h : exec i s = .next t) : t.Inv := by
  obtain ⟨hunits, hevents, hclocks, hwithin⟩ := (inv_iff s).mp hs
  have htwithin := exec_keeps_within h hwithin
  obtain ⟨⟨r, rfl⟩, -⟩ := exec_next h
  refine (inv_iff _).mpr ⟨respond_unitsOk (effect_unitsOk i hunits) r, ?_, fun hv => ?_, htwithin⟩
  · rw [State.respond_host_events, effect_events]
    exact hevents
  · rw [State.respond_params, effect_params] at hv
    exact effect_clocks_nonneg i hunits.params (hclocks hv) (.inl hv)

/-- Taking a presented word whose buffers are in canonical form keeps the invariant. -/
theorem accept_inv {s : State} {w : PortWord} {buffers : Option (Stereo (Memory 32))} {answers : List (Stereo Sample)}
    {rest : List HostEvent} (hs : s.Inv) (hevents : s.host.events = .present w buffers answers :: rest) :
    (s.accept rest buffers answers).Inv := by
  obtain ⟨hunits, hwf, hclocks, hwithin⟩ := (inv_iff s).mp hs
  rw [hevents, List.forall_mem_cons] at hwf
  obtain ⟨hhead, htail⟩ := hwf
  have hout : pairWf (buffers.getD s.host.out) := by
    cases buffers with
    | none => exact hunits.out
    | some b => exact hhead
  exact (inv_iff _).mpr ⟨⟨hunits.params, hunits.psg, hunits.slots, hunits.ring, hout⟩, htail, hclocks, hwithin⟩

/-- The reset input leaves the power-on state but for the host's side (70_reset_and_hazards.md R280, entry 19). -/
theorem hardReset_inv {s : State} {rest : List HostEvent} (hs : s.Inv) (hevents : s.host.events = .reset :: rest) :
    (s.hardReset rest).Inv := by
  obtain ⟨hunits, hwf, -, -⟩ := (inv_iff s).mp hs
  rw [hevents, List.forall_mem_cons] at hwf
  obtain ⟨-, htail⟩ := hwf
  have hpower := powerOn_unitsOk hunits.params
  exact (inv_iff _).mpr ⟨⟨hpower.params, hpower.psg, hpower.slots, hpower.ring, hunits.out⟩, htail,
    fun _ => le_refl 0, fun m _ => Nat.zero_le m⟩

/-- Settles O9: an idle step keeps the state, a reset leaves the power-on values, and an instruction runs in the state
that accepted its word. -/
theorem stepKeepsInvariant : Obligations.StepKeepsInvariant := by
  intro s t hs h
  obtain rfl | ⟨rest, hevents, rfl⟩ | ⟨w, buffers, answers, rest, i, hevents, hdecode, hexec⟩ := step_next_cases h
  · exact ⟨hs, fun h0 _ => h0⟩
  · exact ⟨hardReset_inv hs hevents, fun _ _ => le_refl 0⟩
  · refine ⟨exec_keeps_inv (accept_inv hs hevents) hexec, fun h0 hfits => ?_⟩
    obtain ⟨⟨r, rfl⟩, -⟩ := exec_next hexec
    exact effect_clocks_nonneg i (s := s.accept rest buffers answers) hs.params h0
      (.inr (hfits w buffers answers rest i hevents hdecode))

end Sys2Proof.Proofs
end

section
/-! The slots account for the channel levels: every emitted delta adds 32768 times itself to the slots of its lane, and
every move of a level or of a pending delta is met by the delta it emits (10_state.md R52, R53). -/

namespace Sys2Proof.Proofs

open Sys2Proof Sys2Proof.Machine

/-! ### Lanes -/

@[simp] theorem zero_lane (x : Lane) : (⟨0, 0⟩ : Stereo Amp).lane x = 0 := by cases x <;> rfl

theorem subPair_lane (a b : Stereo Amp) (x : Lane) : (subPair a b).lane x = a.lane x - b.lane x := by
  rw [subPair_eq]
  cases x <;> rfl

theorem addPair_lane (a b : Stereo Amp) (x : Lane) : (addPair a b).lane x = a.lane x + b.lane x := by
  rw [addPair_eq]
  cases x <;> rfl

theorem scalePair_lane (k : Int) (a : Stereo Amp) (x : Lane) : (scalePair k a).lane x = s32 k * a.lane x := by
  unfold scalePair
  rw [s32_mul, s32_mul, s32_toInt, s32_toInt]
  cases x <;> rfl

/-! ### What one delta adds to the slots -/

/-- The sum of the eight taps of a row of KERNEL (10_state.md R62). -/
def rowTaps (kernel : List (List Int)) (i : Nat) : Int :=
  tableAt kernel i 0 + tableAt kernel i 1 + tableAt kernel i 2 + tableAt kernel i 3 +
  tableAt kernel i 4 + tableAt kernel i 5 + tableAt kernel i 6 + tableAt kernel i 7

theorem rowTaps_eq_sum {kernel : List (List Int)} {i : Nat} (h : (kernel.getD i []).length = 8) :
    rowTaps kernel i = (kernel.getD i []).sum := by
  unfold rowTaps tableAt
  generalize kernel.getD i [] = row at h
  obtain ⟨a, b, c, d, e, f, g, k, rfl⟩ : ∃ a b c d e f g k, row = [a, b, c, d, e, f, g, k] := by
    match row, h with
    | [a, b, c, d, e, f, g, k], _ => exact ⟨a, b, c, d, e, f, g, k, rfl⟩
  simp only [List.getD_cons_zero, List.getD_cons_succ, List.sum_cons, List.sum_nil]
  ring

/-- The pair-sum property of KERNEL on its taps (10_state.md R62). -/
theorem rowTaps_pair {p : Params} (h : p.kernelOk = true) {i : Nat} (hi : i ≤ 32) :
    rowTaps p.kernel i + rowTaps p.kernel (32 - i) = 32768 := by
  simp only [Params.kernelOk, Bool.and_eq_true, beq_iff_eq, List.all_eq_true] at h
  obtain ⟨⟨hlength, hrows⟩, hpairs⟩ := h
  have hrow : ∀ j, j ≤ 32 → (p.kernel.getD j []).length = 8 := by
    intro j hj
    have hlt : j < p.kernel.length := by omega
    rw [List.getD_eq_getElem _ _ hlt]
    obtain ⟨hlen, -⟩ := hrows _ (List.getElem_mem hlt)
    exact hlen
  rw [rowTaps_eq_sum (hrow i hi), rowTaps_eq_sum (hrow (32 - i) (by omega))]
  exact hpairs i (List.mem_range.mpr (by omega))

/-- The 16 slot additions of one lane of `DB.ADD` add up to 32768 times the delta (40_delta_buffer.md R133, R139). -/
theorem tapList_sum {p : Params} (h : p.kernelOk = true) (f : Nat) (d : Int) :
    ((tapList p.kernel f d).map Prod.snd).sum = 32768 * d := by
  have hphase : phaseOf f < 32 := Nat.mod_lt _ (by decide)
  have hfirst := rowTaps_pair h (i := phaseOf f) (by omega)
  have hsecond := rowTaps_pair h (i := phaseOf f + 1) (by omega)
  rw [show 32 - (phaseOf f + 1) = 31 - phaseOf f by omega] at hsecond
  unfold tapList
  generalize tdiv (d * interpOf f) 32768 = d2
  simp only [List.flatMap_cons, List.flatMap_nil, List.cons_append, List.nil_append, List.map_cons, List.map_nil,
    List.sum_cons, List.sum_nil]
  unfold rowTaps at hfirst hsecond
  linear_combination (d - d2) * hfirst + d2 * hsecond

/-- A delta adds 32768 times itself to the slots of each lane, by either path (40_delta_buffer.md R139). -/
theorem emit_total {s : State} (hk : s.params.kernelOk = true) (hwf : pairWf s.dbuf.buf) (t : Int) (d : Stereo Amp)
    (x : Lane) : ((emit s t d).dbuf.buf.lane x).total = (s.dbuf.buf.lane x).total + 32768 * d.lane x := by
  have hscale : s32 (32768 * (d.lane x).toInt) = 32768 * d.lane x := by
    rw [s32_mul, s32_toInt]
    rfl
  unfold emit
  rw [State.withDbuf_dbuf]
  split
  · obtain ⟨-, -, htotal⟩ := addTaps_spec s.params.kernel (fixedTime s.dbuf t) (d.lane x).toInt (hwf x)
    rw [addDelta_lane, htotal, tapList_sum hk, hscale]
  · obtain ⟨-, -, htotal⟩ := addFast_spec (fixedTime s.dbuf t) (d.lane x).toInt (hwf x)
    rw [addDeltaFast_lane, htotal, Int.mul_comm, hscale]

/-! ### Levels -/

/-- A channel's share of the emitted level: level(ch) - `chanDelta[ch]` (10_state.md R52). -/
def share (g : Psg) (ch : Chan) (x : Lane) : Amp := levelOf g ch x - (g.chanDelta.get ch).lane x

theorem emittedLevel_eq (g : Psg) (x : Lane) :
    emittedLevel g x = share g .c0 x + share g .c1 x + share g .c2 x + share g .c3 x := rfl

/-- The share of channel `ch` moves by `d`, the other channels' shares stay. -/
structure MovesShare (g g' : Psg) (ch : Chan) (d : Stereo Amp) : Prop where
  other : ∀ c, c ≠ ch → ∀ x, share g' c x = share g c x
  own : ∀ x, share g' ch x - share g ch x = d.lane x

theorem MovesShare.emittedLevel_sub {g g' : Psg} {ch : Chan} {d : Stereo Amp} (h : MovesShare g g' ch d) (x : Lane) :
    emittedLevel g' x - emittedLevel g x = d.lane x := by
  have hother := fun c hc => h.other c hc x
  rw [emittedLevel_eq, emittedLevel_eq, ← h.own x]
  cases ch with
  | c0 => rw [hother .c1 (by decide), hother .c2 (by decide), hother .c3 (by decide)]; ring
  | c1 => rw [hother .c0 (by decide), hother .c2 (by decide), hother .c3 (by decide)]; ring
  | c2 => rw [hother .c0 (by decide), hother .c1 (by decide), hother .c3 (by decide)]; ring
  | c3 => rw [hother .c0 (by decide), hother .c1 (by decide), hother .c2 (by decide)]; ring

theorem share_congr {g g' : Psg} {c : Chan} (hhigh : high g' c = high g c)
    (hout : g'.chanOut.get c = g.chanOut.get c) (hdelta : g'.chanDelta.get c = g.chanDelta.get c) (x : Lane) :
    share g' c x = share g c x := by
  rw [share, share, levelOf, levelOf, hhigh, hout, hdelta]

theorem high_of_ne_noise (g : Psg) {c : Chan} (h : c ≠ .c3) : high g c = (g.polarity.get c == .plus) := by
  cases c with
  | c0 | c1 | c2 => rfl
  | c3 => exact absurd rfl h

/-- A polarity decides "high" for its own tone channel only (41_psg_write.md R164). -/
theorem high_setPolarity_other (g : Psg) (p : Polarity) {ch c : Chan} (h : c ≠ ch) :
    high { g with polarity := g.polarity.set ch p } c = high g c := by
  by_cases hc : c = .c3
  · rw [hc]
    rfl
  · rw [high_of_ne_noise _ hc, high_of_ne_noise _ hc, Quad.get_set_other _ h]

/-- `flush`: what was pending is not pending any more (42_psg_run.md R193). -/
theorem clearPending_moves (g : Psg) (ch : Chan) :
    MovesShare g { g with chanDelta := g.chanDelta.set ch ⟨0, 0⟩ } ch (g.chanDelta.get ch) where
  other c hc := share_congr rfl rfl (Quad.get_set_other _ hc _)
  own x := by
    show levelOf g ch x - ((g.chanDelta.set ch ⟨0, 0⟩).get ch).lane x -
      (levelOf g ch x - (g.chanDelta.get ch).lane x) = _
    rw [Quad.get_set_same, zero_lane]
    ring

/-- A level is the amplitude times the channel's bit "high" (10_state.md R52). -/
theorem levelOf_eq_mul (g : Psg) (ch : Chan) (x : Lane) :
    levelOf g ch x = s32 (bitInt (high g ch)) * (g.chanOut.get ch).lane x := by
  unfold levelOf
  cases high g ch with
  | false => exact BitVec.zero_mul.symm
  | true => exact (BitVec.one_mul _).symm

/-- The new polarity's sign is the change of the bit "polarity is +1". -/
theorem sign_flip (p : Polarity) : p.flip.sign = bitInt (p.flip == .plus) - bitInt (p == .plus) := by
  cases p <;> rfl

/-- A polarity turned to +1 raises the level by the amplitude, turned to -1 lowers it (42_psg_run.md R194). -/
theorem flipTone_moves (g : Psg) (ch : Tone) :
    MovesShare g { g with polarity := g.polarity.set ch.chan (g.polarity.get ch.chan).flip } ch.chan
      (scalePair (g.polarity.get ch.chan).flip.sign (g.chanOut.get ch.chan)) where
  other c hc := share_congr (high_setPolarity_other g _ hc) rfl rfl
  own x := by
    have hch : ch.chan ≠ .c3 := by cases ch <;> decide
    simp only [share, levelOf_eq_mul, high_of_ne_noise _ hch, Quad.get_set_same, scalePair_lane, sign_flip, s32_sub]
    ring

/-- The noise channel's polarity decides no level; its level follows the output bit (41_psg_write.md R164,
42_psg_run.md R195). -/
theorem shiftNoise_moves (g : Psg) (q : Polarity) (v : BitVec 16) :
    MovesShare g { g with polarity := g.polarity.set .c3 q, noiseShiftValue := v } .c3
      (scalePair (bitInt (v.getLsbD 0) - bitInt (noiseBit g)) g.chanOut.q3) where
  other c hc := by
    refine share_congr ?_ rfl rfl
    rw [high_of_ne_noise _ hc, high_of_ne_noise _ hc, Quad.get_set_other _ hc]
  own x := by
    simp only [share, levelOf_eq_mul, high, noiseBit, Quad.get_c3, scalePair_lane, s32_sub]
    ring

/-- A new amplitude moves the level of a high channel by the difference (41_psg_write.md R161). -/
theorem setChanOut_high_moves {g : Psg} {ch : Chan} (h : high g ch = true) (new : Stereo Amp) :
    MovesShare g { g with chanOut := g.chanOut.set ch new } ch (subPair new (g.chanOut.get ch)) where
  other c hc := share_congr rfl (Quad.get_set_other _ hc _) rfl
  own x := by
    show (if high g ch then ((g.chanOut.set ch new).get ch).lane x else 0) - _ - ((if high g ch then _ else 0) - _) = _
    rw [h, Quad.get_set_same, subPair_lane]
    simp only [if_true]
    ring

/-- A low channel has level 0 at every amplitude (10_state.md R52). -/
theorem setChanOut_low_moves {g : Psg} {ch : Chan} (h : high g ch = false) (new : Stereo Amp) :
    MovesShare g { g with chanOut := g.chanOut.set ch new } ch ⟨0, 0⟩ where
  other c hc := share_congr rfl (Quad.get_set_other _ hc _) rfl
  own x := by
    show (if high g ch then _ else 0) - _ - ((if high g ch then _ else 0) - _) = _
    rw [h, zero_lane]
    simp only [Bool.false_eq_true, if_false]
    ring

/-- A delta that becomes pending leaves the share as much lower as the new level leaves it higher (42_psg_run.md
R190). -/
theorem addPending_moves {g g' : Psg} {ch : Chan} {d : Stereo Amp} (h : MovesShare g g' ch d) :
    MovesShare g { g' with chanDelta := g'.chanDelta.set ch (addPair (g'.chanDelta.get ch) d) } ch ⟨0, 0⟩ where
  other c hc x := by
    rw [← h.other c hc x]
    refine share_congr ?_ ?_ (Quad.get_set_other g'.chanDelta hc _) x
    · rfl
    · rfl
  own x := by
    have hown := h.own x
    show levelOf g' ch x - ((g'.chanDelta.set ch _).get ch).lane x - share g ch x = _
    rw [Quad.get_set_same, addPair_lane, zero_lane, ← hown]
    show levelOf g' ch x - (_ + (levelOf g' ch x - _ - _)) - _ = _
    ring

/-! ### Accounting -/

/-- From `s` to `t` the slots of each lane gain 32768 times what the emitted level gains. -/
structure Accounts (s t : State) : Prop where
  emits : Emits s t
  balance : s.params.kernelOk = true → pairWf s.dbuf.buf → ∀ x : Lane,
    (t.dbuf.buf.lane x).total - (s.dbuf.buf.lane x).total = 32768 * (emittedLevel t.psg x - emittedLevel s.psg x)

namespace Accounts

theorem trans {s s' s'' : State} (h : Accounts s s') (h' : Accounts s' s'') : Accounts s s'' where
  emits := h.emits.trans h'.emits
  balance hk hwf x := by
    have hfirst := h.balance hk hwf x
    have hsecond := h'.balance (h.emits.params ▸ hk) (h.emits.slots.wf hwf) x
    linear_combination hfirst + hsecond

/-- Moves of the PSG that leave the emitted level alone need no delta. -/
theorem silent (s : State) {g : Psg} (h : ∀ x, emittedLevel g x = emittedLevel s.psg x) :
    Accounts s (s.withPsg g) where
  emits := Emits.withPsg s g
  balance _ _ x := by
    rw [State.withPsg_dbuf, State.withPsg_psg, h x]
    ring

theorem refl (s : State) : Accounts s s := silent s fun _ => rfl

/-- A share that does not move needs no delta. -/
theorem still (s : State) {g : Psg} {ch : Chan} (h : MovesShare s.psg g ch ⟨0, 0⟩) : Accounts s (s.withPsg g) :=
  silent s fun x => sub_eq_zero.mp ((h.emittedLevel_sub x).trans (zero_lane x))

/-- A share that moves by the delta emitted is accounted for, whatever PSG state the delta is emitted in. -/
theorem emitting (s : State) (g : Psg) {g' : Psg} {ch : Chan} (t : Int) {d : Stereo Amp}
    (h : MovesShare s.psg g' ch d) : Accounts s ((emit (s.withPsg g) t d).withPsg g') where
  emits := ⟨rfl, rfl, rfl, emit_slots (s.withPsg g) t d⟩
  balance hk hwf x := by
    rw [State.withPsg_dbuf, State.withPsg_psg, emit_total (s := s.withPsg g) hk hwf, State.withPsg_dbuf,
      h.emittedLevel_sub x]
    ring

end Accounts

/-! ### Running the channels -/

theorem flush_accounts (s : State) (ch : Chan) : Accounts s (flush s ch) := by
  unfold flush
  split
  · exact Accounts.refl s
  · exact Accounts.emitting s s.psg _ (clearPending_moves s.psg ch)

theorem toneFlip_accounts (ch : Tone) (ts : Time) (s : State) : Accounts s (toneFlip ch ts s) :=
  Accounts.emitting s _ _ (flipTone_moves s.psg ch)

theorem toneLoop_accounts (ch : Tone) (n : Nat) (ts : Time) (s : State) : Accounts s (toneLoop ch n ts s) := by
  induction n generalizing ts s with
  | zero => exact Accounts.silent s fun _ => rfl
  | succ n ih => exact (toneFlip_accounts ch ts s).trans (ih _ _)

theorem runTone_accounts (s : State) (ch : Tone) (target : Int) : Accounts s (runTone s ch target) :=
  toneLoop_accounts ch _ _ s

/-- A flip to -1 leaves the output bit; a flip to +1 shifts the LFSR and emits the change (42_psg_run.md R195). -/
theorem noiseFlip_accounts (ts : Time) (s : State) : Accounts s (noiseFlip ts s) := by
  unfold noiseFlip
  cases s.psg.polarity.q3.flip with
  | minus =>
    have hmoves := shiftNoise_moves s.psg .minus s.psg.noiseShiftValue
    rw [show s.psg.noiseShiftValue.getLsbD 0 = noiseBit s.psg from rfl, sub_self, scalePair_zero] at hmoves
    exact Accounts.still s hmoves
  | plus => exact Accounts.emitting s _ _ (shiftNoise_moves s.psg .plus _)

theorem noiseLoop_accounts (n : Nat) (ts : Time) (s : State) : Accounts s (noiseLoop n ts s) := by
  induction n generalizing ts s with
  | zero => exact Accounts.silent s fun _ => rfl
  | succ n ih => exact (noiseFlip_accounts ts s).trans (ih _ _)

theorem psgUpdate_accounts (s : State) (target : Int) : Accounts s (psgUpdate s target) := by
  unfold psgUpdate
  exact ((flush_accounts s .c0).trans (runTone_accounts _ _ _)).trans
    (((flush_accounts _ .c1).trans (runTone_accounts _ _ _)).trans
      (((flush_accounts _ .c2).trans (runTone_accounts _ _ _)).trans
        ((flush_accounts _ .c3).trans (noiseLoop_accounts _ _ _))))

theorem sync_accounts (s : State) (t : Int) : Accounts s (sync s t) := by
  rcases lt_or_ge s.psg.clocks.toInt t with hlt | hge
  · rw [sync_of_lt hlt]
    exact (psgUpdate_accounts s t).trans (Accounts.silent _ fun _ => rfl)
  · rw [sync_of_le hge]
    exact Accounts.refl s

/-! ### Register writes -/

/-- `setAmp` pays for the change of a high channel's level: emitted in BASELINE, pending in ACCURATE (41_psg_write.md
R161). -/
theorem setAmp_accounts (s : State) (ch : Chan) (new : Stereo Amp) : Accounts s (setAmp s ch new) := by
  cases hhigh : high s.psg ch with
  | false =>
    rw [setAmp_low hhigh]
    exact Accounts.still s (setChanOut_low_moves hhigh new)
  | true =>
    have hmoves := setChanOut_high_moves hhigh new
    cases hv : s.params.variant with
    | baseline =>
      rw [setAmp_high_baseline hhigh hv]
      exact Accounts.emitting s s.psg _ hmoves
    | accurate =>
      rw [setAmp_high_accurate hhigh hv]
      exact Accounts.still s (addPending_moves hmoves)

/-- Reseeding the LFSR takes the output bit low: from high the level falls by the amplitude, from low it stays
(41_psg_write.md R167). -/
theorem reseed_moves (g : Psg) :
    MovesShare g { g with noiseShiftValue := lfsrSeed g.chipType } .c3
      (if noiseBit g then subPair ⟨0, 0⟩ g.chanOut.q3 else ⟨0, 0⟩) := by
  have hmoves := shiftNoise_moves g g.polarity.q3 (lfsrSeed g.chipType)
  have hseed : (lfsrSeed g.chipType).getLsbD 0 = false := by cases g.chipType <;> rfl
  rw [hseed] at hmoves
  cases hbit : noiseBit g with
  | false =>
    rw [hbit, sub_self, scalePair_zero] at hmoves
    exact hmoves
  | true =>
    rw [hbit, show bitInt false - bitInt true = -1 from rfl, scalePair_neg_one] at hmoves
    rw [if_pos rfl, subPair_eq, zero_sub, zero_sub]
    exact hmoves

/-- `setNoise` pays for the level that the new seed takes away (41_psg_write.md R167). -/
theorem setNoise_accounts (s : State) : Accounts s (setNoise s) := by
  rw [setNoise_eq]
  have hinc : Accounts s (s.withPsg { s.psg with freqInc := s.psg.freqInc.set .c3 (noiseIncOf s) }) :=
    Accounts.silent s fun _ => rfl
  refine hinc.trans ?_
  generalize hs1 : s.withPsg { s.psg with freqInc := s.psg.freqInc.set .c3 (noiseIncOf s) } = s1
  have hmoves := reseed_moves s1.psg
  rw [show noiseBit s.psg = noiseBit s1.psg by rw [← hs1]; rfl,
    show s.psg.chanOut.q3 = s1.psg.chanOut.q3 by rw [← hs1]; rfl]
  cases hbit : noiseBit s1.psg with
  | false =>
    rw [hbit] at hmoves
    exact Accounts.still s1 hmoves
  | true =>
    rw [hbit, if_pos rfl] at hmoves
    cases hv : s1.params.variant with
    | baseline =>
      rw [if_pos rfl, owe_baseline hv]
      exact Accounts.emitting s1 s1.psg _ hmoves
    | accurate =>
      rw [if_pos rfl, owe_accurate hv]
      exact Accounts.still s1 (addPending_moves hmoves)

theorem FormWrite.accounts {s t : State} {i : Instr} (h : FormWrite s i t) : Accounts s t := by
  cases h with
  | command => exact Accounts.refl s
  | period r ch v => exact Accounts.silent s fun _ => rfl
  | att r ch v =>
    rw [writeAtt_eq]
    exact (Accounts.silent s (g := withAtt { s.psg with latch := r } ch v) fun _ => rfl).trans (setAmp_accounts _ _ _)
  | noise r v =>
    rw [writeNoise_eq]
    exact (Accounts.silent s (g := withNoiseCtrl { s.psg with latch := r } v) fun _ => rfl).trans (setNoise_accounts _)

theorem applyForm_accounts (i : Instr) (s : State) : Accounts s (applyForm i s) := (applyForm_write i s).accounts

theorem muteChannel_accounts (s : State) (ch : BitVec 32) (x : Bool) : Accounts s (muteChannel s ch x) := by
  obtain hsame | ⟨c, hset⟩ := muteChannel_cases s ch x
  · rw [hsame]
    exact Accounts.refl s
  · rw [hset, setMute_eq]
    exact (Accounts.silent s (g := withMute s.psg c x) fun _ => rfl).trans (setAmp_accounts _ _ _)

/-! ### The statement -/

/-- In an unbounded memory every instruction completes (20_memory.md R72, R76). -/
theorem exec_unbounded (i : Instr) {s : State} (h : s.Unbounded) : ∃ r, exec i s = .next ((effect i s).respond r) := by
  have heffect : (effect i s).Unbounded := (congrArg Params.dbMaxSlots (effect_params i s)).trans h
  obtain ⟨r, hw | ⟨hc, -⟩⟩ := exec_completes i s
  · exact ⟨r, hw.trans (completeWithin_unbounded heffect r)⟩
  · exact ⟨r, hc⟩

/-- Settles O42: each of the three kinds of instruction is a chain of accounted moves. -/
theorem slotsAccountForLevels : Obligations.SlotsAccountForLevels := by
  intro i s hi hunbounded hwf hk
  obtain ⟨r, hexec⟩ := exec_unbounded i hunbounded
  have haccounts : Accounts s (effect i s) := by
    obtain hform | ⟨t, b, rfl⟩ | ⟨ch, x, rfl⟩ := hi
    · rw [effect_of_isByteForm hform]
      exact applyForm_accounts i s
    · exact (sync_accounts s t.toInt).trans (applyForm_accounts _ _)
    · exact muteChannel_accounts s ch x
  exact ⟨_, hexec, haccounts.balance hk hwf⟩

end Sys2Proof.Proofs
end

section
/-! Which instructions write which piece of state: one record of clauses per unit, met by every instruction. -/

namespace Sys2Proof.Proofs

open Sys2Proof Sys2Proof.Machine

/-! ### The PSG -/

/-- The "written by" sentences of 10_state.md R24 to R29 and R35 to R42, for a change of the PSG from `g` to `g'` by
instruction `i`. -/
structure PsgWrites (i : Instr) (g g' : Psg) : Prop where
  mutes : g'.mutes ≠ g.mutes → ∃ ch x, i = .psgMute ch x
  hqMode : g'.hqMode ≠ g.hqMode → ∃ x, i = .psgHq x
  chipType : g'.chipType ≠ g.chipType → ∃ c, i = .psgChip c
  registers : g'.regs ≠ g.regs ∨ g'.latch ≠ g.latch ∨ g'.freqInc ≠ g.freqInc →
    isByteForm i = true ∨ (∃ k b, i = .psgWr k b) ∨ i = .psgRst
  timing : g'.polarity ≠ g.polarity ∨ g'.clocks ≠ g.clocks ∨ g'.freqCounter ≠ g.freqCounter →
    (∃ k b, i = .psgWr k b) ∨ (∃ n, i = .psgRen n) ∨ i = .psgRst
  chanOut : g'.chanOut ≠ g.chanOut →
    (attWrite g i).isSome = true ∨ (∃ k b, i = .psgWr k b) ∨ (∃ ch x, i = .psgMute ch x) ∨ i = .psgRst
  chanDelta : g'.chanDelta ≠ g.chanDelta →
    writesLevel g i = true ∨ (∃ k b, i = .psgWr k b) ∨ (∃ n, i = .psgRen n) ∨ (∃ ch x, i = .psgMute ch x) ∨
    i = .psgRst
  noiseShiftValue : g'.noiseShiftValue ≠ g.noiseShiftValue →
    (noiseWrite g i).isSome = true ∨ (∃ k b, i = .psgWr k b) ∨ (∃ n, i = .psgRen n) ∨ i = .psgRst ∨
    ∃ c, i = .psgChip c

theorem writesLevel_of_att {g : Psg} {i : Instr} (h : (attWrite g i).isSome = true) : writesLevel g i = true := by
  rw [writesLevel, h, Bool.true_or]

theorem writesLevel_of_noise {g : Psg} {i : Instr} (h : (noiseWrite g i).isSome = true) : writesLevel g i = true := by
  rw [writesLevel, h, Bool.or_true]

theorem canEmit_of_writesLevel {g : Psg} {i : Instr} (h : writesLevel g i = true) : canEmit g i :=
  .inr (.inr (.inr (.inr (.inr h))))

/-- A disjunction of changes of three fields that did not change. -/
theorem no_change_of_three {α β γ : Type} {a a' : α} {b b' : β} {c c' : γ} {P : Prop} (ha : a' = a) (hb : b' = b)
    (hc : c' = c) (h : a' ≠ a ∨ b' ≠ b ∨ c' ≠ c) : P := by
  rcases h with h | h | h
  · exact absurd ha h
  · exact absurd hb h
  · exact absurd hc h

theorem PsgWrites.refl (i : Instr) (g : Psg) : PsgWrites i g g where
  mutes h := absurd rfl h
  hqMode h := absurd rfl h
  chipType h := absurd rfl h
  registers h := no_change_of_three rfl rfl rfl h
  timing h := no_change_of_three rfl rfl rfl h
  chanOut h := absurd rfl h
  chanDelta h := absurd rfl h
  noiseShiftValue h := absurd rfl h

/-- The register forms meet the clauses for the register they write (41_psg_write.md R170 to R185). -/
theorem FormWrite.psgWrites {s t : State} {i : Instr} (h : FormWrite s i t) : PsgWrites i s.psg t.psg := by
  cases h with
  | command => exact PsgWrites.refl i s.psg
  | period r ch v hi =>
    exact {
      mutes := fun h => absurd rfl h
      hqMode := fun h => absurd rfl h
      chipType := fun h => absurd rfl h
      registers := fun _ => .inl hi
      timing := fun h => no_change_of_three rfl rfl rfl h
      chanOut := fun h => absurd rfl h
      chanDelta := fun h => absurd rfl h
      noiseShiftValue := fun h => absurd rfl h }
  | att r ch v hi hatt =>
    have hamp := writeAtt_onlyAmp (setLatch s r) ch v
    exact {
      mutes := fun h => absurd hamp.mutes h
      hqMode := fun h => absurd hamp.hqMode h
      chipType := fun h => absurd hamp.chipType h
      registers := fun _ => .inl hi
      timing := fun h => no_change_of_three hamp.polarity hamp.clocks hamp.freqCounter h
      chanOut := fun _ => .inl hatt
      chanDelta := fun _ => .inl (writesLevel_of_att hatt)
      noiseShiftValue := fun h => absurd hamp.noiseShiftValue h }
  | noise r v hi hnoise =>
    have honly := writeNoise_onlyNoise (setLatch s r) v
    exact {
      mutes := fun h => absurd honly.mutes h
      hqMode := fun h => absurd honly.hqMode h
      chipType := fun h => absurd honly.chipType h
      registers := fun _ => .inl hi
      timing := fun h => no_change_of_three honly.polarity honly.clocks honly.freqCounter h
      chanOut := fun h => absurd honly.chanOut h
      chanDelta := fun _ => .inl (writesLevel_of_noise hnoise)
      noiseShiftValue := fun _ => .inl hnoise }

/-- No form writes a mute flag, `hqMode` or `chipType` (10_state.md R28, R29, R35). -/
theorem FormWrite.flags {s t : State} {i : Instr} (h : FormWrite s i t) :
    t.psg.mutes = s.psg.mutes ∧ t.psg.hqMode = s.psg.hqMode ∧ t.psg.chipType = s.psg.chipType := by
  cases h with
  | command => exact ⟨rfl, rfl, rfl⟩
  | period => exact ⟨rfl, rfl, rfl⟩
  | att r ch v =>
    have hamp := writeAtt_onlyAmp (setLatch s r) ch v
    exact ⟨hamp.mutes, hamp.hqMode, hamp.chipType⟩
  | noise r v =>
    have honly := writeNoise_onlyNoise (setLatch s r) v
    exact ⟨honly.mutes, honly.hqMode, honly.chipType⟩

theorem psgWr_psgWrites (k : Time) (b : BitVec 8) (s : State) :
    PsgWrites (.psgWr k b) s.psg (effect (.psgWr k b) s).psg := by
  obtain ⟨-, -, -, -, hrun⟩ := sync_frame s k.toInt
  obtain ⟨-, -, hmutes, hhq, hchip, -⟩ := hrun.fields
  obtain ⟨hmutes', hhq', hchip'⟩ := (applyForm_write (decodeByte (sync s k.toInt).psg.latch b) (sync s k.toInt)).flags
  exact {
    mutes := fun h => absurd (hmutes'.trans hmutes) h
    hqMode := fun h => absurd (hhq'.trans hhq) h
    chipType := fun h => absurd (hchip'.trans hchip) h
    registers := fun _ => .inr (.inl ⟨k, b, rfl⟩)
    timing := fun _ => .inl ⟨k, b, rfl⟩
    chanOut := fun _ => .inr (.inl ⟨k, b, rfl⟩)
    chanDelta := fun _ => .inr (.inl ⟨k, b, rfl⟩)
    noiseShiftValue := fun _ => .inr (.inl ⟨k, b, rfl⟩) }

theorem psgRen_psgWrites (n : BitVec 32) (s : State) : PsgWrites (.psgRen n) s.psg (effect (.psgRen n) s).psg := by
  obtain ⟨-, -, -, -, hrun⟩ := sync_frame s (clocksNeeded s.dbuf n.toNat)
  obtain ⟨hregs, hlatch, hmutes, hhq, hchip, -, hinc, hout⟩ := hrun.fields
  exact {
    mutes := fun h => absurd hmutes h
    hqMode := fun h => absurd hhq h
    chipType := fun h => absurd hchip h
    registers := fun h => no_change_of_three hregs hlatch hinc h
    timing := fun _ => .inr (.inl ⟨n, rfl⟩)
    chanOut := fun h => absurd hout h
    chanDelta := fun _ => .inr (.inr (.inl ⟨n, rfl⟩))
    noiseShiftValue := fun _ => .inr (.inr (.inl ⟨n, rfl⟩)) }

theorem psgMute_psgWrites (ch : BitVec 32) (x : Bool) (s : State) :
    PsgWrites (.psgMute ch x) s.psg (muteChannel s ch x).psg := by
  obtain hsame | ⟨c, hset⟩ := muteChannel_cases s ch x
  · rw [hsame]
    exact PsgWrites.refl _ s.psg
  · have hamp := setMute_onlyAmp s c x
    rw [hset]
    exact {
      mutes := fun _ => ⟨ch, x, rfl⟩
      hqMode := fun h => absurd hamp.hqMode h
      chipType := fun h => absurd hamp.chipType h
      registers := fun h => no_change_of_three hamp.regs hamp.latch hamp.freqInc h
      timing := fun h => no_change_of_three hamp.polarity hamp.clocks hamp.freqCounter h
      chanOut := fun _ => .inr (.inr (.inl ⟨ch, x, rfl⟩))
      chanDelta := fun _ => .inr (.inr (.inr (.inl ⟨ch, x, rfl⟩)))
      noiseShiftValue := fun h => absurd hamp.noiseShiftValue h }

theorem psgRst_psgWrites (s : State) : PsgWrites .psgRst s.psg (resetPsg s.params s.psg) where
  mutes h := absurd rfl h
  hqMode h := absurd rfl h
  chipType h := absurd rfl h
  registers _ := .inr (.inr rfl)
  timing _ := .inr (.inr rfl)
  chanOut _ := .inr (.inr (.inr rfl))
  chanDelta _ := .inr (.inr (.inr (.inr rfl)))
  noiseShiftValue _ := .inr (.inr (.inr (.inl rfl)))

theorem effect_psgWrites (i : Instr) (s : State) : PsgWrites i s.psg (effect i s).psg := by
  have hrefl := PsgWrites.refl i s.psg
  cases i with
  | psgRst => exact psgRst_psgWrites s
  | psgWr k b => exact psgWr_psgWrites k b s
  | psgRen n => exact psgRen_psgWrites n s
  | psgChip c =>
    exact { hrefl with
      chipType := fun _ => ⟨c, rfl⟩, noiseShiftValue := fun _ => .inr (.inr (.inr (.inr ⟨c, rfl⟩))) }
  | psgHq x => exact { hrefl with hqMode := fun _ => ⟨x, rfl⟩ }
  | psgMute ch x => exact psgMute_psgWrites ch x s
  | rsRen n =>
    obtain ⟨-, -, hpsg, -⟩ := rsLoop_frame n.toNat 0 s
    show PsgWrites _ _ (rsLoop n.toNat 0 s).psg
    rw [hpsg]
    exact hrefl
  | latch0 | latch1 | latch2 | latch3 | latch4 | latch5 | latch6 | latch7 | data0 | data1 | data2 | data3 | data4
  | data5 | data6 | data7 =>
    rw [effect_of_isByteForm rfl]
    exact (applyForm_write _ s).psgWrites
  | _ => exact hrefl

/-! ### The delta buffer -/

/-- The "written by" sentences of 10_state.md R31 to R34, R43 and R47 and of 20_memory.md R70, for a change of the
delta buffer from `d` to `d'` by instruction `i` with the PSG in state `g`. -/
structure DbufWrites (i : Instr) (g : Psg) (d d' : Dbuf) : Prop where
  factor : d'.factor ≠ d.factor → (∃ n m r, i = .dbCfg n m r) ∨ ∃ r, i = .psgRate r
  clk : d'.clkNum ≠ d.clkNum ∨ d'.clkDen ≠ d.clkDen → ∃ n m r, i = .dbCfg n m r
  rate : d'.rate ≠ d.rate → (∃ n m r, i = .dbCfg n m r) ∨ ∃ r, i = .psgRate r
  offset : d'.offset ≠ d.offset → i = .dbClr ∨ (∃ k, i = .dbEnd k) ∨ (∃ n, i = .dbRd n) ∨ ∃ n, i = .psgRen n
  integ : d'.integ ≠ d.integ → i = .dbClr ∨ (∃ n, i = .dbRd n) ∨ ∃ n, i = .psgRen n
  capacity : d'.cap ≠ d.cap ∨ d'.peakNeed ≠ d.peakNeed → canEmit g i
  buf : d'.buf ≠ d.buf → canEmit g i ∨ i = .dbClr ∨ ∃ n, i = .dbRd n

/-- A disjunction of changes of two fields that did not change. -/
theorem no_change_of_two {α β : Type} {a a' : α} {b b' : β} {P : Prop} (ha : a' = a) (hb : b' = b)
    (h : a' ≠ a ∨ b' ≠ b) : P := by
  rcases h with h | h
  · exact absurd ha h
  · exact absurd hb h

theorem DbufWrites.refl (i : Instr) (g : Psg) (d : Dbuf) : DbufWrites i g d d where
  factor h := absurd rfl h
  clk h := no_change_of_two rfl rfl h
  rate h := absurd rfl h
  offset h := absurd rfl h
  integ h := absurd rfl h
  capacity h := no_change_of_two rfl rfl h
  buf h := absurd rfl h

/-- An instruction that can emit may change slots, `cap` and the record of the largest need. -/
theorem DbufWrites.of_emit {i : Instr} {g : Psg} {d d' : Dbuf} (hemit : canEmit g i) (h : SlotChange d d') :
    DbufWrites i g d d' := by
  obtain ⟨hfactor, hoffset, hclkNum, hclkDen, hrate, hinteg⟩ := h.only.fields
  exact {
    factor := fun h => absurd hfactor h
    clk := fun h => no_change_of_two hclkNum hclkDen h
    rate := fun h => absurd hrate h
    offset := fun h => absurd hoffset h
    integ := fun h => absurd hinteg h
    capacity := fun _ => hemit
    buf := fun _ => .inl hemit }

theorem FormWrite.dbufWrites {s t : State} {i : Instr} (h : FormWrite s i t) : DbufWrites i s.psg s.dbuf t.dbuf := by
  have hslots := h.emits.slots
  cases h with
  | command => exact DbufWrites.refl _ _ _
  | period => exact DbufWrites.refl _ _ _
  | att r ch v hi hatt => exact DbufWrites.of_emit (canEmit_of_writesLevel (writesLevel_of_att hatt)) hslots
  | noise r v hi hnoise => exact DbufWrites.of_emit (canEmit_of_writesLevel (writesLevel_of_noise hnoise)) hslots

theorem psgRen_dbufWrites (n : BitVec 32) (s : State) :
    DbufWrites (.psgRen n) s.psg s.dbuf (effect (.psgRen n) s).dbuf := by
  have hemit : canEmit s.psg (.psgRen n) := .inr (.inr (.inr (.inl ⟨n, rfl⟩)))
  have hsync := DbufWrites.of_emit hemit (Emits.sync s (clocksNeeded s.dbuf n.toNat)).slots
  exact {
    factor := hsync.factor
    clk := hsync.clk
    rate := hsync.rate
    offset := fun _ => .inr (.inr (.inr ⟨n, rfl⟩))
    integ := fun _ => .inr (.inr ⟨n, rfl⟩)
    capacity := fun _ => hemit
    buf := fun _ => .inl hemit }

theorem effect_dbufWrites (i : Instr) (s : State) : DbufWrites i s.psg s.dbuf (effect i s).dbuf := by
  have hrefl := DbufWrites.refl i s.psg s.dbuf
  cases i with
  | dbCfg n m r =>
    exact { hrefl with
      factor := fun _ => .inl ⟨n, m, r, rfl⟩, clk := fun _ => ⟨n, m, r, rfl⟩, rate := fun _ => .inl ⟨n, m, r, rfl⟩ }
  | psgRate r => exact { hrefl with factor := fun _ => .inr ⟨r, rfl⟩, rate := fun _ => .inr ⟨r, rfl⟩ }
  | dbClr =>
    exact { hrefl with offset := fun _ => .inl rfl, integ := fun _ => .inl rfl, buf := fun _ => .inr (.inl rfl) }
  | dbEnd k => exact { hrefl with offset := fun _ => .inr (.inl ⟨k, rfl⟩) }
  | dbRd n =>
    exact { hrefl with
      offset := fun _ => .inr (.inr (.inl ⟨n, rfl⟩)), integ := fun _ => .inr (.inl ⟨n, rfl⟩)
      buf := fun _ => .inr (.inr ⟨n, rfl⟩) }
  | dbAdd t dl dr => exact DbufWrites.of_emit (.inl ⟨t, dl, dr, rfl⟩) (addDelta_slots _ _ _ _)
  | dbAddf t dl dr => exact DbufWrites.of_emit (.inr (.inl ⟨t, dl, dr, rfl⟩)) (addDeltaFast_slots _ _ _)
  | psgWr k b => exact DbufWrites.of_emit (.inr (.inr (.inl ⟨k, b, rfl⟩))) (psgWr_emits k b s).slots
  | psgRen n => exact psgRen_dbufWrites n s
  | psgMute ch x =>
    exact DbufWrites.of_emit (.inr (.inr (.inr (.inr (.inl ⟨ch, x, rfl⟩))))) (muteChannel_emits s ch x).slots
  | rsRen n =>
    obtain ⟨-, hdbuf, -⟩ := rsLoop_frame n.toNat 0 s
    show DbufWrites _ _ _ (rsLoop n.toNat 0 s).dbuf
    rw [hdbuf]
    exact hrefl
  | latch0 | latch1 | latch2 | latch3 | latch4 | latch5 | latch6 | latch7 | data0 | data1 | data2 | data3 | data4
  | data5 | data6 | data7 =>
    rw [effect_of_isByteForm rfl]
    exact (applyForm_write _ s).dbufWrites
  | _ => exact hrefl

/-! ### The resampler and the host's side -/

/-- The "written by" sentences of 10_state.md R44 to R46 and R48. -/
structure RsWrites (i : Instr) (r r' : Rs) : Prop where
  step : r'.rsStep ≠ r.rsStep → ∃ a b, i = .rsCfg a b
  pos : r'.rsPos ≠ r.rsPos → (∃ a b, i = .rsCfg a b) ∨ i = .rsPop ∨ ∃ n, i = .rsRen n
  ring : r'.rsWr ≠ r.rsWr ∨ r'.hist ≠ r.hist →
    (∃ a b, i = .rsCfg a b) ∨ (∃ x y, i = .rsPush x y) ∨ ∃ n, i = .rsRen n

/-- Who writes the host's buffers (20_memory.md R70) and takes its answers (entry 6). -/
structure HostWrites (i : Instr) (h h' : HostSide) : Prop where
  out : h'.out ≠ h.out → (∃ n, i = .dbRd n) ∨ (∃ n, i = .psgRen n) ∨ ∃ n, i = .rsRen n
  pulls : h'.answers ≠ h.answers ∨ h'.pulled ≠ h.pulled → ∃ n, i = .rsRen n

theorem RsWrites.of_eq {i : Instr} {r r' : Rs} (h : r' = r) : RsWrites i r r' := by
  subst h
  exact ⟨fun h => absurd rfl h, fun h => absurd rfl h, fun h => no_change_of_two rfl rfl h⟩

theorem HostWrites.of_eq {i : Instr} {h h' : HostSide} (he : h' = h) : HostWrites i h h' := by
  subst he
  exact ⟨fun h => absurd rfl h, fun h => no_change_of_two rfl rfl h⟩

theorem effect_rsWrites (i : Instr) (s : State) : RsWrites i s.rs (effect i s).rs := by
  have hrefl : RsWrites i s.rs s.rs := RsWrites.of_eq rfl
  cases i with
  | rsCfg a b => exact ⟨fun _ => ⟨a, b, rfl⟩, fun _ => .inl ⟨a, b, rfl⟩, fun _ => .inl ⟨a, b, rfl⟩⟩
  | rsPush x y => exact { hrefl with ring := fun _ => .inr (.inl ⟨x, y, rfl⟩) }
  | rsPop => exact { hrefl with pos := fun _ => .inr (.inl rfl) }
  | rsRen n =>
    obtain ⟨-, -, -, hstep, -⟩ := rsLoop_frame n.toNat 0 s
    exact ⟨fun h => absurd hstep h, fun _ => .inr (.inr ⟨n, rfl⟩), fun _ => .inr (.inr ⟨n, rfl⟩)⟩
  | psgWr k b => exact RsWrites.of_eq (psgWr_emits k b s).rs
  | psgRen n => exact RsWrites.of_eq (Emits.sync s (clocksNeeded s.dbuf n.toNat)).rs
  | psgMute ch x => exact RsWrites.of_eq (muteChannel_emits s ch x).rs
  | latch0 | latch1 | latch2 | latch3 | latch4 | latch5 | latch6 | latch7 | data0 | data1 | data2 | data3 | data4
  | data5 | data6 | data7 =>
    rw [effect_of_isByteForm rfl]
    exact RsWrites.of_eq (applyForm_emits _ s).rs
  | _ => exact hrefl

theorem effect_hostWrites (i : Instr) (s : State) : HostWrites i s.host (effect i s).host := by
  have hrefl : HostWrites i s.host s.host := HostWrites.of_eq rfl
  cases i with
  | dbRd n => exact { hrefl with out := fun _ => .inl ⟨n, rfl⟩ }
  | psgRen n =>
    have hsync : HostWrites (.psgRen n) s.host (sync s (clocksNeeded s.dbuf n.toNat)).host :=
      HostWrites.of_eq (Emits.sync s _).host
    exact ⟨fun _ => .inr (.inl ⟨n, rfl⟩), hsync.pulls⟩
  | rsRen n => exact ⟨fun _ => .inr (.inr ⟨n, rfl⟩), fun _ => ⟨n, rfl⟩⟩
  | psgWr k b => exact HostWrites.of_eq (psgWr_emits k b s).host
  | psgMute ch x => exact HostWrites.of_eq (muteChannel_emits s ch x).host
  | latch0 | latch1 | latch2 | latch3 | latch4 | latch5 | latch6 | latch7 | data0 | data1 | data2 | data3 | data4
  | data5 | data6 | data7 =>
    rw [effect_of_isByteForm rfl]
    exact HostWrites.of_eq (applyForm_emits _ s).host
  | _ => exact hrefl

/-- Settles O60: the clauses of the four units, put together; the response touches none of them. -/
theorem onlyNamedCommandsWrite : Obligations.OnlyNamedCommandsWrite := by
  intro i s t h
  obtain ⟨⟨r, rfl⟩, -⟩ := exec_next h
  have hpsg := effect_psgWrites i s
  have hdbuf := effect_dbufWrites i s
  have hrs := effect_rsWrites i s
  have hhost := effect_hostWrites i s
  exact ⟨effect_params i s, effect_events i s, hpsg.mutes, hpsg.hqMode, hpsg.chipType, hpsg.registers, hpsg.timing,
    hpsg.chanOut, hpsg.chanDelta, hpsg.noiseShiftValue, hdbuf.factor, hdbuf.clk, hdbuf.rate, hdbuf.offset,
    hdbuf.integ, hdbuf.capacity, hdbuf.buf, hrs.step, hrs.pos, hrs.ring, hhost.out, hhost.pulls⟩

end Sys2Proof.Proofs
end

section
/-! What no procedure reads: the capacity and DB_MAX_SLOTS. Two states that differ in these alone take every
instruction to states that differ in these alone, and equal capacities stay equal (20_memory.md R74 to R76). -/

namespace Sys2Proof.Proofs

open Sys2Proof Sys2Proof.Machine

/-! ### States that differ in their limits -/

/-- The state with another capacity and another DB_MAX_SLOTS. -/
def withLimits (s : State) (c : Nat) (b : Option Nat) : State :=
  { s with params := { s.params with dbMaxSlots := b }, dbuf := { s.dbuf with cap := c } }

/-- The second state is the first but for its capacity and its DB_MAX_SLOTS, which is `b`. Under the proposition
`sameCap` the capacities agree too: `True` compares two bounds, `False` two capacities. -/
inductive SameButLimits (sameCap : Prop) (b : Option Nat) (s : State) : State → Prop
  | intro (c : Nat) (hcap : sameCap → c = s.dbuf.cap) : SameButLimits sameCap b s (withLimits s c b)

@[simp] theorem withLimits_psg (s : State) (c : Nat) (b : Option Nat) : (withLimits s c b).psg = s.psg := rfl

/-- Another capacity under the state's own bound. -/
theorem withLimits_own_bound {s : State} {b : Option Nat} (h : s.params.dbMaxSlots = b) (c : Nat) :
    withLimits s c b = s.withDbuf { s.dbuf with cap := c } := by
  subst h
  rfl

/-- Another bound with the state's own capacity. -/
theorem withLimits_own_cap (s : State) (b : Option Nat) : withLimits s s.dbuf.cap b = s.withBound b := rfl

/-- The next capacity depends on the present one and the need only (20_memory.md R74). -/
theorem grow_cap_congr {d d' : Dbuf} (h : d'.cap = d.cap) (need : Nat) : (grow d' need).cap = (grow d need).cap := by
  rw [grow_cap, grow_cap, h]

namespace SameButLimits

variable {sameCap : Prop} {b : Option Nat} {s s' : State}

theorem eq_withLimits (h : SameButLimits sameCap b s s') :
    ∃ c, (sameCap → c = s.dbuf.cap) ∧ s' = withLimits s c b := by
  obtain ⟨c, hcap⟩ := h
  exact ⟨c, hcap, rfl⟩

theorem withPsg (h : SameButLimits sameCap b s s') (g : Psg) :
    SameButLimits sameCap b (s.withPsg g) (s'.withPsg g) := by
  obtain ⟨c, hcap⟩ := h
  exact .intro c hcap

theorem withRs (h : SameButLimits sameCap b s s') (r : Rs) :
    SameButLimits sameCap b (s.withRs r) (s'.withRs r) := by
  obtain ⟨c, hcap⟩ := h
  exact .intro c hcap

theorem withHost (h : SameButLimits sameCap b s s') (x : HostSide) :
    SameButLimits sameCap b (s.withHost x) (s'.withHost x) := by
  obtain ⟨c, hcap⟩ := h
  exact .intro c hcap

/-- A delta by either path: `grow` makes the next capacity of the present one, and the slots do not depend on it. -/
theorem emit (h : SameButLimits sameCap b s s') (t : Int) (x : Stereo Amp) :
    SameButLimits sameCap b (emit s t x) (emit s' t x) := by
  obtain ⟨c, hcap⟩ := h
  unfold Machine.emit
  rw [withLimits_psg]
  split
  · exact .intro _ fun hsame => grow_cap_congr (d := s.dbuf) (hcap hsame) _
  · exact .intro _ fun hsame => grow_cap_congr (d := s.dbuf) (hcap hsame) _

/-! ### Running the channels -/

theorem flush (h : SameButLimits sameCap b s s') (ch : Chan) :
    SameButLimits sameCap b (flush s ch) (flush s' ch) := by
  obtain ⟨c, -, rfl⟩ := h.eq_withLimits
  unfold Machine.flush
  rw [withLimits_psg]
  split
  · exact h
  · exact (h.emit _ _).withPsg _

theorem toneFlip (h : SameButLimits sameCap b s s') (ch : Tone) (ts : Time) :
    SameButLimits sameCap b (toneFlip ch ts s) (toneFlip ch ts s') := by
  obtain ⟨c, -, rfl⟩ := h.eq_withLimits
  exact (h.withPsg _).emit _ _

theorem toneLoop (h : SameButLimits sameCap b s s') (ch : Tone) (n : Nat) (ts : Time) :
    SameButLimits sameCap b (toneLoop ch n ts s) (toneLoop ch n ts s') := by
  induction n generalizing ts s s' with
  | zero =>
    obtain ⟨c, -, rfl⟩ := h.eq_withLimits
    exact h.withPsg _
  | succ n ih =>
    obtain ⟨c, -, rfl⟩ := h.eq_withLimits
    exact ih (h.toneFlip ch ts) _

theorem runTone (h : SameButLimits sameCap b s s') (ch : Tone) (target : Int) :
    SameButLimits sameCap b (runTone s ch target) (runTone s' ch target) := by
  obtain ⟨c, -, rfl⟩ := h.eq_withLimits
  exact h.toneLoop ch _ _

theorem noiseFlip (h : SameButLimits sameCap b s s') (ts : Time) :
    SameButLimits sameCap b (noiseFlip ts s) (noiseFlip ts s') := by
  obtain ⟨c, -, rfl⟩ := h.eq_withLimits
  unfold Machine.noiseFlip
  rw [withLimits_psg]
  cases s.psg.polarity.q3.flip with
  | minus => exact h.withPsg _
  | plus => exact (h.withPsg _).emit _ _

theorem noiseLoop (h : SameButLimits sameCap b s s') (n : Nat) (ts : Time) :
    SameButLimits sameCap b (noiseLoop n ts s) (noiseLoop n ts s') := by
  induction n generalizing ts s s' with
  | zero =>
    obtain ⟨c, -, rfl⟩ := h.eq_withLimits
    exact h.withPsg _
  | succ n ih =>
    obtain ⟨c, -, rfl⟩ := h.eq_withLimits
    exact ih (h.noiseFlip ts) _

theorem runNoise (h : SameButLimits sameCap b s s') (target : Int) :
    SameButLimits sameCap b (runNoise s target) (runNoise s' target) := by
  obtain ⟨c, -, rfl⟩ := h.eq_withLimits
  exact h.noiseLoop _ _

theorem psgUpdate (h : SameButLimits sameCap b s s') (target : Int) :
    SameButLimits sameCap b (psgUpdate s target) (psgUpdate s' target) := by
  have h0 := (h.flush .c0).runTone .t0 target
  have h1 := (h0.flush .c1).runTone .t1 target
  have h2 := (h1.flush .c2).runTone .t2 target
  exact (h2.flush .c3).runNoise target

theorem sync (h : SameButLimits sameCap b s s') (t : Int) :
    SameButLimits sameCap b (sync s t) (sync s' t) := by
  obtain ⟨c, -, rfl⟩ := h.eq_withLimits
  have hrun := h.psgUpdate t
  rcases lt_or_ge s.psg.clocks.toInt t with hlt | hge
  · rw [sync_of_lt hlt, sync_of_lt (s := withLimits s c b) hlt]
    generalize Machine.psgUpdate s t = u at hrun
    generalize Machine.psgUpdate (withLimits s c b) t = u' at hrun
    obtain ⟨c', -, rfl⟩ := hrun.eq_withLimits
    exact hrun.withPsg _
  · rw [sync_of_le hge, sync_of_le (s := withLimits s c b) hge]
    exact h

/-! ### Register writes -/

theorem owe (h : SameButLimits sameCap b s s') (ch : Chan) (x : Stereo Amp) :
    SameButLimits sameCap b (owe s ch x) (owe s' ch x) := by
  obtain ⟨c, -, rfl⟩ := h.eq_withLimits
  cases hv : s.params.variant with
  | baseline =>
    rw [owe_baseline hv, owe_baseline (s := withLimits s c b) hv]
    exact h.emit _ _
  | accurate =>
    rw [owe_accurate hv, owe_accurate (s := withLimits s c b) hv]
    exact h.withPsg _

theorem setAmp (h : SameButLimits sameCap b s s') (ch : Chan) (new : Stereo Amp) :
    SameButLimits sameCap b (setAmp s ch new) (setAmp s' ch new) := by
  obtain ⟨c, -, rfl⟩ := h.eq_withLimits
  cases hhigh : high s.psg ch with
  | false =>
    rw [setAmp_low hhigh, setAmp_low (s := withLimits s c b) hhigh]
    exact h.withPsg _
  | true =>
    cases hv : s.params.variant with
    | baseline =>
      rw [setAmp_high_baseline hhigh hv, setAmp_high_baseline (s := withLimits s c b) hhigh hv]
      exact (h.emit _ _).withPsg _
    | accurate =>
      rw [setAmp_high_accurate hhigh hv, setAmp_high_accurate (s := withLimits s c b) hhigh hv]
      exact h.withPsg _

theorem setNoise (h : SameButLimits sameCap b s s') : SameButLimits sameCap b (setNoise s) (setNoise s') := by
  obtain ⟨c, -, rfl⟩ := h.eq_withLimits
  rw [setNoise_eq, setNoise_eq, show noiseIncOf (withLimits s c b) = noiseIncOf s from rfl,
    withLimits_psg]
  have hinc := h.withPsg { s.psg with freqInc := s.psg.freqInc.set .c3 (noiseIncOf s) }
  have reseed : ∀ {u u' : State}, SameButLimits sameCap b u u' → SameButLimits sameCap b
      (u.withPsg { u.psg with noiseShiftValue := lfsrSeed u.psg.chipType })
      (u'.withPsg { u'.psg with noiseShiftValue := lfsrSeed u'.psg.chipType }) := by
    intro u u' hu
    obtain ⟨c', -, rfl⟩ := hu.eq_withLimits
    exact hu.withPsg _
  cases noiseBit s.psg with
  | false => exact reseed hinc
  | true => exact reseed (hinc.owe .c3 _)

theorem setLatch (h : SameButLimits sameCap b s s') (r : BitVec 3) :
    SameButLimits sameCap b (setLatch s r) (setLatch s' r) := by
  obtain ⟨c, -, rfl⟩ := h.eq_withLimits
  exact h.withPsg _

theorem writePeriod (h : SameButLimits sameCap b s s') (ch : Tone) (v : BitVec 10) :
    SameButLimits sameCap b (writePeriod s ch v) (writePeriod s' ch v) := by
  obtain ⟨c, -, rfl⟩ := h.eq_withLimits
  exact h.withPsg _

theorem writeAtt (h : SameButLimits sameCap b s s') (ch : Chan) (v : BitVec 4) :
    SameButLimits sameCap b (writeAtt s ch v) (writeAtt s' ch v) := by
  obtain ⟨c, -, rfl⟩ := h.eq_withLimits
  rw [writeAtt_eq, writeAtt_eq]
  exact (h.withPsg (withAtt s.psg ch v)).setAmp ch _

theorem writeNoise (h : SameButLimits sameCap b s s') (v : BitVec 3) :
    SameButLimits sameCap b (writeNoise s v) (writeNoise s' v) := by
  obtain ⟨c, -, rfl⟩ := h.eq_withLimits
  rw [writeNoise_eq, writeNoise_eq]
  exact (h.withPsg (withNoiseCtrl s.psg v)).setNoise

theorem setMute (h : SameButLimits sameCap b s s') (ch : Chan) (x : Bool) :
    SameButLimits sameCap b (setMute s ch x) (setMute s' ch x) := by
  obtain ⟨c, -, rfl⟩ := h.eq_withLimits
  rw [setMute_eq, setMute_eq]
  exact (h.withPsg (withMute s.psg ch x)).setAmp ch _

theorem muteChannel (h : SameButLimits sameCap b s s') (ch : BitVec 32) (x : Bool) :
    SameButLimits sameCap b (muteChannel s ch x) (muteChannel s' ch x) := by
  obtain ⟨c, -, rfl⟩ := h.eq_withLimits
  unfold Machine.muteChannel
  split
  · exact h
  · next ch' _ =>
    rw [withLimits_psg]
    split
    · exact h
    · exact h.setMute ch' x

/-- A LATCH form sets the latch and writes its register, a DATA form writes the register of its latch. -/
theorem applyForm (h : SameButLimits sameCap b s s') (i : Instr) :
    SameButLimits sameCap b (applyForm i s) (applyForm i s') := by
  obtain ⟨c, -, rfl⟩ := h.eq_withLimits
  cases i with
  | latch0 | latch2 | latch4 => exact (h.setLatch _).writePeriod _ _
  | latch1 | latch3 | latch5 | latch7 => exact (h.setLatch _).writeAtt _ _
  | latch6 => exact (h.setLatch _).writeNoise _
  | data0 | data2 | data4 => exact h.writePeriod _ _
  | data1 | data3 | data5 | data7 => exact h.writeAtt _ _
  | data6 => exact h.writeNoise _
  | _ => exact h

theorem writeByte (h : SameButLimits sameCap b s s') (x : BitVec 8) :
    SameButLimits sameCap b (writeByte x s) (writeByte x s') := by
  obtain ⟨c, -, rfl⟩ := h.eq_withLimits
  exact h.applyForm _

/-! ### Reading and rendering -/

theorem readSamples (h : SameButLimits sameCap b s s') (count : Nat) :
    SameButLimits sameCap b (readSamples s count) (readSamples s' count) := by
  obtain ⟨c, hcap⟩ := h
  exact .intro c hcap

theorem readCount (h : SameButLimits sameCap b s s') (count : Nat) :
    readCount s'.dbuf count = readCount s.dbuf count := by
  obtain ⟨c, -⟩ := h
  rfl

theorem renderFrame (h : SameButLimits sameCap b s s') (T : Int) :
    SameButLimits sameCap b (renderFrame s T) (renderFrame s' T) := by
  have hsync := h.sync T
  unfold Machine.renderFrame
  generalize Machine.sync s T = u at hsync
  generalize Machine.sync s' T = u' at hsync
  obtain ⟨c, hcap⟩ := hsync
  exact .intro c hcap

/-! ### The resampler -/

theorem rsPulls (h : SameButLimits sameCap b s s') (k : Nat) :
    SameButLimits sameCap b (rsPulls k s) (rsPulls k s') := by
  induction k generalizing s s' with
  | zero => exact h
  | succ k ih =>
    obtain ⟨c, -, rfl⟩ := h.eq_withLimits
    exact ih ((h.withHost _).withRs _)

theorem rsEmit (h : SameButLimits sameCap b s s') (i : Nat) :
    SameButLimits sameCap b (rsEmit i s) (rsEmit i s') := by
  obtain ⟨c, -, rfl⟩ := h.eq_withLimits
  exact (h.withRs _).withHost _

theorem rsLoop (h : SameButLimits sameCap b s s') (n i : Nat) :
    SameButLimits sameCap b (rsLoop n i s) (rsLoop n i s') := by
  induction n generalizing i s s' with
  | zero => exact h
  | succ n ih =>
    obtain ⟨c, -, rfl⟩ := h.eq_withLimits
    exact ih ((h.rsPulls (rsMissing s.rs)).rsEmit i) (i + 1)

/-! ### Instructions -/

theorem effect (h : SameButLimits sameCap b s s') (i : Instr) :
    SameButLimits sameCap b (effect i s) (effect i s') := by
  obtain ⟨c, hcap, rfl⟩ := h.eq_withLimits
  cases i with
  | dbAdd t dl dr => exact .intro _ fun hsame => grow_cap_congr (d := s.dbuf) (hcap hsame) _
  | dbAddf t dl dr => exact .intro _ fun hsame => grow_cap_congr (d := s.dbuf) (hcap hsame) _
  | psgWr t x => exact (h.sync _).writeByte x
  | psgRen n => exact (h.renderFrame _).readSamples _
  | psgMute ch x => exact h.muteChannel ch x
  | rsRen n => exact h.rsLoop _ _
  | latch0 | latch1 | latch2 | latch3 | latch4 | latch5 | latch6 | latch7 | data0 | data1 | data2 | data3 | data4
  | data5 | data6 | data7 =>
    rw [effect_of_isByteForm rfl, effect_of_isByteForm rfl]
    exact h.applyForm _
  | _ => exact .intro c hcap

/-- Both states complete with one response, by one rule: against the bound, or always where the instruction leaves the
record of the largest need alone. -/
theorem exec_completes (h : SameButLimits sameCap b s s') (i : Instr) :
    ∃ r,
      (exec i s = completeWithin (Proofs.effect i s) r ∧ exec i s' = completeWithin (Proofs.effect i s') r) ∨
      (exec i s = complete (Proofs.effect i s) r ∧ exec i s' = complete (Proofs.effect i s') r ∧
        (Proofs.effect i s).dbuf.peakNeed = s.dbuf.peakNeed) := by
  obtain ⟨c, -, rfl⟩ := h.eq_withLimits
  cases i with
  | psgRen n =>
    have hcount := (h.renderFrame (clocksNeeded s.dbuf n.toNat)).readCount n.toNat
    refine ⟨_, .inl ⟨rfl, ?_⟩⟩
    rw [← hcount]
    rfl
  | dbAdd | dbAddf | psgWr | psgMute | latch1 | latch3 | latch5 | latch6 | latch7 | data1 | data3 | data5 | data6
  | data7 => exact ⟨0, .inl ⟨rfl, rfl⟩⟩
  | rsRen n =>
    obtain ⟨-, hdbuf, -⟩ := rsLoop_frame n.toNat 0 s
    exact ⟨0, .inr ⟨rfl, rfl, congrArg Dbuf.peakNeed hdbuf⟩⟩
  | _ => exact ⟨_, .inr ⟨rfl, rfl, rfl⟩⟩

end SameButLimits

/-! ### Refusals -/

/-- `completeWithin` refuses exactly the largest need that is beyond the bound (20_memory.md R76, entry 13). -/
theorem completeWithin_refused_iff {s : State} {r : BitVec 64} {q : Refusal} :
    completeWithin s r = .refused q ↔
      ∃ m, s.params.dbMaxSlots = some m ∧ m < s.dbuf.peakNeed ∧ .slotsExceeded s.dbuf.peakNeed = q := by
  unfold completeWithin
  cases s.params.dbMaxSlots with
  | none => simp [complete]
  | some m =>
    by_cases hwithin : s.dbuf.peakNeed ≤ m
    · simp [hwithin, complete]
    · simp [hwithin, Nat.lt_of_not_le hwithin]

/-- `completeWithin` compares the recorded need, not the capacity, with the bound. -/
theorem completeWithin_next_withCap {s t : State} {r : BitVec 64} (h : completeWithin s r = .next t) (c : Nat) :
    completeWithin (s.withDbuf { s.dbuf with cap := c }) r = .next (t.withDbuf { t.dbuf with cap := c }) := by
  obtain ⟨rfl, hwithin⟩ := completeWithin_next h
  exact completeWithin_within (s := s.withDbuf { s.dbuf with cap := c }) hwithin r

theorem completeWithin_refused_withCap {s : State} {r : BitVec 64} {q : Refusal}
    (h : completeWithin s r = .refused q) (c : Nat) :
    completeWithin (s.withDbuf { s.dbuf with cap := c }) r = .refused q :=
  completeWithin_refused_iff.mpr (completeWithin_refused_iff.mp h :)

theorem complete_ne_refused (s : State) (r : BitVec 64) (q : Refusal) : complete s r ≠ .refused q := nofun

/-! ### The statements -/

/-- Settles O13: the two effects differ in `cap` alone, and neither the response nor a refusal depends on it. -/
theorem capacityIsUnobservable : Obligations.CapacityIsUnobservable := by
  intro i s c
  have hstart : SameButLimits False s.params.dbMaxSlots s (s.withDbuf { s.dbuf with cap := c }) :=
    .intro c False.elim
  have hsame := hstart.effect i
  obtain ⟨r, hrule⟩ := hstart.exec_completes i
  generalize effect i (s.withDbuf { s.dbuf with cap := c }) = u' at hsame hrule
  obtain ⟨c', -⟩ := hsame
  rw [withLimits_own_bound (congrArg Params.dbMaxSlots (effect_params i s))] at hrule
  obtain ⟨hs, hs'⟩ | ⟨hs, hs', -⟩ := hrule
  · exact ⟨fun t ht => ⟨c', hs'.trans (completeWithin_next_withCap (hs.symm.trans ht) c')⟩,
      fun q hq => hs'.trans (completeWithin_refused_withCap (hs.symm.trans hq) c')⟩
  · refine ⟨fun t ht => ⟨c', ?_⟩, fun q hq => absurd (hs.symm.trans hq) (complete_ne_refused _ _ _)⟩
    rw [complete_next (hs.symm.trans ht)]
    exact hs'

/-- Settles O14: the two effects differ in the bound alone, and the bounded memory compares it with the largest need
recorded. -/
theorem boundedInstanceFollowsUnbounded : Obligations.BoundedInstanceFollowsUnbounded := by
  intro i s t m hwithin ht
  have hstart : SameButLimits True (some m) (s.withBound none) (s.withBound (some m)) := .intro _ fun _ => rfl
  have hsame := hstart.effect i
  obtain ⟨r, hrule⟩ := hstart.exec_completes i
  generalize effect i (s.withBound (some m)) = u' at hsame hrule
  obtain ⟨c', hcap⟩ := hsame
  rw [hcap trivial, withLimits_own_cap] at hrule
  obtain ⟨hs, hs'⟩ | ⟨hs, hs', hpeak⟩ := hrule
  · obtain ⟨rfl, -⟩ := completeWithin_next (hs.symm.trans ht)
    refine ⟨fun hle => hs'.trans (completeWithin_within ?_ r), fun hlt => hs'.trans ?_⟩
    · rintro _ ⟨⟩
      exact hle
    · exact completeWithin_refused_iff.mpr ⟨m, rfl, hlt, rfl⟩
  · rw [complete_next (hs.symm.trans ht)]
    refine ⟨fun _ => hs', fun hlt => absurd hwithin ?_⟩
    rw [State.respond_dbuf, hpeak] at hlt
    exact Nat.not_le.mpr hlt

end Sys2Proof.Proofs
end

section
/-! Two deltas commute: each is a list of slot additions at a position that no slot decides (40_delta_buffer.md
R144). -/

namespace Sys2Proof.Proofs

open Sys2Proof Sys2Proof.Machine

/-! ### A delta as slot additions -/

/-- What slot additions sum up to does not depend on which list goes first. -/
theorem addAll_comm (l l' : List (Nat × Int)) {m : Memory 32} (h : m.wf = true) :
    addAll l (addAll l' m) = addAll l' (addAll l m) := by
  refine Memory.ext_read (addAll_wf _ (addAll_wf _ h)) (addAll_wf _ (addAll_wf _ h)) fun j => ?_
  rw [addAll_read _ (addAll_wf _ h), addAll_read _ h, addAll_read _ (addAll_wf _ h), addAll_read _ h]
  ring

/-- The slot additions of one lane of a delta command: 16 on the HQ path, two on the fast path (40_delta_buffer.md R133,
R134). -/
def deltaAdditions (hq : Bool) (kernel : List (List Int)) (f : Nat) (d : Int) : List (Nat × Int) :=
  if hq then tapList kernel f d
  else [(slotIndex f + 7, d * 32768 - d * fastWeight f), (slotIndex f + 8, d * fastWeight f)]

/-- A delta command makes its slot additions in each lane. -/
theorem effect_deltaCmd_lane (g : Psg) (t : Time) (x : Stereo Amp) (s : State) (l : Lane) :
    (effect (deltaCmd g t x) s).dbuf.buf.lane l =
      addAll (deltaAdditions g.hqMode s.params.kernel (fixedTime s.dbuf t.toInt) (x.lane l).toInt)
        (s.dbuf.buf.lane l) := by
  unfold deltaCmd
  cases g.hqMode with
  | true => exact (addDelta_lane _ _ _ _ _).trans (addTaps_eq _ _ _ _)
  | false => exact addDeltaFast_lane _ _ _ _

theorem effect_deltaCmd_slots (g : Psg) (t : Time) (x : Stereo Amp) (s : State) :
    SlotChange s.dbuf (effect (deltaCmd g t x) s).dbuf := by
  unfold deltaCmd
  cases g.hqMode with
  | true => exact addDelta_slots _ _ _ _
  | false => exact addDeltaFast_slots _ _ _

/-- A delta moves no later delta: positions depend on the rates and the time cursor (40_delta_buffer.md R130). -/
theorem fixedTime_effect_deltaCmd (g : Psg) (t : Time) (x : Stereo Amp) (s : State) (t' : Int) :
    fixedTime (effect (deltaCmd g t x) s).dbuf t' = fixedTime s.dbuf t' := by
  obtain ⟨hfactor, hoffset, -⟩ := (effect_deltaCmd_slots g t x s).only.fields
  exact fixedTime_congr hfactor hoffset t'

/-! ### The statement -/

/-- In an unbounded memory two instructions run one after the other. -/
theorem andThen_exec_unbounded (i j : Instr) {s : State} (h : s.Unbounded) :
    ∃ r r', andThen (exec i s) j = .next ((effect j ((effect i s).respond r)).respond r') := by
  obtain ⟨r, hi⟩ := exec_unbounded i h
  have heffect : ((effect i s).respond r).Unbounded := (congrArg Params.dbMaxSlots (effect_params i s)).trans h
  obtain ⟨r', hj⟩ := exec_unbounded j heffect
  exact ⟨r, r', by rw [hi]; exact hj⟩

/-- The slots after two deltas: both lists of additions, each at its position in the state before (the response between
them touches no slot). -/
theorem effect_two_deltas_lane (g1 g2 : Psg) (t1 t2 : Time) (x1 x2 : Stereo Amp) (s : State) (r : BitVec 64)
    (l : Lane) :
    (effect (deltaCmd g2 t2 x2) ((effect (deltaCmd g1 t1 x1) s).respond r)).dbuf.buf.lane l =
      addAll (deltaAdditions g2.hqMode s.params.kernel (fixedTime s.dbuf t2.toInt) (x2.lane l).toInt)
        (addAll (deltaAdditions g1.hqMode s.params.kernel (fixedTime s.dbuf t1.toInt) (x1.lane l).toInt)
          (s.dbuf.buf.lane l)) := by
  rw [effect_deltaCmd_lane, State.respond_params, effect_params, State.respond_dbuf, fixedTime_effect_deltaCmd,
    effect_deltaCmd_lane]

theorem Stereo.ext_lane {α : Type} {x y : Stereo α} (h : ∀ l : Lane, x.lane l = y.lane l) : x = y := by
  obtain ⟨xl, xr⟩ := x
  obtain ⟨yl, yr⟩ := y
  exact congrArg₂ Stereo.mk (h .left) (h .right)

/-- Settles O28: in each lane the two lists of slot additions commute. -/
theorem deltaOrderIsIrrelevant : Obligations.DeltaOrderIsIrrelevant := by
  intro s hq1 hq2 t1 t2 x1 x2 hunbounded hwf i1 i2
  obtain ⟨r1, r2, h12⟩ := andThen_exec_unbounded i1 i2 hunbounded
  obtain ⟨r2', r1', h21⟩ := andThen_exec_unbounded i2 i1 hunbounded
  refine ⟨_, _, h12, h21, Stereo.ext_lane fun l => ?_⟩
  rw [State.respond_dbuf, State.respond_dbuf, effect_two_deltas_lane, effect_two_deltas_lane]
  exact addAll_comm _ _ (hwf l)

end Sys2Proof.Proofs
end

section
/-! Encoding and decoding (30_encoding.md R100 to R110): what each opcode and each byte form decodes to, said once, and
the statements read off from it. -/

namespace Sys2Proof.Proofs

open Sys2Proof Sys2Proof.Machine

/-! ### The bits of a field -/

theorem bitsAt_eq_extractLsb' {n : Nat} (v : BitVec n) (lo len : Nat) : bitsAt v lo len = v.extractLsb' lo len := by
  rw [bitsAt, ← Nat.shiftRight_eq_div_pow]
  rfl

theorem bitsAt_zero {n : Nat} (v : BitVec n) (len : Nat) : bitsAt v 0 len = v.setWidth len := by
  rw [bitsAt, Nat.pow_zero, Nat.div_one, BitVec.ofNat_toNat]

theorem flagBit_eq_getLsbD {n : Nat} (v : BitVec n) : flagBit v = v.getLsbD 0 := by
  rw [flagBit, BitVec.getLsbD, Nat.testBit_zero]
  rfl

/-! ### The 18 opcodes (R102, R103) -/

section
variable (latch : BitVec 3) (a : BitVec 64) (b c : BitVec 32)

@[simp] theorem decode_cmdWord_dbCfg :
    decode latch (cmdWord 0x10#8 a b c) = .ok (.dbCfg (bitsAt a 0 32) (bitsAt a 32 32) b) := decode_cmdWord ..

@[simp] theorem decode_cmdWord_dbClr : decode latch (cmdWord 0x11#8 a b c) = .ok .dbClr := decode_cmdWord ..

@[simp] theorem decode_cmdWord_dbAdd : decode latch (cmdWord 0x12#8 a b c) = .ok (.dbAdd a b c) := decode_cmdWord ..

@[simp] theorem decode_cmdWord_dbAddf : decode latch (cmdWord 0x13#8 a b c) = .ok (.dbAddf a b c) := decode_cmdWord ..

@[simp] theorem decode_cmdWord_dbEnd : decode latch (cmdWord 0x14#8 a b c) = .ok (.dbEnd a) := decode_cmdWord ..

@[simp] theorem decode_cmdWord_dbRd : decode latch (cmdWord 0x15#8 a b c) = .ok (.dbRd b) := decode_cmdWord ..

@[simp] theorem decode_cmdWord_psgRst : decode latch (cmdWord 0x20#8 a b c) = .ok .psgRst := decode_cmdWord ..

@[simp] theorem decode_cmdWord_psgWr :
    decode latch (cmdWord 0x21#8 a b c) = .ok (.psgWr a (bitsAt b 0 8)) := decode_cmdWord ..

@[simp] theorem decode_cmdWord_psgRen : decode latch (cmdWord 0x22#8 a b c) = .ok (.psgRen b) := decode_cmdWord ..

@[simp] theorem decode_cmdWord_psgRate : decode latch (cmdWord 0x23#8 a b c) = .ok (.psgRate b) := decode_cmdWord ..

@[simp] theorem decode_cmdWord_psgChip :
    decode latch (cmdWord 0x24#8 a b c) = .ok (.psgChip (chipTypeOf (flagBit b))) := decode_cmdWord ..

@[simp] theorem decode_cmdWord_psgHq :
    decode latch (cmdWord 0x25#8 a b c) = .ok (.psgHq (flagBit b)) := decode_cmdWord ..

@[simp] theorem decode_cmdWord_psgMute :
    decode latch (cmdWord 0x26#8 a b c) = .ok (.psgMute b (flagBit c)) := decode_cmdWord ..

@[simp] theorem decode_cmdWord_rsCfg :
    decode latch (cmdWord 0x30#8 a b c) = .ok (.rsCfg (bitsAt a 0 32) (bitsAt a 32 32)) := decode_cmdWord ..

@[simp] theorem decode_cmdWord_rsPush :
    decode latch (cmdWord 0x31#8 a b c) = .ok (.rsPush (bitsAt b 0 16) (bitsAt c 0 16)) := decode_cmdWord ..

@[simp] theorem decode_cmdWord_rsHas : decode latch (cmdWord 0x32#8 a b c) = .ok .rsHas := decode_cmdWord ..

@[simp] theorem decode_cmdWord_rsPop : decode latch (cmdWord 0x33#8 a b c) = .ok .rsPop := decode_cmdWord ..

@[simp] theorem decode_cmdWord_rsRen : decode latch (cmdWord 0x34#8 a b c) = .ok (.rsRen b) := decode_cmdWord ..

end

/-- Each of the 18 opcodes has an instruction (R102). -/
theorem decodeFields_ok {f : CmdFields} (h : f.op ∈ commandOpcodes) : ∃ i, decodeFields f = .ok i := by
  obtain ⟨op, a, b, c⟩ := f
  simp only [commandOpcodes, List.mem_cons, List.not_mem_nil, or_false] at h
  obtain rfl | rfl | rfl | rfl | rfl | rfl | rfl | rfl | rfl | rfl | rfl | rfl | rfl | rfl | rfl | rfl | rfl | rfl := h
  all_goals exact ⟨_, rfl⟩

/-- No other OP value has one (R108): every arm of the opcode map but the last has an opcode of R102. -/
theorem decodeFields_reserved {f : CmdFields} (h : f.op ∉ commandOpcodes) :
    decodeFields f = .error (.reservedOpcode f.op) := by
  have hnat : f.op.toNat ∉ commandOpcodes.map BitVec.toNat := by
    rwa [List.mem_map_of_injective fun _ _ => BitVec.eq_of_toNat_eq]
  unfold decodeFields
  split
  case h_19 => rfl
  all_goals
    next hop =>
      rw [hop] at hnat
      exact absurd (by decide) hnat

/-! ### The 16 byte forms (R104 to R107) -/

theorem register_cases (r : BitVec 3) :
    r = 0 ∨ r = 1 ∨ r = 2 ∨ r = 3 ∨ r = 4 ∨ r = 5 ∨ r = 6 ∨ r = 7 := by
  revert r
  decide

/-- The LATCH forms in the order of their registers. -/
def latchForms (d : BitVec 4) : List Instr :=
  [.latch0 d, .latch1 d, .latch2 d, .latch3 d, .latch4 d, .latch5 d, .latch6 d, .latch7 d]

/-- The DATA forms in the order of their latch values. -/
def dataForms (d : BitVec 6) : List Instr :=
  [.data0 d, .data1 d, .data2 d, .data3 d, .data4 d, .data5 d, .data6 d, .data7 d]

theorem latchForms_getElem? (r : BitVec 3) (d : BitVec 4) : (latchForms d)[r.toNat]? = some (decodeLatchByte r d) := by
  obtain rfl | rfl | rfl | rfl | rfl | rfl | rfl | rfl := register_cases r <;> rfl

theorem dataForms_getElem? (latch : BitVec 3) (d : BitVec 6) :
    (dataForms d)[latch.toNat]? = some (decodeDataByte latch d) := by
  obtain rfl | rfl | rfl | rfl | rfl | rfl | rfl | rfl := register_cases latch <;> rfl

theorem encode_decodeLatchByte (r : BitVec 3) (d : BitVec 4) :
    encode (decodeLatchByte r d) = .psgByte (latchByte r.toNat d) := by
  obtain rfl | rfl | rfl | rfl | rfl | rfl | rfl | rfl := register_cases r <;> rfl

/-- The eight DATA forms share one encoding (R107). -/
theorem encode_decodeDataByte (k : BitVec 3) (d : BitVec 6) : encode (decodeDataByte k d) = .psgByte (dataByte d) := by
  obtain rfl | rfl | rfl | rfl | rfl | rfl | rfl | rfl := register_cases k <;> rfl

theorem dataLatch_decodeDataByte (k : BitVec 3) (d : BitVec 6) : (decodeDataByte k d).dataLatch = some k := by
  obtain rfl | rfl | rfl | rfl | rfl | rfl | rfl | rfl := register_cases k <;> rfl

/-- The DATA form tells the latch state it was decoded in. -/
theorem decodeDataByte_latch_inj {k k' : BitVec 3} {d : BitVec 6} :
    decodeDataByte k d = decodeDataByte k' d ↔ k = k' := by
  refine ⟨fun h => ?_, congrArg (decodeDataByte · d)⟩
  have hlatch := congrArg Instr.dataLatch h
  rwa [dataLatch_decodeDataByte, dataLatch_decodeDataByte, Option.some.injEq] at hlatch

/-- An instruction that depends on the latch is a DATA form. -/
theorem exists_eq_decodeDataByte {i : Instr} {k : BitVec 3} (h : i.dataLatch = some k) :
    ∃ d, i = decodeDataByte k d := by
  cases i with
  | data0 d | data1 d | data2 d | data3 d | data4 d | data5 d | data6 d | data7 d =>
    cases h
    exact ⟨d, rfl⟩
  | _ => cases h

theorem decodeByte_of_msb {b : BitVec 8} (latch : BitVec 3) (h : b.msb = true) :
    decodeByte latch b = decodeLatchByte (bitsAt b 4 3) (b.setWidth 4) := by
  rw [BitVec.msb_eq_decide, decide_eq_true_eq] at h
  rw [decodeByte, if_pos h, bitsAt_zero]

theorem decodeByte_of_not_msb {b : BitVec 8} (latch : BitVec 3) (h : b.msb = false) :
    decodeByte latch b = decodeDataByte latch (b.setWidth 6) := by
  rw [BitVec.msb_eq_decide, decide_eq_false_iff_not] at h
  rw [decodeByte, if_neg h, bitsAt_zero]

/-! ### Decode of encode -/

theorem wellFormed_of_dataLatch_none {i : Instr} (latch : BitVec 3) (h : i.dataLatch = none) :
    i.wellFormed latch = true := by
  simp only [Instr.wellFormed, h]

theorem wellFormed_decodeDataByte_iff {latch k : BitVec 3} {d : BitVec 6} :
    (decodeDataByte k d).wellFormed latch = true ↔ k = latch := by
  simp only [Instr.wellFormed, dataLatch_decodeDataByte, beq_iff_eq]

theorem decode_encode_latchForm (latch r : BitVec 3) (d : BitVec 4) :
    decode latch (encode (decodeLatchByte r d)) = .ok (decodeLatchByte r d) := by
  rw [encode_decodeLatchByte, decode, decodeByte_latchByte]

theorem decode_encode_dataForm (latch k : BitVec 3) (d : BitVec 6) :
    decode latch (encode (decodeDataByte k d)) = .ok (decodeDataByte latch d) := by
  rw [encode_decodeDataByte, decode, decodeByte_dataByte]

/-- A command or a LATCH form reads back in every latch state: each field holds its operand whole. -/
theorem decode_encode_of_dataLatch_none {i : Instr} (latch : BitVec 3) (h : i.dataLatch = none) :
    decode latch (encode i) = .ok i := by
  cases i with
  | dbCfg | rsCfg => simp [encode, bitsAt_packA_low, bitsAt_packA_high]
  | psgWr | rsPush => simp [encode, bitsAt_zero]
  | psgChip | psgHq | psgMute => simp [encode]
  | dbClr | dbAdd | dbAddf | dbEnd | dbRd | psgRst | psgRen | psgRate | rsHas | rsPop | rsRen => exact decode_cmdWord ..
  | latch0 d => exact decode_encode_latchForm latch 0 d
  | latch1 d => exact decode_encode_latchForm latch 1 d
  | latch2 d => exact decode_encode_latchForm latch 2 d
  | latch3 d => exact decode_encode_latchForm latch 3 d
  | latch4 d => exact decode_encode_latchForm latch 4 d
  | latch5 d => exact decode_encode_latchForm latch 5 d
  | latch6 d => exact decode_encode_latchForm latch 6 d
  | latch7 d => exact decode_encode_latchForm latch 7 d
  | data0 | data1 | data2 | data3 | data4 | data5 | data6 | data7 => cases h

/-- Settles O1: outside the DATA forms the latch plays no part; a DATA byte decodes to the form of the present latch, so
it reads back under its own latch value alone. -/
theorem decodeEncodeRoundTrip : Obligations.DecodeEncodeRoundTrip := by
  intro latch i
  cases hlatch : i.dataLatch with
  | none =>
    exact iff_of_true (wellFormed_of_dataLatch_none latch hlatch) (decode_encode_of_dataLatch_none latch hlatch)
  | some k =>
    obtain ⟨d, rfl⟩ := exists_eq_decodeDataByte hlatch
    rw [wellFormed_decodeDataByte_iff, decode_encode_dataForm, Except.ok.injEq, decodeDataByte_latch_inj]
    exact eq_comm

/-! ### Unused bits and reserved opcodes -/

/-- Settles O2: per opcode, the operands that the instruction is made of do not reach the unused bits. -/
theorem unusedOperandBitsIgnored : Obligations.UnusedOperandBitsIgnored := by
  intro latch a a' b b' c c'
  refine ⟨?noOperand, ?dbCfg, ?dbEnd, ?rsCfg, ?onlyB, ?psgWr, ?flagInB, ?psgMute, ?rsPush⟩
  case noOperand | dbCfg | dbEnd | rsCfg | onlyB => simp
  case psgWr =>
    intro hbyte
    simp [bitsAt_zero, hbyte]
  case flagInB =>
    intro op hop hflag
    rw [← flagBit_eq_getLsbD, ← flagBit_eq_getLsbD] at hflag
    simp only [List.mem_cons, List.not_mem_nil, or_false] at hop
    obtain rfl | rfl := hop <;> simp [hflag]
  case psgMute =>
    intro hflag
    rw [← flagBit_eq_getLsbD, ← flagBit_eq_getLsbD] at hflag
    simp [hflag]
  case rsPush =>
    intro hl hr
    simp [bitsAt_zero, hl, hr]

/-- The OP field as a slice of the word (R100). -/
theorem ofWord_op (w : BitVec 136) : (CmdFields.ofWord w).op = w.extractLsb' 128 8 := bitsAt_eq_extractLsb' w 128 8

/-- The step on a word that has no instruction (R108, entry 14). -/
theorem step_of_decodeWord_error {s : State} {w : PortWord} {buffers : Option (Stereo (Memory 32))}
    {answers : List (Stereo Sample)} {rest : List HostEvent} {e : DecodeError}
    (hevents : s.host.events = .present w buffers answers :: rest) (hdecode : s.decodeWord w = .error e) :
    step s = .refused (refusalOf e) := by
  simp only [step, hevents, hdecode]

/-- An instruction is refused for its slots only (entry 13). -/
theorem exec_ne_reserved (i : Instr) (s : State) (op : BitVec 8) : exec i s ≠ .refused (.reservedOpcode op) := by
  obtain ⟨r, hexec | ⟨hexec, -⟩⟩ := exec_completes i s
  · rw [hexec, Ne, completeWithin_refused_iff]
    rintro ⟨_, -, -, ⟨⟩⟩
  · rw [hexec]
    exact complete_ne_refused _ _ _

/-- Settles O3: the opcode map answers on exactly the 18 opcodes, and no instruction raises that refusal itself. -/
theorem reservedOpcodesAreRefused : Obligations.ReservedOpcodesAreRefused := by
  intro s w buffers answers rest hevents
  rw [← ofWord_op]
  refine ⟨fun hop => step_of_decodeWord_error hevents (decodeFields_reserved hop), fun hop => ?_⟩
  obtain ⟨i, hdecode⟩ := decodeFields_ok hop
  refine ⟨⟨i, hdecode⟩, fun op => ?_⟩
  rw [step_of_decodeWord_ok hevents hdecode]
  exact exec_ne_reserved _ _ _

/-! ### Every byte, and words of the spec -/

/-- Settles O4: bit 7 tells the two lists of forms apart, bits [6:4] or the latch index them. -/
theorem everyByteSelectsOneForm : Obligations.EveryByteSelectsOneForm := by
  intro latch b
  refine ⟨fun hmsb => ?_, fun hmsb => ?_⟩
  · have hindex : b.toNat / 16 % 8 = (bitsAt b 4 3).toNat := (bitsAt_toNat b 4 3).symm
    rw [decodeByte_of_msb latch hmsb, hindex]
    exact latchForms_getElem? _ _
  · rw [decodeByte_of_not_msb latch hmsb]
    exact dataForms_getElem? _ _

/-- A word that is the encoding of an instruction without a latch of its own decodes to it. -/
theorem decode_of_eq_encode {w : PortWord} {i : Instr} (hw : w = encode i) (latch : BitVec 3)
    (h : i.dataLatch = none) : decode latch w = .ok i :=
  hw ▸ decode_encode_of_dataLatch_none latch h

/-- Settles O7: the first five words are encodings; the last byte has its ignored bit 6 set, so it is none. -/
theorem specWordsDecode : Obligations.SpecWordsDecode := by
  refine ⟨decode_of_eq_encode ?_ 0 rfl, decode_of_eq_encode ?_ 0 rfl, decode_of_eq_encode ?_ 0 rfl,
    decode_of_eq_encode ?_ 0 rfl, decode_of_eq_encode ?_ 0 rfl, congrArg Except.ok (decodeByte_of_not_msb 0 rfl)⟩
  all_goals decide

end Sys2Proof.Proofs
end

section
/-! The registers and the time cursor of the delta buffer: positions, rates, clearing, the end of a frame and the frame
length a read needs (40_delta_buffer.md R130 to R132, R135, R137). -/

namespace Sys2Proof.Proofs

open Sys2Proof Sys2Proof.Machine

/-! ### Positions -/

/-- The position of an operand, with the product and the sum as 64-bit words (40_delta_buffer.md R130). -/
theorem fixedTime_eq_toNat (d : Dbuf) (t : Time) : fixedTime d t.toInt = (t * d.factor + d.offset).toInt.toNat := by
  rw [fixedTime, s64_add, s64_mul, s64_toInt, s64_toInt, s64_toInt]

/-- A position is its sample index, its phase and its interpolation factor (40_delta_buffer.md R130). -/
theorem position_fields (f : Nat) : f = slotIndex f * 2 ^ 20 + phaseOf f * 2 ^ 15 + interpOf f := by
  unfold slotIndex phaseOf interpOf
  omega

/-- Settles O15: the position is the non-negative part of a 64-bit sum, cut into its fields. -/
theorem fixedTimeWrapsThenClamps : Obligations.FixedTimeWrapsThenClamps := by
  intro d t v f
  have hf : f = v.toInt.toNat := fixedTime_eq_toNat d t
  have hlt : f < 2 ^ 63 := fixedTime_lt d t.toInt
  exact ⟨by omega, by omega, by omega, position_fields f, Nat.mod_lt _ (by decide), Nat.mod_lt _ (by decide)⟩

/-! ### Rates and clearing -/

/-- The division rounded up is the ceiling of the rational quotient (00_scope.md R11). -/
theorem ceilDiv_natCast (a b : Nat) : ceilDiv a b = ⌈(a : ℚ) / (b : ℚ)⌉ :=
  (Rat.ceil_natCast_div_natCast a b).symm

theorem factorOf_eq_ceil (n d r : BitVec 32) :
    factorOf n d r = if n.toNat = 0 then 0 else s64 ⌈((r.toNat * 2 ^ 20 * d.toNat : Nat) : ℚ) / (n.toNat : ℚ)⌉ := by
  have hzero : n = 0 ↔ n.toNat = 0 := BitVec.toNat_eq
  rw [factorOf, ← ceilDiv_natCast]
  simp only [hzero, Nat.cast_mul, Nat.cast_pow, Nat.cast_ofNat]

/-- Settles O16: the stored factor is the ratio rounded up. -/
theorem dbCfgSetsFactor : Obligations.DbCfgSetsFactor := by
  intro n d r s
  rw [← factorOf_eq_ceil]
  rfl

/-- The floor division by 2^n is the arithmetic shift of the word (00_scope.md R10). -/
theorem s64_asr (v : Time) (n : Nat) : s64 (asr v.toInt n) = v.sshiftRight n := by
  rw [asr, BitVec.sshiftRight, Int.shiftRight_eq_div_pow]
  rfl

/-- Settles O17: the cleared memories are empty lists, and the cursor is half a factor. -/
theorem dbClrEmptiesBuffer : Obligations.DbClrEmptiesBuffer := by
  intro s
  refine ⟨clearDbuf s.dbuf, rfl, ?_, fun x i => ?_, zero_lane⟩
  · rw [clearDbuf, s64_asr]
  · cases x <;> exact Memory.read_nil i

/-! ### The end of a frame -/

/-- `DB.END` in 64-bit words (40_delta_buffer.md R135). -/
theorem endFrame_eq (d : Dbuf) (k : Time) : endFrame d k.toInt = { d with offset := d.offset + k * d.factor } := by
  rw [endFrame, s64_add, s64_mul, s64_toInt, s64_toInt, s64_toInt]

/-- Settles O20: `DB.END` in 64-bit words. -/
theorem dbEndAdvancesOffset : Obligations.DbEndAdvancesOffset := by
  intro k s
  rw [← endFrame_eq]
  rfl

/-- The end of a frame moves positions by its length (40_delta_buffer.md R135, R143). -/
theorem fixedTime_endFrame (d : Dbuf) (c t : Time) :
    fixedTime (endFrame d c.toInt) t.toInt = fixedTime d (c + t).toInt := by
  have hwords : t * d.factor + (d.offset + c * d.factor) = (c + t) * d.factor + d.offset := by ring
  rw [endFrame_eq, fixedTime_eq_toNat, fixedTime_eq_toNat]
  exact congrArg (fun v : Time => v.toInt.toNat) hwords

theorem addDelta_endFrame (kernel : List (List Int)) (d : Dbuf) (c t : Time) (x : Stereo Amp) :
    addDelta kernel (endFrame d c.toInt) t.toInt x = endFrame (addDelta kernel d (c + t).toInt x) c.toInt := by
  rw [addDelta_eq, addDelta_eq, fixedTime_endFrame]
  rfl

theorem addDeltaFast_endFrame (d : Dbuf) (c t : Time) (x : Stereo Amp) :
    addDeltaFast (endFrame d c.toInt) t.toInt x = endFrame (addDeltaFast d (c + t).toInt x) c.toInt := by
  rw [addDeltaFast, addDeltaFast, fixedTime_endFrame]
  rfl

/-- Beyond the bound a command that may grow refuses (20_memory.md R76). -/
theorem completeWithin_of_not_within {s : State} (h : ¬ s.Within) (r : BitVec 64) :
    completeWithin s r = .refused (.slotsExceeded s.dbuf.peakNeed) := by
  unfold State.Within at h
  push Not at h
  obtain ⟨m, hbound, hlt⟩ := h
  exact completeWithin_refused_iff.mpr ⟨m, hbound, hlt, rfl⟩

/-- `DB.END` asks for no slots: after a command that may refuse, it refuses as that command does (20_memory.md R76). -/
theorem andThen_completeWithin_dbEnd (s : State) (d : Dbuf) (c : Time) :
    andThen (completeWithin (s.withDbuf d) 0) (.dbEnd c) = completeWithin (s.withDbuf (endFrame d c.toInt)) 0 := by
  have hsame : (s.withDbuf (endFrame d c.toInt)).Within ↔ (s.withDbuf d).Within := Iff.rfl
  by_cases hwithin : (s.withDbuf d).Within
  · rw [completeWithin_within hwithin, completeWithin_within (hsame.mpr hwithin)]
    rfl
  · rw [completeWithin_of_not_within hwithin, completeWithin_of_not_within (mt hsame.mp hwithin)]
    rfl

/-- Settles O21: on each path the position after the frame's end is the position at c + t before it. -/
theorem frameEndMovesTimestamps : Obligations.FrameEndMovesTimestamps := by
  intro s c t dl dr
  have hadd := andThen_completeWithin_dbEnd s (addDelta s.params.kernel s.dbuf (c + t).toInt ⟨dl, dr⟩) c
  have haddf := andThen_completeWithin_dbEnd s (addDeltaFast s.dbuf (c + t).toInt ⟨dl, dr⟩) c
  rw [← addDelta_endFrame] at hadd
  rw [← addDeltaFast_endFrame] at haddf
  exact ⟨hadd.symm, haddf.symm⟩

/-! ### The frame length a read needs -/

/-- No time helps where none passes (40_delta_buffer.md R137). -/
theorem clocksNeeded_of_factor_nonpos {d : Dbuf} (h : d.factor.toInt ≤ 0) (count : Nat) : clocksNeeded d count = 0 :=
  if_pos h

/-- No time is needed where enough has passed. -/
theorem clocksNeeded_of_reached {d : Dbuf} {count : Nat} (h : (count : Int) * 2 ^ 20 - d.offset.toInt ≤ 0) :
    clocksNeeded d count = 0 := by
  rw [clocksNeeded, if_pos h, ite_self]

/-- Else it is the position still to go in ticks, rounded up. -/
theorem clocksNeeded_of_needed {d : Dbuf} {count : Nat} (hfactor : 0 < d.factor.toInt)
    (h : 0 < (count : Int) * 2 ^ 20 - d.offset.toInt) :
    clocksNeeded d count = ceilDiv ((count : Int) * 2 ^ 20 - d.offset.toInt) d.factor.toInt := by
  rw [clocksNeeded, if_neg hfactor.not_ge, if_neg h.not_ge]

/-- A frame of `clocksNeeded` ticks reaches `count` samples. -/
theorem clocksNeeded_reaches {d : Dbuf} (hfactor : 0 < d.factor.toInt) (count : Nat) :
    (count : Int) * 2 ^ 20 ≤ d.offset.toInt + clocksNeeded d count * d.factor.toInt := by
  rcases le_or_gt ((count : Int) * 2 ^ 20 - d.offset.toInt) 0 with hreached | hneeded
  · rw [clocksNeeded_of_reached hreached, Int.zero_mul]
    omega
  · obtain ⟨hle, -⟩ := ceilDiv_mul_bounds ((count : Int) * 2 ^ 20 - d.offset.toInt) hfactor
    rw [clocksNeeded_of_needed hfactor hneeded]
    omega

/-- No shorter frame does. -/
theorem clocksNeeded_least {d : Dbuf} (hfactor : 0 < d.factor.toInt) (count : Nat) {T : Int} (h0 : 0 ≤ T)
    (hT : T < clocksNeeded d count) : d.offset.toInt + T * d.factor.toInt < (count : Int) * 2 ^ 20 := by
  rcases le_or_gt ((count : Int) * 2 ^ 20 - d.offset.toInt) 0 with hreached | hneeded
  · rw [clocksNeeded_of_reached hreached] at hT
    omega
  · obtain ⟨-, hlt⟩ := ceilDiv_mul_bounds ((count : Int) * 2 ^ 20 - d.offset.toInt) hfactor
    rw [clocksNeeded_of_needed hfactor hneeded] at hT
    have hmul := Int.mul_le_mul_of_nonneg_right (Int.add_one_le_of_lt hT) hfactor.le
    rw [Int.add_mul, Int.one_mul] at hmul
    omega

/-- Where the advance does not wrap, `DB.END` leaves the mathematical sum in `offset`. -/
theorem endFrame_offset_toInt {d : Dbuf} (hfactor : 0 ≤ d.factor.toInt) {T : Int} (h0 : 0 ≤ T) (hT : T < 2 ^ 63)
    (hfits : d.offset.toInt + T * d.factor.toInt < 2 ^ 63) :
    (endFrame d (s64 T).toInt).offset.toInt = d.offset.toInt + T * d.factor.toInt := by
  have hlo : -2 ^ 63 ≤ d.offset.toInt := BitVec.le_toInt d.offset
  have hadvance := Int.mul_nonneg h0 hfactor
  rw [s64_toInt_of_range (by omega) hT]
  exact s64_toInt_of_range (by omega) hfits

/-- Settles O29: the frame length reaches the samples, no shorter one does, and `DB.END` advances by it. -/
theorem clocksNeededIsSmallest : Obligations.ClocksNeededIsSmallest := by
  intro s count T
  refine ⟨fun h => clocksNeeded_of_factor_nonpos h _, fun hfactor => ?_⟩
  have h0 : 0 ≤ T := clocksNeeded_nonneg s.dbuf count.toNat
  have hreaches : (count.toNat : Int) * 2 ^ 20 ≤ s.dbuf.offset.toInt + T * s.dbuf.factor.toInt :=
    clocksNeeded_reaches hfactor count.toNat
  refine ⟨h0, Int.le_ediv_of_mul_le (by decide) hreaches, fun T' h0' hT' => ?_, fun hfits hT => ?_⟩
  · exact Int.ediv_lt_of_lt_mul (by decide) (clocksNeeded_least hfactor count.toNat h0' hT')
  · refine ⟨_, rfl, ?_⟩
    rw [State.respond_dbuf, State.withDbuf_dbuf, endFrame_offset_toInt hfactor.le h0 hT hfits]
    omega

end Sys2Proof.Proofs
end

section
/-! Adding a delta: the slots each path writes, the height it adds, and that the negated delta takes it back
(40_delta_buffer.md R133, R134, R139, R144). -/

namespace Sys2Proof.Proofs

open Sys2Proof Sys2Proof.Machine

/-! ### The taps of a delta -/

/-- What `DB.ADD` adds to slot idx + k, for k below 8: tap k of the forward rows (40_delta_buffer.md R133). -/
def forwardTap (kernel : List (List Int)) (f : Nat) (d : Int) (k : Nat) : Int :=
  tableAt kernel (phaseOf f) k * (d - tdiv (d * interpOf f) 32768) +
    tableAt kernel (phaseOf f + 1) k * tdiv (d * interpOf f) 32768

/-- What `DB.ADD` adds to slot idx + 8 + k, for k below 8: tap 7 - k of the mirrored rows (40_delta_buffer.md R133). -/
def mirroredTap (kernel : List (List Int)) (f : Nat) (d : Int) (k : Nat) : Int :=
  tableAt kernel (32 - phaseOf f) (7 - k) * (d - tdiv (d * interpOf f) 32768) +
    tableAt kernel (31 - phaseOf f) (7 - k) * tdiv (d * interpOf f) 32768

theorem tapList_eq (kernel : List (List Int)) (f : Nat) (d : Int) :
    tapList kernel f d = (List.range 8).flatMap fun k =>
      [(slotIndex f + k, forwardTap kernel f d k), (slotIndex f + 8 + k, mirroredTap kernel f d k)] := rfl

/-- What the law's tap at slot `j` is: a forward tap in the first eight slots, a mirrored one in the next eight. -/
theorem tapAt_eq (kernel : List (List Int)) (f : Nat) (d : Int) (j : Nat) :
    tapAt kernel f d j =
      (if slotIndex f ≤ j ∧ j < slotIndex f + 8 then forwardTap kernel f d (j - slotIndex f) else 0) +
      (if slotIndex f + 8 ≤ j ∧ j < slotIndex f + 8 + 8 then mirroredTap kernel f d (j - (slotIndex f + 8))
        else 0) := by
  have hidx : f / 2 ^ 20 = slotIndex f := rfl
  simp only [tapAt, hidx]
  rcases Nat.lt_or_ge j (slotIndex f) with hbelow | hfrom
  · rw [if_pos hbelow, if_neg (by omega), if_neg (by omega), Int.add_zero]
  rw [if_neg hfrom.not_gt]
  rcases Nat.lt_or_ge j (slotIndex f + 8) with hforward | hbeyond
  · rw [if_pos hforward, if_pos ⟨hfrom, hforward⟩, if_neg (by omega), Int.add_zero]
    rfl
  have hnotForward : ¬ (slotIndex f ≤ j ∧ j < slotIndex f + 8) := by omega
  rw [if_neg hbeyond.not_gt, if_neg hnotForward, Int.zero_add]
  rcases Nat.lt_or_ge j (slotIndex f + 16) with hmirrored | habove
  · rw [if_pos hmirrored, if_pos ⟨hbeyond, by omega⟩, Nat.sub_sub j]
    rfl
  · rw [if_neg habove.not_gt, if_neg (by omega)]

/-- Of the additions to `n` consecutive slots from `i` on, slot `j` takes its own. -/
theorem sum_additions_at (i n j : Nat) (g : Nat → Int) :
    ((List.range n).map fun k => if i + k = j then g k else 0).sum = if i ≤ j ∧ j < i + n then g (j - i) else 0 := by
  induction n with
  | zero => exact (if_neg (by omega)).symm
  | succ n ih =>
    rw [List.range_succ, List.map_append, List.sum_append, ih, List.map_singleton, List.sum_singleton]
    by_cases hlast : i + n = j
    · rw [if_pos hlast, if_neg (by omega), if_pos (by omega), Int.zero_add]
      congr 1
      omega
    · rw [if_neg hlast, Int.add_zero]
      exact if_congr (by omega) rfl rfl

/-- What the 16 slot additions add to slot `j` is its tap (40_delta_buffer.md R133). -/
theorem tapList_sum_at (kernel : List (List Int)) (f : Nat) (d : Int) (j : Nat) :
    ((tapList kernel f d).map fun p => if p.1 = j then p.2 else 0).sum = tapAt kernel f d j := by
  rw [tapAt_eq, ← sum_additions_at, ← sum_additions_at, ← List.sum_map_add, tapList_eq, List.map_flatMap,
    List.flatMap_def, List.sum_flatten, List.map_map]
  simp only [Function.comp_def, List.map_cons, List.map_nil, List.sum_cons, List.sum_nil, Int.add_zero]

/-- One lane of `DB.ADD`, slot by slot. -/
theorem addTaps_read (kernel : List (List Int)) (f : Nat) (d : Int) {m : Memory 32} (h : m.wf = true) (j : Nat) :
    (addTaps kernel f d m).read j = s32 ((m.read j).toInt + tapAt kernel f d j) := by
  rw [addTaps_eq, addAll_read _ h, tapList_sum_at, s32_add, s32_toInt]

/-! ### Which slots a delta writes -/

/-- In an unbounded memory the delta commands complete (20_memory.md R72, R76). -/
theorem exec_dbAdd_unbounded (t : Time) (dl dr : Amp) {s : State} (h : s.Unbounded) :
    exec (.dbAdd t dl dr) s = .next ((s.withDbuf (addDelta s.params.kernel s.dbuf t.toInt ⟨dl, dr⟩)).respond 0) :=
  completeWithin_unbounded (s := s.withDbuf (addDelta s.params.kernel s.dbuf t.toInt ⟨dl, dr⟩)) h 0

theorem exec_dbAddf_unbounded (t : Time) (dl dr : Amp) {s : State} (h : s.Unbounded) :
    exec (.dbAddf t dl dr) s = .next ((s.withDbuf (addDeltaFast s.dbuf t.toInt ⟨dl, dr⟩)).respond 0) :=
  completeWithin_unbounded (s := s.withDbuf (addDeltaFast s.dbuf t.toInt ⟨dl, dr⟩)) h 0

/-- Settles O18: in an unbounded memory `DB.ADD` completes, and each lane takes its taps. -/
theorem dbAddWritesSixteenSlots : Obligations.DbAddWritesSixteenSlots := by
  intro t dl dr s hunbounded hwf f idx
  refine ⟨addDelta s.params.kernel s.dbuf t.toInt ⟨dl, dr⟩, exec_dbAdd_unbounded t dl dr hunbounded,
    (addDelta_slots _ _ _ _).only, grow_cap _ _, grow_peakNeed _ _, fun x j => ?_, fun x j hj => ?_⟩
  · rw [addDelta_lane]
    exact addTaps_read _ _ _ (hwf x) j
  · obtain ⟨-, hframe, -⟩ := addTaps_spec s.params.kernel f ((⟨dl, dr⟩ : Stereo Amp).lane x).toInt (hwf x)
    rw [addDelta_lane]
    exact hframe j hj

/-- One lane of `DB.ADDF`, slot by slot (40_delta_buffer.md R134). -/
theorem addFast_read (f : Nat) (d : Int) {m : Memory 32} (h : m.wf = true) :
    (addFast f d m).read (slotIndex f + 7) =
      s32 ((m.read (slotIndex f + 7)).toInt + d * 32768 - d * fastWeight f) ∧
    (addFast f d m).read (slotIndex f + 8) = s32 ((m.read (slotIndex f + 8)).toInt + d * fastWeight f) ∧
    ∀ j, j ≠ slotIndex f + 7 → j ≠ slotIndex f + 8 → (addFast f d m).read j = m.read j := by
  obtain ⟨-, hread, -⟩ := addFast_spec f d h
  refine ⟨?_, ?_, fun j h7 h8 => ?_⟩
  · rw [hread, if_pos rfl, if_neg (by omega), add_zero, Int.add_sub_assoc, s32_add, s32_toInt]
  · rw [hread, if_neg (by omega), if_pos rfl, add_zero, s32_add, s32_toInt]
  · rw [hread, if_neg h7.symm, if_neg h8.symm, add_zero, add_zero]

/-- Settles O19: in an unbounded memory `DB.ADDF` completes, and each lane takes its two additions. -/
theorem dbAddfWritesTwoSlots : Obligations.DbAddfWritesTwoSlots := by
  intro t dl dr s hunbounded hwf f idx it
  have hlane : ∀ x : Lane, (addDeltaFast s.dbuf t.toInt ⟨dl, dr⟩).buf.lane x =
      addFast f ((⟨dl, dr⟩ : Stereo Amp).lane x).toInt (s.dbuf.buf.lane x) := addDeltaFast_lane _ _ _
  refine ⟨addDeltaFast s.dbuf t.toInt ⟨dl, dr⟩, exec_dbAddf_unbounded t dl dr hunbounded,
    (addDeltaFast_slots _ _ _).only, grow_cap _ _, grow_peakNeed _ _, fun x => ?_, fun x => ?_⟩
  · obtain ⟨h7, h8, -⟩ := addFast_read f ((⟨dl, dr⟩ : Stereo Amp).lane x).toInt (hwf x)
    rw [hlane]
    exact ⟨h7, h8⟩
  · obtain ⟨-, -, hother⟩ := addFast_read f ((⟨dl, dr⟩ : Stereo Amp).lane x).toInt (hwf x)
    rw [hlane]
    exact hother

/-! ### The height of a delta -/

/-- Settles O26: the state after each command is the state after the delta emitted on that path, which adds its height
to the slots of each lane. -/
theorem stepHeightIsConserved : Obligations.StepHeightIsConserved := by
  intro t dl dr s hunbounded hwf hk
  refine ⟨_, _, exec_dbAdd_unbounded t dl dr hunbounded, exec_dbAddf_unbounded t dl dr hunbounded, fun x => ⟨?_, ?_⟩⟩
  · exact emit_total (s := s.withPsg { s.psg with hqMode := true }) hk hwf t.toInt ⟨dl, dr⟩ x
  · exact emit_total (s := s.withPsg { s.psg with hqMode := false }) hk hwf t.toInt ⟨dl, dr⟩ x

/-! ### The negated delta -/

/-- The same slot additions with the opposite values. -/
def negated (l : List (Nat × Int)) : List (Nat × Int) := l.map fun p => (p.1, -p.2)

/-- The opposite additions take back what a list of additions added. -/
theorem addAll_negated (l : List (Nat × Int)) {m : Memory 32} (h : m.wf = true) :
    addAll (negated l) (addAll l m) = m := by
  refine Memory.ext_read (addAll_wf _ (addAll_wf _ h)) h fun j => ?_
  have hsum : ((negated l).map fun p => if p.1 = j then p.2 else 0).sum =
      -(l.map fun p => if p.1 = j then p.2 else 0).sum := by
    rw [List.sum_neg, List.map_map, negated, List.map_map]
    refine congrArg List.sum (List.map_congr_left fun p _ => ?_)
    show (if p.1 = j then -p.2 else 0) = -(if p.1 = j then p.2 else 0)
    rw [apply_ite Neg.neg, neg_zero]
  rw [addAll_read _ (addAll_wf _ h), addAll_read _ h, hsum, s32_neg]
  ring

/-- The split of a delta between two phases truncates toward zero, so it is odd (40_delta_buffer.md R133, R144). -/
theorem tdiv_neg_mul (d : Int) (n : Nat) : tdiv (-d * n) 32768 = -tdiv (d * n) 32768 := by
  rw [Int.neg_mul]
  exact Int.neg_tdiv _ _

theorem forwardTap_neg (kernel : List (List Int)) (f : Nat) (d : Int) (k : Nat) :
    forwardTap kernel f (-d) k = -forwardTap kernel f d k := by
  rw [forwardTap, forwardTap, tdiv_neg_mul]
  ring

theorem mirroredTap_neg (kernel : List (List Int)) (f : Nat) (d : Int) (k : Nat) :
    mirroredTap kernel f (-d) k = -mirroredTap kernel f d k := by
  rw [mirroredTap, mirroredTap, tdiv_neg_mul]
  ring

theorem tapList_neg (kernel : List (List Int)) (f : Nat) (d : Int) :
    tapList kernel f (-d) = negated (tapList kernel f d) := by
  rw [tapList_eq, tapList_eq, negated, List.map_flatMap]
  simp only [forwardTap_neg, mirroredTap_neg, List.map_cons, List.map_nil]

/-- Settles O27: the second command's additions are the first one's, negated. -/
theorem dbAddIsOdd : Obligations.DbAddIsOdd := by
  intro t dl dr s hunbounded hwf hdl hdr
  have hneg : ∀ x : Lane, ((⟨-dl, -dr⟩ : Stereo Amp).lane x).toInt = -((⟨dl, dr⟩ : Stereo Amp).lane x).toInt
    | .left => BitVec.toInt_neg_of_ne_intMin hdl
    | .right => BitVec.toInt_neg_of_ne_intMin hdr
  obtain ⟨r, r', hrun⟩ := andThen_exec_unbounded (.dbAdd t dl dr) (.dbAdd t (-dl) (-dr)) hunbounded
  refine ⟨_, hrun, Stereo.ext_lane fun x => ?_⟩
  have hlane := effect_two_deltas_lane { s.psg with hqMode := true } { s.psg with hqMode := true } t t
    ⟨dl, dr⟩ ⟨-dl, -dr⟩ s r x
  rw [hneg x] at hlane
  calc (effect (.dbAdd t (-dl) (-dr)) ((effect (.dbAdd t dl dr) s).respond r)).dbuf.buf.lane x
      = addAll (tapList s.params.kernel (fixedTime s.dbuf t.toInt) (-((⟨dl, dr⟩ : Stereo Amp).lane x).toInt))
          (addAll (tapList s.params.kernel (fixedTime s.dbuf t.toInt) ((⟨dl, dr⟩ : Stereo Amp).lane x).toInt)
            (s.dbuf.buf.lane x)) := hlane
    _ = s.dbuf.buf.lane x := by rw [tapList_neg, addAll_negated _ (hwf x)]

end Sys2Proof.Proofs
end

section
/-! Reading samples: what one `DB.RD` delivers, its accounting, and that a read can be cut in two (40_delta_buffer.md
R136, R140, R142, R143). -/

namespace Sys2Proof.Proofs

open Sys2Proof Sys2Proof.Machine

/-! ### The sample of an integrator value -/

theorem pcm_eq (v : Amp) : pcm v = max (-32768) (min 32767 (v.toInt / 32768)) := rfl

/-- Settles O23: `clamp16` of the integrator's floor. -/
theorem sampleIsClamped : Obligations.SampleIsClamped := by
  intro v
  rw [pcm_eq]
  omega

/-! ### One lane of a read -/

/-- The loop's slots and integrator do not depend on the host's buffer. -/
theorem readLoop_withOut (n i : Nat) (x : ReadLane) (o : Memory 32) :
    (readLoop n i { x with out := o }).buf = (readLoop n i x).buf ∧
    (readLoop n i { x with out := o }).integ = (readLoop n i x).integ := by
  induction n generalizing i x o with
  | zero => exact ⟨rfl, rfl⟩
  | succ n ih => exact ih (i + 1) (readStep i x) _

/-- `readLane_spec` for the delta buffer's side, whatever the host's buffer holds (40_delta_buffer.md R136). -/
theorem readLane_slots (n : Nat) {x : ReadLane} (hb : x.buf.wf = true) :
    (readLane n x).buf.wf = true ∧ (readLane n x).integ = integAt x.buf x.integ n ∧
    ∀ j, (readLane n x).buf.read j = x.buf.read (j + n) := by
  obtain ⟨hbuf, hinteg⟩ := readLoop_withOut n 0 x []
  obtain ⟨hwf, -, hcourse, hread, -⟩ := readLane_spec n (x := { x with out := [] }) hb Memory.wf_nil
  have hlaneBuf : (readLane n { x with out := [] }).buf = (readLane n x).buf := congrArg (Memory.shiftDown n) hbuf
  have hlaneInteg : (readLane n { x with out := [] }).integ = (readLane n x).integ := hinteg
  rw [hlaneBuf] at hwf hread
  rw [hlaneInteg] at hcourse
  exact ⟨hwf, hcourse, hread⟩

/-! ### `DB.RD` -/

theorem exec_dbRd_next (count : BitVec 32) (s : State) :
    exec (.dbRd count) s =
      .next ((readSamples s count.toNat).respond (rspCount (readCount s.dbuf count.toNat))) := rfl

/-- `DB.RD` touches the delta buffer and the host's buffers only. -/
theorem readSamples_eq (s : State) (count : Nat) :
    readSamples s count = (s.withDbuf (readSamples s count).dbuf).withOut (readSamples s count).host.out := rfl

/-- `offset` loses the time of the samples delivered (40_delta_buffer.md R136). -/
theorem readSamples_offset (s : State) (count : Nat) :
    (readSamples s count).dbuf.offset = s.dbuf.offset - BitVec.ofNat 64 (readCount s.dbuf count * 2 ^ 20) := by
  have hint : (readSamples s count).dbuf.offset = s64 (s.dbuf.offset.toInt - readCount s.dbuf count * 2 ^ 20) := rfl
  rw [hint, s64_sub, s64_toInt, ← s64_natCast]
  push_cast
  rfl

/-- `DB.RD` changes slots, integrators and `offset` of the delta buffer, and nothing else of it. -/
theorem readSamples_dbuf (s : State) (count : Nat) :
    (readSamples s count).dbuf = { s.dbuf with
      buf := (readSamples s count).dbuf.buf
      integ := (readSamples s count).dbuf.integ
      offset := s.dbuf.offset - BitVec.ofNat 64 (readCount s.dbuf count * 2 ^ 20) } := by
  rw [← readSamples_offset]
  rfl

theorem readSamples_integ_lane (s : State) (count : Nat) (x : Lane) :
    (readSamples s count).dbuf.integ.lane x =
      (readLane (readCount s.dbuf count) ⟨s.dbuf.buf.lane x, s.host.out.lane x, s.dbuf.integ.lane x⟩).integ := by
  cases x <;> rfl

/-- One lane of the delta buffer after `DB.RD`: the slots have moved down, and the integrator has run its turns. -/
theorem readSamples_lane {s : State} (hwf : pairWf s.dbuf.buf) (count : Nat) (x : Lane) :
    ((readSamples s count).dbuf.buf.lane x).wf = true ∧
    (readSamples s count).dbuf.integ.lane x =
      integAt (s.dbuf.buf.lane x) (s.dbuf.integ.lane x) (readCount s.dbuf count) ∧
    ∀ j, ((readSamples s count).dbuf.buf.lane x).read j =
      (s.dbuf.buf.lane x).read (j + readCount s.dbuf count) := by
  rw [readSamples_buf_lane, readSamples_integ_lane]
  exact readLane_slots _ (hwf x)

theorem readSamples_bufWf {s : State} (hwf : pairWf s.dbuf.buf) (count : Nat) :
    pairWf (readSamples s count).dbuf.buf := by
  intro x
  obtain ⟨hlane, -⟩ := readSamples_lane hwf count x
  exact hlane

/-- One lane of the host's buffers after `DB.RD`: the samples are added to the elements they are delivered to. -/
theorem readSamples_out_read {s : State} (hwf : pairWf s.dbuf.buf) (hout : pairWf s.host.out) (count : Nat) (x : Lane)
    (j : Nat) :
    ((readSamples s count).host.out.lane x).read j =
      if j < readCount s.dbuf count then
        s32 (((s.host.out.lane x).read j).toInt + pcm (integAt (s.dbuf.buf.lane x) (s.dbuf.integ.lane x) j))
      else (s.host.out.lane x).read j := by
  obtain ⟨-, -, -, -, hread⟩ := readLane_spec (readCount s.dbuf count)
    (x := ⟨s.dbuf.buf.lane x, s.host.out.lane x, s.dbuf.integ.lane x⟩) (hwf x) (hout x)
  rw [readSamples_out_lane]
  exact hread j

/-- The count of an operand fits RSP[31:0] (30_encoding.md R101). -/
theorem rspCount_readCount (d : Dbuf) (count : BitVec 32) :
    rspCount (readCount d count.toNat) = BitVec.ofNat 64 (readCount d count.toNat) := by
  have hlt : readCount d count.toNat < 2 ^ 32 := lt_of_le_of_lt (Nat.min_le_left _ _) count.isLt
  rw [rspCount, Nat.mod_eq_of_lt hlt]

/-- Settles O22: the two lanes of the read, and the response. -/
theorem dbRdDeliversSamples : Obligations.DbRdDeliversSamples := by
  intro count s hwf hout n
  refine ⟨(readSamples s count.toNat).dbuf, (readSamples s count.toNat).host.out, ?_, readSamples_dbuf s _, fun x => ?_⟩
  · rw [exec_dbRd_next, rspCount_readCount, ← readSamples_eq]
    rfl
  · obtain ⟨-, hinteg, hread⟩ := readSamples_lane hwf count.toNat x
    have hsamples := readSamples_out_read hwf hout count.toNat x
    exact ⟨hread, hinteg, fun i hi => (hsamples i).trans (if_pos hi), fun i hi => (hsamples i).trans (if_neg hi.not_gt)⟩

/-! ### Accounting -/

/-- The integrator after `k` turns: the slots it has gained less 64 times the samples it has leaked (40_delta_buffer.md
R140). -/
theorem integAt_eq (buf : Memory 32) (integ : Amp) (k : Nat) :
    integAt buf integ k = integ + slotsRead buf k - s32 (64 * samplesSum buf integ k) := by
  induction k with
  | zero => exact (by simp : integ = integ + 0 - s32 (64 * 0))
  | succ k ih =>
    have hturn : integAt buf integ (k + 1) =
        integAt buf integ k + buf.read k - s32 (pcm (integAt buf integ k) * 64) := integrate_eq _ _ _
    have hsum : s32 (64 * samplesSum buf integ (k + 1)) =
        s32 (64 * samplesSum buf integ k) + s32 (pcm (integAt buf integ k) * 64) := by
      rw [samplesSum, ← s32_add]
      congr 1
      ring
    rw [hsum, hturn, slotsRead]
    nth_rewrite 1 [ih]
    ring

/-- Settles O24: the integrator's course over the turns of the read. -/
theorem dbRdAccounting : Obligations.DbRdAccounting := by
  intro count s hwf n
  refine ⟨_, exec_dbRd_next count s, fun x => ?_⟩
  obtain ⟨-, hinteg, -⟩ := readSamples_lane hwf count.toNat x
  rw [State.respond_dbuf, hinteg]
  exact integAt_eq _ _ _

/-! ### A read cut in two -/

/-- A read takes its samples out of those that can be read (40_delta_buffer.md R136, R138). -/
theorem readable_readSamples (s : State) (count : Nat) :
    readable (readSamples s count).dbuf = readable s.dbuf - readCount s.dbuf count := by
  have hlo : -2 ^ 63 ≤ s.dbuf.offset.toInt := BitVec.le_toInt s.dbuf.offset
  have hhi : s.dbuf.offset.toInt < 2 ^ 63 := BitVec.toInt_lt
  have hcount : readCount s.dbuf count ≤ (s.dbuf.offset.toInt / 2 ^ 20).toNat := Nat.min_le_right _ _
  have hoffset : (readSamples s count).dbuf.offset.toInt =
      s.dbuf.offset.toInt - readCount s.dbuf count * 2 ^ 20 := s64_toInt_of_range (by omega) (by omega)
  rw [readable, readable, hoffset, asr, asr]
  omega

/-- Two reads deliver as many samples as one read of both counts. -/
theorem readCount_readSamples (s : State) (a b : Nat) :
    readCount s.dbuf a + readCount (readSamples s a).dbuf b = readCount s.dbuf (a + b) := by
  unfold readCount
  rw [readable_readSamples, readCount]
  omega

/-- The integrator's course goes on where the slots have moved down by `n`. -/
theorem integAt_add {buf buf' : Memory 32} {n : Nat} (h : ∀ j, buf'.read j = buf.read (j + n)) (integ : Amp) (k : Nat) :
    integAt buf' (integAt buf integ n) k = integAt buf integ (n + k) := by
  induction k with
  | zero => rfl
  | succ k ih => rw [integAt, ih, h, Nat.add_comm k n, ← Nat.add_assoc, integAt]

section
variable {s : State} (hwf : pairWf s.dbuf.buf) (r : BitVec 64) (a b : Nat)

/-- The two reads take the time of their samples from `offset`. -/
theorem readSamples_add_offset :
    (readSamples ((readSamples s a).respond r) b).dbuf.offset = (readSamples s (a + b)).dbuf.offset := by
  rw [readSamples_offset, readSamples_offset, State.respond_dbuf, readSamples_offset, ← readCount_readSamples s a b,
    Nat.add_mul, BitVec.ofNat_add]
  ring

include hwf

/-- The slots move down twice. -/
theorem readSamples_add_buf :
    (readSamples ((readSamples s a).respond r) b).dbuf.buf = (readSamples s (a + b)).dbuf.buf := by
  refine Stereo.ext_lane fun x => ?_
  obtain ⟨-, -, hfirst⟩ := readSamples_lane hwf a x
  obtain ⟨hwf', -, hsecond⟩ := readSamples_lane (s := (readSamples s a).respond r) (readSamples_bufWf hwf a) b x
  obtain ⟨hwf'', -, honce⟩ := readSamples_lane hwf (a + b) x
  refine Memory.ext_read hwf' hwf'' fun j => ?_
  rw [hsecond, State.respond_dbuf, hfirst, honce, ← readCount_readSamples s a b, Nat.add_assoc,
    Nat.add_comm (readCount _ b)]

/-- The integrator's course goes on over the slots that have moved down. -/
theorem readSamples_add_integ :
    (readSamples ((readSamples s a).respond r) b).dbuf.integ = (readSamples s (a + b)).dbuf.integ := by
  refine Stereo.ext_lane fun x => ?_
  obtain ⟨-, hinteg, hfirst⟩ := readSamples_lane hwf a x
  obtain ⟨-, hinteg', -⟩ := readSamples_lane (s := (readSamples s a).respond r) (readSamples_bufWf hwf a) b x
  obtain ⟨-, honce, -⟩ := readSamples_lane hwf (a + b) x
  rw [hinteg', State.respond_dbuf, hinteg, integAt_add hfirst, honce, readCount_readSamples s a b]

/-- A read of a samples and one of b samples leave the delta buffer as one of a + b (40_delta_buffer.md R136, R143). -/
theorem readSamples_add :
    (readSamples ((readSamples s a).respond r) b).dbuf = (readSamples s (a + b)).dbuf := by
  calc (readSamples ((readSamples s a).respond r) b).dbuf
      = { s.dbuf with
          buf := (readSamples ((readSamples s a).respond r) b).dbuf.buf
          integ := (readSamples ((readSamples s a).respond r) b).dbuf.integ
          offset := (readSamples ((readSamples s a).respond r) b).dbuf.offset } := rfl
    _ = { s.dbuf with
          buf := (readSamples s (a + b)).dbuf.buf
          integ := (readSamples s (a + b)).dbuf.integ
          offset := (readSamples s (a + b)).dbuf.offset } := by
        rw [readSamples_add_buf hwf, readSamples_add_integ hwf, readSamples_add_offset]
    _ = (readSamples s (a + b)).dbuf := rfl

end

/-- Settles O25: the counts add up, and one read goes on where the other stopped. -/
theorem splitReadsAgree : Obligations.SplitReadsAgree := by
  intro a b s hsum hwf
  have hadd : (a + b).toNat = a.toNat + b.toNat := by rw [BitVec.toNat_add, Nat.mod_eq_of_lt hsum]
  refine ⟨_, _, rfl, exec_dbRd_next _ s, ?_⟩
  rw [State.respond_dbuf, hadd]
  exact readSamples_add hwf _ a.toNat b.toNat

end Sys2Proof.Proofs
end

section
/-! The PSG's register write, kind of form by kind of form: a period, an attenuation, the noise control (41_psg_write.md
R161 to R185). -/

namespace Sys2Proof.Proofs

open Sys2Proof Sys2Proof.Machine

/-! ### Tone periods -/

/-- A LATCH byte writes bits [3:0] of a period, a DATA byte bits [9:4] (30_encoding.md R105). -/
theorem periodLow_eq_append (old : BitVec 10) (d : BitVec 4) : periodLow old d = old.extractLsb' 4 6 ++ d := by
  refine BitVec.eq_of_toNat_eq ?_
  have hold := old.isLt
  have hd := d.isLt
  rw [periodLow, BitVec.toNat_ofNat, BitVec.toNat_append, BitVec.extractLsb'_toNat, Nat.shiftRight_eq_div_pow,
    ← Nat.shiftLeft_add_eq_or_of_lt hd, Nat.shiftLeft_eq]
  omega

theorem periodHigh_eq_append (old : BitVec 10) (d : BitVec 6) : periodHigh old d = d ++ old.extractLsb' 0 4 := by
  refine BitVec.eq_of_toNat_eq ?_
  have hold := old.isLt
  have hd := d.isLt
  rw [periodHigh, BitVec.toNat_ofNat, BitVec.toNat_append, BitVec.extractLsb'_toNat, Nat.shiftRight_eq_div_pow,
    ← Nat.shiftLeft_add_eq_or_of_lt (Nat.mod_lt _ (by decide)), Nat.shiftLeft_eq]
  omega

/-- Bit `i` of the masks of a period's two parts. -/
theorem getLsbD_periodMasks : ∀ i < 10,
    (0x3F0 : BitVec 10).getLsbD i = decide (¬ i < 4) ∧ ((0x00F : Nat) : BitVec 10).getLsbD i = decide (i < 4) := by
  decide

theorem periodLow_eq_or (old : BitVec 10) (d : BitVec 4) :
    periodLow old d = (old &&& 0x3F0) ||| d.setWidth 10 := by
  refine BitVec.eq_of_getLsbD_eq fun i hi => ?_
  obtain ⟨hmask, -⟩ := getLsbD_periodMasks i hi
  rw [periodLow_eq_append, BitVec.getLsbD_append, BitVec.getLsbD_extractLsb', BitVec.getLsbD_or, BitVec.getLsbD_and,
    hmask, BitVec.getLsbD_setWidth]
  by_cases h : i < 4
  · simp [h, hi]
  · have hback : 4 + (i - 4) = i := by omega
    have hlow : d.getLsbD i = false := BitVec.getLsbD_of_ge d i (Nat.le_of_not_lt h)
    simp [h, hback, hlow, show i - 4 < 6 by omega, -BitVec.getLsbD_eq_getElem]

theorem periodHigh_eq_or (old : BitVec 10) (d : BitVec 6) :
    periodHigh old d = (old &&& 0x00F) ||| (d.setWidth 10 <<< 4) := by
  refine BitVec.eq_of_getLsbD_eq fun i hi => ?_
  obtain ⟨-, hmask⟩ := getLsbD_periodMasks i hi
  rw [periodHigh_eq_append, BitVec.getLsbD_append, BitVec.getLsbD_extractLsb', BitVec.getLsbD_or, BitVec.getLsbD_and,
    hmask, BitVec.getLsbD_shiftLeft, BitVec.getLsbD_setWidth]
  by_cases h : i < 4
  · simp [h, -BitVec.getLsbD_eq_getElem]
  · simp [h, hi, show i - 4 < 10 by omega, -BitVec.getLsbD_eq_getElem]

/-- RATE as a two-bit slice of NOISE_CTRL (10_state.md R24). -/
theorem noiseRate_eq_three_iff (r : Regs) : r.noiseRate = 3 ↔ r.noiseCtrl.setWidth 2 = 3 := by
  have hslice : ∀ c : BitVec 3, c.toNat % 4 = 3 ↔ c.setWidth 2 = 3 := by decide
  exact hslice r.noiseCtrl

theorem toneInc_eq (p : Params) (g : Psg) (v : BitVec 10) : toneInc p g.chipType v = toneHalfPeriod p g v := by
  unfold toneInc toneHalfPeriod
  cases g.chipType <;> rfl

/-- A period write of tone channel 1 or 2 sets that channel's half-period (41_psg_write.md R166). -/
theorem writePeriod_of_ne {ch : Tone} (h : ch ≠ .t2) (s : State) (v : BitVec 10) :
    writePeriod s ch v = s.withPsg { s.psg with
      regs := s.psg.regs.setPeriod v ch
      freqInc := s.psg.freqInc.set ch.chan (toneHalfPeriod s.params s.psg v) } := by
  rw [← toneInc_eq, writePeriod, setTone]
  simp only [State.withPsg_psg, State.withPsg_params, Regs.period_setPeriod_same, if_neg fun hand : _ ∧ _ => h hand.1]
  rfl

/-- A period write of tone channel 3 sets the noise half-period too when RATE = 3 (41_psg_write.md R166). -/
theorem writePeriod_t2 (s : State) (v : BitVec 10) :
    writePeriod s .t2 v = s.withPsg { s.psg with
      regs := { s.psg.regs with tone3Freq := v }
      freqInc := { s.psg.freqInc with
        q2 := toneHalfPeriod s.params s.psg v
        q3 := if s.psg.regs.noiseCtrl.setWidth 2 = 3 then toneHalfPeriod s.params s.psg v
          else s.psg.freqInc.q3 } } := by
  rw [← toneInc_eq, writePeriod, setTone]
  have hrate := noiseRate_eq_three_iff s.psg.regs
  by_cases h : s.psg.regs.noiseRate = 3
  · rw [if_pos ⟨rfl, h⟩, if_pos (hrate.mp h)]
    rfl
  · rw [if_neg fun hand => h hand.2, if_neg fun hslice => h (hrate.mpr hslice)]
    rfl

/-- Settles O30: a LATCH form is a period write with the low nibble replaced, after its register is latched. -/
theorem toneLatchForms : Obligations.ToneLatchForms := by
  intro d s g low inc
  have hlow : ∀ old, periodLow old d = low old := fun old => periodLow_eq_or old d
  refine ⟨?_, ?_, ?_⟩
  · show complete (formLatch0 d s) 0 = _
    rw [formLatch0, writePeriod_of_ne (by decide), hlow]
    rfl
  · show complete (formLatch2 d s) 0 = _
    rw [formLatch2, writePeriod_of_ne (by decide), hlow]
    rfl
  · show complete (formLatch4 d s) 0 = _
    rw [formLatch4, writePeriod_t2, hlow]
    rfl

/-- Settles O31: a DATA form is a period write with the high six bits replaced. -/
theorem toneDataForms : Obligations.ToneDataForms := by
  intro d s g high6 inc
  have hhigh : ∀ old, periodHigh old d = high6 old := fun old => periodHigh_eq_or old d
  refine ⟨?_, ?_, ?_⟩
  · show complete (formData0 d s) 0 = _
    rw [formData0, writePeriod_of_ne (by decide), hhigh]
    rfl
  · show complete (formData2 d s) 0 = _
    rw [formData2, writePeriod_of_ne (by decide), hhigh]
    rfl
  · show complete (formData4 d s) 0 = _
    rw [formData4, writePeriod_t2, hhigh]
    rfl

/-! ### Attenuations -/

/-- Settles O32: `amp` in each lane. -/
theorem ampFollowsTable : Obligations.AmpFollowsTable := by
  intro p g ch x
  unfold amp
  refine ⟨fun h => ?_, fun h => ?_⟩
  · rw [if_pos h, zero_lane]
  · rw [if_neg (ne_true_of_eq_false h)]
    cases x <;> exact s32_natCast _

/-- An attenuation form writes the register and the latch and sets the channel to its amplitude (41_psg_write.md R161,
R163). -/
theorem exec_of_attWrite {i : Instr} {s : State} {ch : Chan} {v : BitVec 4} {latch : BitVec 3}
    (h : attWrite s.psg i = some (ch, v, latch)) :
    exec i s = completeWithin (setAmp (s.withPsg (attWritten s.psg ch v latch)) ch
      (amp s.params (attWritten s.psg ch v latch) ch)) 0 := by
  cases i with
  | latch1 d | latch3 d | latch5 d | latch7 d =>
    cases h
    rfl
  | data1 d | data3 d | data5 d | data7 d =>
    cases h
    rw [← bitsAt_zero d 4]
    rfl
  | _ => cases h

/-- Neither an attenuation nor the latch decides "high" (41_psg_write.md R164). -/
theorem high_attWritten (s : State) (ch : Chan) (v : BitVec 4) (latch : BitVec 3) (c : Chan) :
    high (s.withPsg (attWritten s.psg ch v latch)).psg c = high s.psg c := by
  cases c <;> rfl

/-- The PSG plays no part in the bound on slots (20_memory.md R76). -/
theorem completeWithin_withPsg {s : State} (h : s.Within) (g : Psg) (r : BitVec 64) :
    completeWithin (s.withPsg g) r = .next ((s.withPsg g).respond r) :=
  completeWithin_within (s := s.withPsg g) h r

/-- Settles O33: `setAmp` on a low channel, after the register write. -/
theorem attenuationWriteOnLowChannel : Obligations.AttenuationWriteOnLowChannel := by
  intro i s ch v latch hwrite hwithin hlow
  rw [exec_of_attWrite hwrite, setAmp_low ((high_attWritten s ch v latch ch).trans hlow)]
  exact completeWithin_withPsg hwithin _ 0

/-- The delta command is `emit` by the path of `hqMode` (41_psg_write.md R165). -/
theorem exec_deltaCmd {g : Psg} {s : State} (h : g.hqMode = s.psg.hqMode) (t : Time) (x : Stereo Amp) :
    exec (deltaCmd g t x) s = completeWithin (emit s t.toInt x) 0 := by
  unfold deltaCmd emit
  rw [h]
  cases s.psg.hqMode <;> rfl

/-- In an unbounded memory a delta command completes (20_memory.md R72). -/
theorem exec_deltaCmd_unbounded {g : Psg} {s : State} (h : g.hqMode = s.psg.hqMode) (hunbounded : s.Unbounded)
    (t : Time) (x : Stereo Amp) : exec (deltaCmd g t x) s = .next ((emit s t.toInt x).respond 0) := by
  rw [exec_deltaCmd h]
  exact completeWithin_unbounded (s := emit s t.toInt x) hunbounded 0

/-- Settles O34: `setAmp` on a high channel emits by the delta command, after the register write. -/
theorem attenuationWriteOnHighBaseline : Obligations.AttenuationWriteOnHighBaseline := by
  intro i s ch v latch hwrite hunbounded hbaseline hhigh new old
  refine ⟨_, exec_deltaCmd_unbounded rfl hunbounded _ _, ?_⟩
  rw [exec_of_attWrite hwrite,
    setAmp_high_baseline ((high_attWritten s ch v latch ch).trans hhigh) hbaseline, subPair_eq]
  exact completeWithin_unbounded (s := (emit (s.withPsg _) _ _).withPsg _) hunbounded 0

/-- Settles O35: `setAmp` on a high channel adds to `chanDelta`, after the register write. -/
theorem attenuationWriteOnHighAccurate : Obligations.AttenuationWriteOnHighAccurate := by
  intro i s ch v latch hwrite hwithin haccurate hhigh new old pending
  rw [exec_of_attWrite hwrite,
    setAmp_high_accurate ((high_attWritten s ch v latch ch).trans hhigh) haccurate, addPair_eq,
    subPair_eq]
  exact completeWithin_withPsg hwithin _ 0

/-! ### The noise control -/

/-- A noise control form writes the register and the latch and then runs `setNoise` (41_psg_write.md R167). -/
theorem exec_of_noiseWrite {i : Instr} {s : State} {v latch : BitVec 3} (h : noiseWrite s.psg i = some (v, latch)) :
    exec i s = completeWithin (setNoise (s.withPsg (withNoiseCtrl { s.psg with latch := latch } v))) 0 := by
  cases i with
  | latch6 d | data6 d =>
    cases h
    rw [← bitsAt_zero d 3]
    rfl
  | _ => cases h

/-- The PSG with the noise control form's register, latch and half-period, before the delta and the seed
(41_psg_write.md R167). -/
def noiseTimed (p : Params) (g : Psg) (v latch : BitVec 3) : Psg :=
  { noiseWritten p g v latch with noiseShiftValue := g.noiseShiftValue }

theorem noiseDiv_eq {n : Nat} (h : n < 3) : noiseDiv n = 16 * 2 ^ n := by
  obtain rfl | rfl | rfl : n = 0 ∨ n = 1 ∨ n = 2 := by omega
  all_goals rfl

theorem lfsrSeed_eq (c : ChipType) : lfsrSeed c = seedOf c := by cases c <;> rfl

/-- The LFSR at its seed (41_psg_write.md R167). -/
def reseed (s : State) : State := s.withPsg { s.psg with noiseShiftValue := seedOf s.psg.chipType }

/-- `setNoise` after a register write: a falling delta is owed exactly if the output bit was 1, and the LFSR is at its
seed (41_psg_write.md R167). -/
theorem setNoise_withNoiseCtrl (s : State) (v latch : BitVec 3) :
    setNoise (s.withPsg (withNoiseCtrl { s.psg with latch := latch } v)) =
      reseed
        (if s.psg.noiseShiftValue.getLsbD 0 then
          owe (s.withPsg (noiseTimed s.params s.psg v latch)) .c3 ⟨-s.psg.chanOut.q3.l, -s.psg.chanOut.q3.r⟩
        else s.withPsg (noiseTimed s.params s.psg v latch)) := by
  have hinc : noiseIncOf (s.withPsg (withNoiseCtrl { s.psg with latch := latch } v)) =
      (noiseTimed s.params s.psg v latch).freqInc.q3 := by
    show (if v.toNat % 4 = 3 then _ else _) = if v.toNat % 4 = 3 then _ else _
    split
    · rfl
    · rw [← noiseDiv_eq (n := v.toNat % 4) (by omega)]
      rfl
  have hfall : subPair ⟨0, 0⟩ s.psg.chanOut.q3 = ⟨-s.psg.chanOut.q3.l, -s.psg.chanOut.q3.r⟩ := by
    rw [subPair_eq, zero_sub, zero_sub]
  rw [setNoise_eq, hinc]
  simp only [lfsrSeed_eq, ← hfall]
  rfl

/-- Settles O36: `setNoise` by the output bit and the variant, after the register write. -/
theorem noiseControlForms : Obligations.NoiseControlForms := by
  intro i s v latch hwrite g out pending
  rw [exec_of_noiseWrite hwrite, setNoise_withNoiseCtrl]
  refine ⟨fun hbit hwithin => ?_, fun hbit haccurate hwithin => ?_, fun hbit hbaseline hunbounded => ?_⟩
  · rw [hbit]
    exact completeWithin_withPsg hwithin g 0
  · rw [hbit, if_pos rfl, owe_accurate (s := s.withPsg (noiseTimed s.params s.psg v latch)) haccurate, addPair_eq,
      ← sub_eq_add_neg, ← sub_eq_add_neg]
    exact completeWithin_withPsg hwithin _ 0
  · refine ⟨_, exec_deltaCmd_unbounded rfl hunbounded _ _, ?_⟩
    rw [hbit, if_pos rfl, owe_baseline (s := s.withPsg (noiseTimed s.params s.psg v latch)) hbaseline]
    exact completeWithin_unbounded (s := (emit (s.withPsg _) _ _).withPsg _) hunbounded 0

end Sys2Proof.Proofs
end

section
/-! `PSG.WR` is `sync` and then the form of its byte (41_psg_write.md R160, 42_psg_run.md R191). -/

namespace Sys2Proof.Proofs

open Sys2Proof Sys2Proof.Machine

/-! ### The form of a byte -/

/-- Every byte selects a byte form (30_encoding.md R106, R110). -/
theorem isByteForm_decodeByte (latch : BitVec 3) (b : BitVec 8) : isByteForm (decodeByte latch b) = true := by
  unfold decodeByte
  split
  · obtain h | h | h | h | h | h | h | h := register_cases (bitsAt b 4 3) <;> rw [h] <;> rfl
  · obtain rfl | rfl | rfl | rfl | rfl | rfl | rfl | rfl := register_cases latch <;> rfl

/-- A byte form completes as far as the bound on slots lets it; a period form, which asks for no slot, was within it
before (20_memory.md R76). -/
theorem exec_of_isByteForm {i : Instr} (hi : isByteForm i = true) {s : State} (hwithin : s.Within) :
    exec i s = completeWithin (applyForm i s) 0 := by
  cases i with
  | latch1 | latch3 | latch5 | latch6 | latch7 | data1 | data3 | data5 | data6 | data7 => rfl
  | latch0 | latch2 | latch4 | data0 | data2 | data4 => exact (completeWithin_withPsg hwithin _ 0).symm
  | _ => exact absurd hi Bool.false_ne_true

theorem within_of_unbounded {s : State} (h : s.Unbounded) : s.Within := fun m hm => by
  rw [h] at hm
  cases hm

/-- In an unbounded memory a byte form completes (20_memory.md R72, entry 21). -/
theorem exec_of_isByteForm_unbounded {i : Instr} (hi : isByteForm i = true) {s : State} (hunbounded : s.Unbounded) :
    exec i s = .next ((applyForm i s).respond 0) := by
  have hform : (applyForm i s).Unbounded := (congrArg Params.dbMaxSlots (applyForm_emits i s).params).trans hunbounded
  rw [exec_of_isByteForm hi (within_of_unbounded hunbounded), completeWithin_unbounded hform]

/-- Settles O37: `sync` does nothing at a time that is not later. -/
theorem lateWriteAppliesNow : Obligations.LateWriteAppliesNow := by
  intro t b s htime hwithin
  rw [exec_psgWr, execPsgWr_eq, sync_of_le htime, exec_of_isByteForm (isByteForm_decodeByte _ b) hwithin]
  rfl

/-! ### The latch after a form -/

theorem writePeriod_latch (s : State) (ch : Tone) (v : BitVec 10) :
    (writePeriod s ch v).psg.latch = s.psg.latch := rfl

theorem writeAtt_latch (s : State) (ch : Chan) (v : BitVec 4) : (writeAtt s ch v).psg.latch = s.psg.latch :=
  (writeAtt_onlyAmp s ch v).latch

theorem writeNoise_latch (s : State) (v : BitVec 3) : (writeNoise s v).psg.latch = s.psg.latch :=
  (writeNoise_onlyNoise s v).latch

/-- A LATCH form latches its register (10_state.md R25). -/
theorem applyForm_decodeLatchByte_latch (r : BitVec 3) (d : BitVec 4) (s : State) :
    (applyForm (decodeLatchByte r d) s).psg.latch = r := by
  obtain rfl | rfl | rfl | rfl | rfl | rfl | rfl | rfl := register_cases r
  exacts [writePeriod_latch _ _ _, writeAtt_latch _ _ _, writePeriod_latch _ _ _, writeAtt_latch _ _ _,
    writePeriod_latch _ _ _, writeAtt_latch _ _ _, writeNoise_latch _ _, writeAtt_latch _ _ _]

/-- A DATA form keeps the latch (10_state.md R25). -/
theorem applyForm_decodeDataByte_latch (k : BitVec 3) (d : BitVec 6) (s : State) :
    (applyForm (decodeDataByte k d) s).psg.latch = s.psg.latch := by
  obtain rfl | rfl | rfl | rfl | rfl | rfl | rfl | rfl := register_cases k
  exacts [writePeriod_latch _ _ _, writeAtt_latch _ _ _, writePeriod_latch _ _ _, writeAtt_latch _ _ _,
    writePeriod_latch _ _ _, writeAtt_latch _ _ _, writeNoise_latch _ _, writeAtt_latch _ _ _]

/-! ### The cycle boundary -/

/-- The first cycle boundary at or after a later time that fits, counted from `clocks` of either sign (42_psg_run.md
R191). -/
theorem syncedClocks_first_boundary {p : Params} {c : Time} {t : Int} (hratio : 1 ≤ ratioOf p) (hlt : c.toInt < t)
    (hfit : t + ratioOf p ≤ 2 ^ 63) :
    t ≤ (syncedClocks p c t).toInt ∧ (syncedClocks p c t).toInt < t + ratioOf p ∧
    (ratioOf p : Int) ∣ (syncedClocks p c t).toInt - c.toInt := by
  have hmin := BitVec.le_toInt c
  obtain ⟨hlo, hhi⟩ := ceilDiv_mul_bounds (t - c.toInt) (b := (ratioOf p : Int)) (by omega)
  rw [syncedClocks, s64_toInt_of_range (by omega) (by omega)]
  exact ⟨by omega, by omega, ceilDiv (t - c.toInt) (ratioOf p), by ring⟩

/-! ### The statement -/

/-- Settles O38: v is the state after `sync`, whose latch is the one before the command. -/
theorem psgWrCompletes : Obligations.PsgWrCompletes := by
  intro t s hunbounded R
  obtain ⟨hparams, hrs, hhost, hslots, hruns⟩ := sync_frame s t.toInt
  obtain ⟨-, hlatch, hmutes, hhq, hchip, -⟩ := hruns.fields
  have hunbounded' : (sync s t.toInt).Unbounded := (congrArg Params.dbMaxSlots hparams).trans hunbounded
  refine ⟨sync s t.toInt, hparams, hrs, hhost, hslots.only, hruns, sync_of_le, fun hlt hbaseline => ?_,
    fun hlt hR hfit => ?_, fun b => ?_⟩
  · rw [sync_clocks_of_lt hlt, syncedClocks_baseline hbaseline, s64_toInt]
  · rw [sync_clocks_of_lt hlt]
    exact syncedClocks_first_boundary hR hlt hfit
  · have hform := exec_of_isByteForm_unbounded (isByteForm_decodeByte s.psg.latch b) hunbounded'
    have hwrite := applyForm_write (decodeByte s.psg.latch b) (sync s t.toInt)
    obtain ⟨hmutes', hhq', hchip'⟩ := hwrite.flags
    have hemits := hwrite.emits
    refine ⟨_, ?_, hform, hemits.params.trans hparams, hemits.rs.trans hrs, ?_, hslots.only.trans hemits.slots.only,
      hmutes'.trans hmutes, hhq'.trans hhq, hchip'.trans hchip, hwrite.clocks, fun hmsb => ?_, fun hmsb => ?_⟩
    · rw [exec_psgWr, execPsgWr_eq, writeByte, hlatch]
      exact completeWithin_unbounded ((congrArg Params.dbMaxSlots hemits.params).trans hunbounded') 0
    · rw [State.respond, State.withHost_host, hemits.host, hhost]
    · rw [State.respond_psg, decodeByte, if_pos hmsb, applyForm_decodeLatchByte_latch]
      exact bitsAt_toNat b 4 3
    · rw [State.respond_psg, decodeByte, if_neg (by omega), applyForm_decodeDataByte_latch, hlatch]

end Sys2Proof.Proofs
end

section
/-! The deltas of a scheduling pass: every procedure of the pass adds a list of deltas to the delta buffer, one after
the other, and the lists are those of `passDeltas` (42_psg_run.md R192 to R195). -/

namespace Sys2Proof.Proofs

open Sys2Proof Sys2Proof.Machine

/-! ### Lists of deltas -/

/-- One delta into the delta buffer, by the path that `hq` selects (41_psg_write.md R165). -/
def addDeltaBy (hq : Bool) (kernel : List (List Int)) (d : Dbuf) (e : Time × Stereo Amp) : Dbuf :=
  if hq then addDelta kernel d e.1.toInt e.2 else addDeltaFast d e.1.toInt e.2

/-- A list of deltas, one after the other, by the path of `g`. -/
def addDeltas (p : Params) (g : Psg) (d : Dbuf) (l : List (Time × Stereo Amp)) : Dbuf :=
  l.foldl (addDeltaBy g.hqMode p.kernel) d

theorem addDeltas_cons (p : Params) (g : Psg) (d : Dbuf) (e : Time × Stereo Amp) (l : List (Time × Stereo Amp)) :
    addDeltas p g d (e :: l) = addDeltas p g (addDeltaBy g.hqMode p.kernel d e) l := rfl

theorem addDeltas_append (p : Params) (g : Psg) (d : Dbuf) (l l' : List (Time × Stereo Amp)) :
    addDeltas p g d (l ++ l') = addDeltas p g (addDeltas p g d l) l' := List.foldl_append

/-- Delta commands executed one after the other in an unbounded memory add their deltas. -/
theorem foldl_deltaCmd (g : Psg) (l : List (Time × Stereo Amp)) {s : State} (hunbounded : s.Unbounded)
    (hhq : g.hqMode = s.psg.hqMode) :
    ∃ v, l.foldl (fun o e => andThen o (deltaCmd g e.1 e.2)) (.next s) = .next v ∧
      v.dbuf = addDeltas s.params g s.dbuf l := by
  induction l generalizing s with
  | nil => exact ⟨s, rfl, rfl⟩
  | cons e l ih =>
    obtain ⟨v, hrun, hdbuf⟩ := ih (s := (emit s e.1.toInt e.2).respond 0) hunbounded hhq
    refine ⟨v, ?_, ?_⟩
    · rw [List.foldl_cons, andThen, exec_deltaCmd_unbounded hhq hunbounded]
      exact hrun
    · rw [hdbuf, addDeltas_cons, hhq]
      rfl

/-- From `s` to `t` the delta buffer takes the deltas of `l`, and the path and KERNEL stay. -/
structure AddsDeltas (s : State) (l : List (Time × Stereo Amp)) (t : State) : Prop where
  runs : Runs s t
  dbuf : t.dbuf = addDeltas s.params s.psg s.dbuf l

namespace AddsDeltas

theorem hqMode_eq {s t : State} (h : Runs s t) : t.psg.hqMode = s.psg.hqMode := by
  obtain ⟨-, -, -, hhq, -⟩ := h.psg.fields
  exact hhq

theorem trans {s s' s'' : State} {l l' : List (Time × Stereo Amp)} (h : AddsDeltas s l s')
    (h' : AddsDeltas s' l' s'') : AddsDeltas s (l ++ l') s'' where
  runs := h.runs.trans h'.runs
  dbuf := by
    rw [h'.dbuf, addDeltas_append, ← h.dbuf, addDeltas, addDeltas, hqMode_eq h.runs, h.runs.params]

/-- A change of the PSG alone that a run may make adds nothing. -/
theorem withPsg {s : State} {g : Psg} (h : s.psg.OnlyRuns g) : AddsDeltas s [] (s.withPsg g) := ⟨withPsg_runs h, rfl⟩

theorem emit (s : State) (t : Time) (x : Stereo Amp) : AddsDeltas s [(t, x)] (emit s t.toInt x) :=
  ⟨emit_runs s t.toInt x, rfl⟩

end AddsDeltas

/-- `flush(ch)` adds the pending delta (42_psg_run.md R193). -/
theorem flush_addsDeltas (s : State) (ch : Chan) : AddsDeltas s (flushDeltas s.psg ch) (flush s ch) where
  runs := flush_runs s ch
  dbuf := by
    unfold flush flushDeltas
    split <;> rfl

/-! ### A tone channel -/

theorem nextFlip_eq (s : State) (ch : Chan) (ts : Time) : nextFlip s ch ts = ts + s.psg.freqInc.get ch := by
  rw [nextFlip, s64_add, s64_toInt, s64_toInt]


/-- A tone channel after one flip: polarity turned, next flip time one half-period later (42_psg_run.md R194). -/
def toneNext (g : Psg) (ch : Tone) : Psg :=
  { g with
    polarity := g.polarity.set ch.chan (g.polarity.get ch.chan).flip
    freqCounter := g.freqCounter.set ch.chan (g.freqCounter.get ch.chan + g.freqInc.get ch.chan) }

/-- The delta of a flip: the new polarity's sign times the amplitude (42_psg_run.md R194). -/
theorem scalePair_sign_flip (p : Polarity) (x : Stereo Amp) :
    scalePair p.flip.sign x = if p == .minus then x else ⟨-x.l, -x.r⟩ := by
  cases p with
  | minus => exact scalePair_one x
  | plus => exact scalePair_neg_one x

/-- Flip j + 1 of a channel is flip j of the channel after one flip. -/
theorem flipTime_succ (c inc : Time) (j : Nat) :
    c + BitVec.ofNat 64 (j + 1) * inc = c + inc + BitVec.ofNat 64 j * inc := by
  have hsucc : BitVec.ofNat 64 (j + 1) = BitVec.ofNat 64 j + 1 := BitVec.ofNat_add j 1
  rw [hsucc]
  ring

theorem flip_beq_minus_beq_even (p : Polarity) (j : Nat) :
    ((p.flip == .minus) == (j % 2 == 0)) = ((p == .minus) == ((j + 1) % 2 == 0)) := by
  obtain hj | hj := Nat.mod_two_eq_zero_or_one j
  · rw [hj, Nat.succ_mod_two_eq_one_iff.mpr hj]
    cases p <;> rfl
  · rw [hj, Nat.succ_mod_two_eq_zero_iff.mpr hj]
    cases p <;> rfl

/-- The first flip's delta, and then those of the channel after one flip. -/
theorem toneDeltas_succ (g : Psg) (ch : Tone) (k : Nat) :
    toneDeltas g ch (k + 1) =
      (g.freqCounter.get ch.chan, scalePair (g.polarity.get ch.chan).flip.sign (g.chanOut.get ch.chan)) ::
        toneDeltas (toneNext g ch) ch k := by
  unfold toneDeltas
  rw [List.range_succ_eq_map, List.map_cons, List.map_map, scalePair_sign_flip]
  refine congrArg₂ List.cons ?_ (List.map_congr_left fun j _ => Prod.ext ?_ ?_)
  · simp
  · show _ = (g.freqCounter.set ch.chan _).get ch.chan + _
    rw [Quad.get_set_same]
    exact flipTime_succ _ _ j
  · show (if _ then _ else _) = if ((g.polarity.set ch.chan _).get ch.chan == .minus) == _ then _ else _
    rw [Quad.get_set_same, flip_beq_minus_beq_even]
    rfl

theorem toneFlip_addsDeltas (ch : Tone) (ts : Time) (s : State) :
    AddsDeltas s [(ts, scalePair (s.psg.polarity.get ch.chan).flip.sign (s.psg.chanOut.get ch.chan))]
      (toneFlip ch ts s) := by
  refine (AddsDeltas.withPsg (s := s) ?_).trans (AddsDeltas.emit _ ts _)
  rfl

theorem toneLoop_addsDeltas (ch : Tone) (n : Nat) (ts : Time) (s : State) :
    AddsDeltas s (toneDeltas { s.psg with freqCounter := s.psg.freqCounter.set ch.chan ts } ch n)
      (toneLoop ch n ts s) := by
  induction n generalizing ts s with
  | zero => exact AddsDeltas.withPsg rfl
  | succ n ih =>
    have hnext : toneNext { s.psg with freqCounter := s.psg.freqCounter.set ch.chan ts } ch =
        { (toneFlip ch ts s).psg with
          freqCounter := (toneFlip ch ts s).psg.freqCounter.set ch.chan (nextFlip s ch.chan ts) } := by
      unfold toneNext
      rw [Quad.set_set, Quad.get_set_same, nextFlip_eq]
      rfl
    rw [toneDeltas_succ, Quad.get_set_same, hnext]
    exact (toneFlip_addsDeltas ch ts s).trans (ih _ _)

/-- What a tone channel adds in a pass to `target`: its pending delta, then the deltas of its flips. -/
def tonePassDeltas (g : Psg) (ch : Tone) (target : Int) : List (Time × Stereo Amp) :=
  flushDeltas g ch.chan ++
    toneDeltas g ch (flipCount (g.freqCounter.get ch.chan).toInt (g.freqInc.get ch.chan).toInt target)

/-- The PSG after a tone channel's part of a pass: nothing is pending on it, and its polarity and flip time are those of
its last flip (42_psg_run.md R193, R194). -/
def tonePass (g : Psg) (ch : Tone) (target : Int) : Psg :=
  let k := flipCount (g.freqCounter.get ch.chan).toInt (g.freqInc.get ch.chan).toInt target
  { g with
    polarity := g.polarity.set ch.chan (Polarity.flip^[k] (g.polarity.get ch.chan))
    freqCounter := g.freqCounter.set ch.chan
      (g.freqCounter.get ch.chan + BitVec.ofNat 64 k * g.freqInc.get ch.chan)
    chanDelta := g.chanDelta.set ch.chan ⟨0, 0⟩ }

/-- After `flush(ch)` nothing is pending on the channel (42_psg_run.md R193). -/
theorem flush_psg (s : State) (ch : Chan) :
    (flush s ch).psg = { s.psg with chanDelta := s.psg.chanDelta.set ch ⟨0, 0⟩ } := by
  unfold flush
  split
  · next h => rw [← h, Quad.set_get_self]
  · rfl

/-- A tone channel's part of a pass (42_psg_run.md R192). -/
def toneTurn (s : State) (ch : Tone) (target : Int) : State := runTone (flush s ch.chan) ch target

theorem toneTurn_psg (s : State) (ch : Tone) (target : Int) :
    (toneTurn s ch target).psg = tonePass s.psg ch target := by
  rw [toneTurn, runTone, toneLoop_spec, flush_psg]
  rfl

theorem runTone_addsDeltas (s : State) (ch : Tone) (target : Int) :
    AddsDeltas s (toneDeltas s.psg ch
      (flipCount (s.psg.freqCounter.get ch.chan).toInt (s.psg.freqInc.get ch.chan).toInt target))
      (runTone s ch target) := by
  have hloop := toneLoop_addsDeltas ch
    (flipCount (s.psg.freqCounter.get ch.chan).toInt (s.psg.freqInc.get ch.chan).toInt target)
    (s.psg.freqCounter.get ch.chan) s
  rwa [Quad.set_get_self] at hloop

theorem toneTurn_addsDeltas (s : State) (ch : Tone) (target : Int) :
    AddsDeltas s (tonePassDeltas s.psg ch target) (toneTurn s ch target) := by
  have hrun := runTone_addsDeltas (flush s ch.chan) ch target
  rw [flush_psg] at hrun
  exact (flush_addsDeltas s ch.chan).trans hrun

/-! ### The noise channel -/

/-- The noise channel after one flip: polarity turned, next flip time one half-period later, and the LFSR shifted if the
polarity turned to +1 (42_psg_run.md R195). -/
def noiseNext (p : Params) (g : Psg) : Psg :=
  { g with
    polarity := g.polarity.set .c3 g.polarity.q3.flip
    freqCounter := g.freqCounter.set .c3 (g.freqCounter.q3 + g.freqInc.q3)
    noiseShiftValue := match g.polarity.q3 with
      | .minus => (shiftNoise p g).noiseShiftValue
      | .plus => g.noiseShiftValue }

/-- The delta of a shift: the change of the output bit times the amplitude (42_psg_run.md R195). -/
def shiftDelta (p : Params) (g : Psg) : Stereo Amp :=
  scalePair (bitInt (noiseBit (shiftNoise p g)) - bitInt (noiseBit g)) g.chanOut.q3

theorem scalePair_bit_change (b b' : Bool) (x : Stereo Amp) :
    scalePair (bitInt b' - bitInt b) x = match b, b' with
      | false, true => x
      | true, false => ⟨-x.l, -x.r⟩
      | false, false => ⟨0, 0⟩
      | true, true => ⟨0, 0⟩ := by
  cases b <;> cases b'
  · exact scalePair_zero x
  · exact scalePair_one x
  · exact scalePair_neg_one x
  · exact scalePair_zero x

/-- MODE is bit 2 of NOISE_CTRL (10_state.md R24). -/
theorem whiteNoise_eq (r : Regs) : r.whiteNoise = r.noiseCtrl.getLsbD 2 := by
  have hbit : ∀ c : BitVec 3, (c.toNat / 4 % 2 == 1) = c.getLsbD 2 := by decide
  exact hbit r.noiseCtrl

/-- Shift h + 1 of the LFSR is shift h of the LFSR shifted once. -/
theorem lfsrAfter_succ (p : Params) (g : Psg) (h : Nat) :
    lfsrAfter p g (h + 1) = lfsrAfter p (shiftNoise p g) h := by
  unfold lfsrAfter shiftNoise
  rw [Function.iterate_succ_apply, whiteNoise_eq]

/-- A flip to -1 adds nothing. -/
theorem noiseDeltas_succ_of_plus (p : Params) {g : Psg} (h : g.polarity.q3 = .plus) (k : Nat) :
    noiseDeltas p g (k + 1) = noiseDeltas p (noiseNext p g) k := by
  have hnext : (noiseNext p g).polarity.q3 = .minus := by rw [noiseNext, h]; rfl
  have hlfsr : lfsrAfter p (noiseNext p g) = lfsrAfter p g := by rw [noiseNext, h]; rfl
  unfold noiseDeltas
  rw [hnext, h, hlfsr]
  refine List.map_congr_left fun j _ => Prod.ext ?_ rfl
  exact flipTime_succ _ _ (2 * j)

/-- A flip to +1 adds the delta of its shift. -/
theorem noiseDeltas_succ_of_minus (p : Params) {g : Psg} (h : g.polarity.q3 = .minus) (k : Nat) :
    noiseDeltas p g (k + 1) = (g.freqCounter.q3, shiftDelta p g) :: noiseDeltas p (noiseNext p g) k := by
  have hnext : (noiseNext p g).polarity.q3 = .plus := by rw [noiseNext, h]; rfl
  have hlfsr : ∀ j, lfsrAfter p (noiseNext p g) j = lfsrAfter p g (j + 1) := by
    intro j
    rw [lfsrAfter_succ, noiseNext, h]
    rfl
  have hcount : (k + 1 + 1 - 0) / 2 = (k + 1 - 1) / 2 + 1 := by omega
  have hfirst : lfsrAfter p g 1 = (shiftNoise p g).noiseShiftValue := lfsrAfter_succ p g 0
  unfold noiseDeltas
  rw [hnext, h]
  simp only [hlfsr]
  show List.map _ (List.range ((k + 1 + 1 - 0) / 2)) = _ :: List.map _ (List.range ((k + 1 - 1) / 2))
  rw [hcount, List.range_succ_eq_map, List.map_cons, List.map_map]
  refine congrArg₂ List.cons (Prod.ext ?_ ?_) (List.map_congr_left fun j _ => Prod.ext ?_ ?_)
  · simp
  · rw [shiftDelta, scalePair_bit_change, noiseBit, noiseBit, ← hfirst]
    rfl
  · exact flipTime_succ g.freqCounter.q3 g.freqInc.q3 (2 * j + 1)
  · rfl

/-- What one flip of the noise channel at time `ts` adds (42_psg_run.md R195). -/
def noiseFlipDeltas (p : Params) (g : Psg) (ts : Time) : List (Time × Stereo Amp) :=
  match g.polarity.q3 with
  | .minus => [(ts, shiftDelta p g)]
  | .plus => []

/-- The first flip's deltas, and then those of the channel after one flip. -/
theorem noiseDeltas_succ (p : Params) (g : Psg) (k : Nat) :
    noiseDeltas p g (k + 1) = noiseFlipDeltas p g g.freqCounter.q3 ++ noiseDeltas p (noiseNext p g) k := by
  unfold noiseFlipDeltas
  cases h : g.polarity.q3 with
  | plus => exact noiseDeltas_succ_of_plus p h k
  | minus => exact noiseDeltas_succ_of_minus p h k

theorem noiseDeltas_zero (p : Params) (g : Psg) : noiseDeltas p g 0 = [] := by
  unfold noiseDeltas
  cases g.polarity.q3 <;> rfl

theorem noiseFlip_addsDeltas (ts : Time) (s : State) :
    AddsDeltas s (noiseFlipDeltas s.params s.psg ts) (noiseFlip ts s) := by
  unfold noiseFlip noiseFlipDeltas
  cases s.psg.polarity.q3 with
  | plus =>
    refine AddsDeltas.withPsg ?_
    rfl
  | minus =>
    refine (AddsDeltas.withPsg (s := s) ?_).trans (AddsDeltas.emit _ ts _)
    rfl

theorem noiseFlip_psg (ts : Time) (s : State) :
    (noiseFlip ts s).psg = { noiseNext s.params s.psg with freqCounter := s.psg.freqCounter } := by
  unfold noiseFlip noiseNext
  cases s.psg.polarity.q3 <;> rfl

theorem noiseLoop_addsDeltas (n : Nat) (ts : Time) (s : State) :
    AddsDeltas s (noiseDeltas s.params { s.psg with freqCounter := s.psg.freqCounter.set .c3 ts } n)
      (noiseLoop n ts s) := by
  induction n generalizing ts s with
  | zero =>
    rw [noiseDeltas_zero]
    refine AddsDeltas.withPsg ?_
    rfl
  | succ n ih =>
    have hnext : noiseNext s.params { s.psg with freqCounter := s.psg.freqCounter.set .c3 ts } =
        { (noiseFlip ts s).psg with
          freqCounter := (noiseFlip ts s).psg.freqCounter.set .c3 (nextFlip s .c3 ts) } := by
      rw [noiseFlip_psg, nextFlip_eq]
      rfl
    have htail := ih (nextFlip s .c3 ts) (noiseFlip ts s)
    rw [(noiseFlip_runs ts s).params] at htail
    rw [noiseDeltas_succ, hnext]
    exact (noiseFlip_addsDeltas ts s).trans htail

theorem runNoise_addsDeltas (s : State) (target : Int) :
    AddsDeltas s (noiseDeltas s.params s.psg (flipCount s.psg.freqCounter.q3.toInt s.psg.freqInc.q3.toInt target))
      (runNoise s target) :=
  noiseLoop_addsDeltas (flipCount s.psg.freqCounter.q3.toInt s.psg.freqInc.q3.toInt target) s.psg.freqCounter.q3 s

theorem runNoise_flush_addsDeltas (s : State) (target : Int) :
    AddsDeltas s
      (flushDeltas s.psg .c3 ++
        noiseDeltas s.params s.psg (flipCount s.psg.freqCounter.q3.toInt s.psg.freqInc.q3.toInt target))
      (runNoise (flush s .c3) target) := by
  have hrun := runNoise_addsDeltas (flush s .c3) target
  rw [flush_psg, (flush_runs s .c3).params] at hrun
  exact (flush_addsDeltas s .c3).trans hrun

/-! ### The pass -/

/-- The tone channels' parts of a pass, in their order (42_psg_run.md R192). -/
def tonesRun (s : State) (target : Int) : State :=
  toneTurn (toneTurn (toneTurn s .t0 target) .t1 target) .t2 target

theorem psgUpdate_eq (s : State) (target : Int) :
    psgUpdate s target = runNoise (flush (tonesRun s target) .c3) target := rfl

theorem tonesRun_psg (s : State) (target : Int) :
    (tonesRun s target).psg = tonePass (tonePass (tonePass s.psg .t0 target) .t1 target) .t2 target := by
  rw [tonesRun, toneTurn_psg, toneTurn_psg, toneTurn_psg]

/-- No tone channel's part changes what a later one's deltas are made of. -/
theorem tonesRun_addsDeltas (s : State) (target : Int) :
    AddsDeltas s
      (tonePassDeltas s.psg .t0 target ++ tonePassDeltas s.psg .t1 target ++ tonePassDeltas s.psg .t2 target)
      (tonesRun s target) := by
  have h0 := toneTurn_addsDeltas s .t0 target
  have h1 := toneTurn_addsDeltas (toneTurn s .t0 target) .t1 target
  have h2 := toneTurn_addsDeltas (toneTurn (toneTurn s .t0 target) .t1 target) .t2 target
  rw [toneTurn_psg] at h1
  rw [toneTurn_psg, toneTurn_psg] at h2
  exact (h0.trans h1).trans h2

/-- A scheduling pass adds the deltas of `passDeltas` (42_psg_run.md R192). -/
theorem psgUpdate_addsDeltas (s : State) (target : Int) :
    AddsDeltas s (passDeltas s.params s.psg target) (psgUpdate s target) := by
  have htones := tonesRun_addsDeltas s target
  have hnoise := runNoise_flush_addsDeltas (tonesRun s target) target
  rw [tonesRun_psg, htones.runs.params] at hnoise
  exact htones.trans hnoise

/-- After a pass nothing is pending (42_psg_run.md R192, R193). -/
theorem psgUpdate_chanDelta (s : State) (target : Int) :
    (psgUpdate s target).psg.chanDelta = Quad.all ⟨0, 0⟩ := by
  rw [psgUpdate_eq, runNoise, noiseLoop_spec, flush_psg, tonesRun_psg]
  rfl

/-- Settles O41: the byte 0x80 writes a tone period, so the delta buffer is the one the pass leaves. -/
theorem syncEmitsDeltasAtFlips : Obligations.SyncEmitsDeltasAtFlips := by
  intro t s hunbounded hlt
  obtain ⟨r, hwrite⟩ := exec_unbounded (.psgWr t 0x80) hunbounded
  obtain ⟨v, hrun, hdbuf⟩ := foldl_deltaCmd s.psg (passDeltas s.params s.psg t.toInt) hunbounded rfl
  refine ⟨_, v, hwrite, hrun, ?_⟩
  have hsync : ((effect (.psgWr t 0x80) s).respond r).dbuf = (sync s t.toInt).dbuf := rfl
  rw [hsync, sync_of_lt hlt, State.withPsg_dbuf, (psgUpdate_addsDeltas s t.toInt).dbuf, hdbuf]

end Sys2Proof.Proofs
end

section
/-! A silent chip: deltas of zero leave empty slots empty, and reading empty slots adds nothing to the host's buffers
(41_psg_write.md R187, 42_psg_run.md R207). -/

namespace Sys2Proof.Proofs

open Sys2Proof Sys2Proof.Machine

/-! ### Deltas of zero -/

theorem addSlot_nil_zero (i : Nat) : addSlot [] i 0 = [] := Memory.write_zero_nil i

/-- Slot additions of 0 leave an empty memory empty. -/
theorem addAll_nil_of_zero {l : List (Nat × Int)} (h : ∀ p ∈ l, p.2 = 0) : addAll l [] = [] := by
  induction l with
  | nil => rfl
  | cons p l ih =>
    rw [addAll_cons, h p List.mem_cons_self, addSlot_nil_zero]
    exact ih fun q hq => h q (List.mem_cons_of_mem p hq)

theorem forwardTap_zero (kernel : List (List Int)) (f k : Nat) : forwardTap kernel f 0 k = 0 := by
  simp [forwardTap, tdiv]

theorem mirroredTap_zero (kernel : List (List Int)) (f k : Nat) : mirroredTap kernel f 0 k = 0 := by
  simp [mirroredTap, tdiv]

theorem addTaps_nil_zero (kernel : List (List Int)) (f : Nat) : addTaps kernel f 0 [] = [] := by
  rw [addTaps_eq, tapList_eq]
  refine addAll_nil_of_zero fun p hp => ?_
  obtain ⟨k, -, hk⟩ := List.mem_flatMap.mp hp
  simp only [List.mem_cons, List.not_mem_nil, or_false] at hk
  obtain rfl | rfl := hk
  · exact forwardTap_zero kernel f k
  · exact mirroredTap_zero kernel f k

theorem addFast_nil_zero (f : Nat) : addFast f 0 [] = [] := by
  simp only [addFast, Int.zero_mul, Int.sub_zero, addSlot_nil_zero]

/-- A delta of zero leaves empty slots empty, by either path (41_psg_write.md R187). -/
theorem addDeltaBy_zero (hq : Bool) (kernel : List (List Int)) {d : Dbuf} (h : d.buf = ⟨[], []⟩) (t : Time) :
    (addDeltaBy hq kernel d (t, ⟨0, 0⟩)).buf = ⟨[], []⟩ := by
  refine Stereo.ext_lane fun x => ?_
  have hlane : d.buf.lane x = [] := by rw [h]; cases x <;> rfl
  have hzero : ((⟨0, 0⟩ : Stereo Amp).lane x).toInt = 0 := by rw [zero_lane]; rfl
  have hempty : (⟨[], []⟩ : Stereo (Memory 32)).lane x = [] := by cases x <;> rfl
  rw [hempty]
  cases hq with
  | true =>
    show (addDelta _ _ _ _).buf.lane x = _
    rw [addDelta_lane, hlane, hzero, addTaps_nil_zero]
  | false =>
    show (addDeltaFast _ _ _).buf.lane x = _
    rw [addDeltaFast_lane, hlane, hzero, addFast_nil_zero]

theorem addDeltas_zero (p : Params) (g : Psg) {l : List (Time × Stereo Amp)} (hzero : ∀ e ∈ l, e.2 = ⟨0, 0⟩)
    {d : Dbuf} (h : d.buf = ⟨[], []⟩) : (addDeltas p g d l).buf = ⟨[], []⟩ := by
  induction l generalizing d with
  | nil => exact h
  | cons e l ih =>
    have hhead : e = (e.1, ⟨0, 0⟩) := Prod.ext rfl (hzero e List.mem_cons_self)
    rw [addDeltas_cons, hhead]
    exact ih (fun q hq => hzero q (List.mem_cons_of_mem e hq)) (addDeltaBy_zero _ _ h _)

/-! ### The deltas of a silent chip -/

theorem flushDeltas_silent {g : Psg} (h : g.chanDelta = Quad.all ⟨0, 0⟩) (ch : Chan) : flushDeltas g ch = [] := by
  rw [flushDeltas, h, Quad.get_all, if_pos rfl]

theorem toneDeltas_silent {g : Psg} (h : g.chanOut = Quad.all ⟨0, 0⟩) (ch : Tone) (k : Nat) :
    ∀ e ∈ toneDeltas g ch k, e.2 = ⟨0, 0⟩ := by
  intro e he
  obtain ⟨j, -, rfl⟩ := List.mem_map.mp he
  rw [h, Quad.get_all]
  exact ite_self _

theorem noiseDeltas_silent (p : Params) {g : Psg} (h : g.chanOut = Quad.all ⟨0, 0⟩) (k : Nat) :
    ∀ e ∈ noiseDeltas p g k, e.2 = ⟨0, 0⟩ := by
  intro e he
  obtain ⟨j, -, rfl⟩ := List.mem_map.mp he
  rw [h]
  dsimp only
  split <;> rfl

theorem passDeltas_silent (p : Params) {g : Psg} (hout : g.chanOut = Quad.all ⟨0, 0⟩)
    (hdelta : g.chanDelta = Quad.all ⟨0, 0⟩) (target : Int) : ∀ e ∈ passDeltas p g target, e.2 = ⟨0, 0⟩ := by
  intro e he
  simp only [passDeltas, flushDeltas_silent hdelta, List.nil_append, List.mem_append] at he
  obtain ((he | he) | he) | he := he
  · exact toneDeltas_silent hout _ _ e he
  · exact toneDeltas_silent hout _ _ e he
  · exact toneDeltas_silent hout _ _ e he
  · exact noiseDeltas_silent p hout _ e he

/-- What silence asks of the PSG and the delta buffer (42_psg_run.md R207). -/
structure Silent (s : State) : Prop where
  chanOut : s.psg.chanOut = Quad.all ⟨0, 0⟩
  chanDelta : s.psg.chanDelta = Quad.all ⟨0, 0⟩
  buf : s.dbuf.buf = ⟨[], []⟩
  integ : s.dbuf.integ = ⟨0, 0⟩

theorem Silent.psgUpdate {s : State} (h : Silent s) (target : Int) : Silent (psgUpdate s target) := by
  have hadds := psgUpdate_addsDeltas s target
  obtain ⟨-, -, -, -, -, -, -, hout⟩ := hadds.runs.psg.fields
  obtain ⟨-, -, -, -, -, hinteg⟩ := hadds.runs.slots.only.fields
  refine ⟨hout.trans h.chanOut, psgUpdate_chanDelta s target, ?_, hinteg.trans h.integ⟩
  rw [hadds.dbuf]
  exact addDeltas_zero _ _ (passDeltas_silent _ h.chanOut h.chanDelta target) h.buf

theorem Silent.sync {s : State} (h : Silent s) (t : Int) : Silent (sync s t) := by
  rcases lt_or_ge s.psg.clocks.toInt t with hlt | hge
  · obtain ⟨hout, hdelta, hbuf, hinteg⟩ := h.psgUpdate t
    rw [sync_of_lt hlt]
    exact ⟨hout, hdelta, hbuf, hinteg⟩
  · rw [sync_of_le hge]
    exact h

/-- Neither the rebase nor the frame's end touches levels, slots or integrators (42_psg_run.md R198). -/
theorem Silent.renderFrame {s : State} (h : Silent s) (T : Int) : Silent (renderFrame s T) := by
  obtain ⟨hout, hdelta, hbuf, hinteg⟩ := h.sync T
  exact ⟨hout, hdelta, hbuf, hinteg⟩

/-! ### Reading silence -/

/-- With no slot listed and a zero integrator a turn of the read adds 0 to the host's element (40_delta_buffer.md
R136). -/
theorem readStep_silent (i : Nat) {out : Memory 32} (hout : out.wf = true) :
    readStep i ⟨[], out, 0⟩ = ⟨[], out, 0⟩ := by
  have hpcm : pcm 0 = 0 := by decide
  have hinteg : integrate 0 0 0 = 0 := by decide
  unfold readStep
  rw [hpcm, Int.add_zero, s32_toInt, Memory.write_read_self hout, Memory.read_nil, hinteg, Memory.write_zero_nil]

theorem readLane_silent (n : Nat) {out : Memory 32} (hout : out.wf = true) :
    readLane n ⟨[], out, 0⟩ = ⟨[], out, 0⟩ := by
  have hloop : ∀ n i, readLoop n i ⟨[], out, 0⟩ = ⟨[], out, 0⟩ := by
    intro n
    induction n with
    | zero => exact fun i => rfl
    | succ n ih =>
      intro i
      rw [readLoop, readStep_silent i hout]
      exact ih (i + 1)
  rw [readLane, hloop]
  rfl

/-- Reading a silent chip leaves it silent and the host's buffers as they were. -/
theorem Silent.readSamples {s : State} (h : Silent s) (hout : pairWf s.host.out) (count : Nat) :
    Silent (readSamples s count) ∧ (readSamples s count).host.out = s.host.out := by
  have hlane : ∀ x : Lane,
      readLane (readCount s.dbuf count) ⟨s.dbuf.buf.lane x, s.host.out.lane x, s.dbuf.integ.lane x⟩ =
        ⟨[], s.host.out.lane x, 0⟩ := by
    intro x
    rw [h.buf, h.integ, zero_lane]
    cases x <;> exact readLane_silent _ (hout _)
  refine ⟨⟨h.chanOut, h.chanDelta, Stereo.ext_lane fun x => ?_, Stereo.ext_lane fun x => ?_⟩,
    Stereo.ext_lane fun x => ?_⟩
  · rw [readSamples_buf_lane, hlane]
    cases x <;> rfl
  · rw [readSamples_integ_lane, hlane, zero_lane]
  · rw [readSamples_out_lane, hlane]

/-- Settles O46: the channels' run, the frame's end and the read keep a silent chip silent. -/
theorem silentChipRendersSilence : Obligations.SilentChipRendersSilence := by
  intro count s hunbounded hout hchanOut hchanDelta hbuf hinteg
  obtain ⟨r, hexec⟩ := exec_unbounded (.psgRen count) hunbounded
  have hframe : Silent (renderFrame s (clocksNeeded s.dbuf count.toNat)) :=
    Silent.renderFrame ⟨hchanOut, hchanDelta, hbuf, hinteg⟩ _
  have hhost : (renderFrame s (clocksNeeded s.dbuf count.toNat)).host = s.host := (Emits.sync s _).host
  have hout' : pairWf (renderFrame s (clocksNeeded s.dbuf count.toNat)).host.out := by
    rw [hhost]
    exact hout
  obtain ⟨hread, hsame⟩ := hframe.readSamples hout' count.toNat
  refine ⟨_, hexec, ?_⟩
  rw [State.respond_host_out, State.respond_dbuf, State.respond_psg, effect, hsame, hhost]
  exact ⟨rfl, hread.buf, hread.integ, hread.chanOut, hread.chanDelta⟩

end Sys2Proof.Proofs
end

section
/-! One shift of the LFSR as arithmetic, and the periodic mode as a rotation of the register (42_psg_run.md R196,
R197). -/

namespace Sys2Proof.Proofs

open Sys2Proof Sys2Proof.Machine

/-! ### The feedback bit -/

theorem toNat_xor_eq_add_mod (a b : Bool) : (a ^^ b).toNat = (a.toNat + b.toNat) % 2 := by
  cases a <;> cases b <;> rfl

/-- The exclusive or of the first `n` bits is their number modulo 2 (00_scope.md R11). -/
theorem foldl_xor_toNat (v : BitVec 16) (n : Nat) :
    ((List.range n).foldl (fun acc i => acc ^^ v.getLsbD i) false).toNat =
      (∑ i ∈ Finset.range n, (v.getLsbD i).toNat) % 2 := by
  induction n with
  | zero => rfl
  | succ n ih =>
    rw [List.range_succ, List.foldl_append, List.foldl_cons, List.foldl_nil, toNat_xor_eq_add_mod, ih,
      Finset.sum_range_succ, Nat.mod_add_mod]

/-- The parity of the tapped bits counts them (42_psg_run.md R196). -/
theorem parity_and_toNat (sv mask : BitVec 16) :
    (parity (sv &&& mask)).toNat =
      (∑ i ∈ Finset.range 16, if mask.getLsbD i ∧ sv.getLsbD i then 1 else 0) % 2 := by
  have hbit : ∀ i, ((sv &&& mask).getLsbD i).toNat = if mask.getLsbD i ∧ sv.getLsbD i then 1 else 0 := by
    intro i
    rw [BitVec.getLsbD_and]
    cases sv.getLsbD i <;> cases mask.getLsbD i <;> rfl
  rw [parity, foldl_xor_toNat]
  simp only [hbit]

/-- The output bit is the register modulo 2 (10_state.md R30). -/
theorem getLsbD_zero_toNat (sv : BitVec 16) : (sv.getLsbD 0).toNat = sv.toNat % 2 := by
  rw [BitVec.getLsbD, Nat.testBit_zero]
  obtain h | h := Nat.mod_two_eq_zero_or_one sv.toNat <;> rw [h] <;> rfl

/-! ### One shift -/

/-- The bit that enters the register (42_psg_run.md R196). -/
def feedback (white : Bool) (mask sv : BitVec 16) : Bool := if white then parity (sv &&& mask) else sv.getLsbD 0

theorem feedback_toNat (white : Bool) (mask sv : BitVec 16) :
    (feedback white mask sv).toNat =
      if white then (∑ i ∈ Finset.range 16, if mask.getLsbD i ∧ sv.getLsbD i then 1 else 0) % 2
      else sv.toNat % 2 := by
  cases white with
  | true => exact parity_and_toNat sv mask
  | false => exact getLsbD_zero_toNat sv

/-- The feedback bit in place, as a word. -/
theorem feedback_shifted_toNat {w : Nat} (hlo : 1 ≤ w) (hhi : w ≤ 16) (b : Bool) :
    ((if b then 1#16 else 0#16) <<< (w - 1)).toNat = b.toNat <<< (w - 1) := by
  have hpow : 2 ^ (w - 1) < 2 ^ 16 := Nat.pow_lt_pow_right (by decide) (by omega)
  cases b with
  | false => simp
  | true =>
    rw [if_pos rfl, BitVec.toNat_shiftLeft, Nat.mod_eq_of_lt]
    · rfl
    · rw [Nat.shiftLeft_eq]
      simpa using hpow

/-- The register shifts right and the feedback bit enters at the top (42_psg_run.md R196). -/
theorem lfsrNext_toNat (white : Bool) {w : Nat} (hlo : 1 ≤ w) (hhi : w ≤ 16) (mask : BitVec 16) {sv : BitVec 16}
    (h : sv.toNat < 2 ^ w) :
    (lfsrNext white w mask sv).toNat = sv.toNat / 2 + 2 ^ (w - 1) * (feedback white mask sv).toNat := by
  have hsplit : 2 ^ w = 2 * 2 ^ (w - 1) := (mul_pow_sub_one (by omega) 2).symm
  have hshift : sv.toNat / 2 < 2 ^ (w - 1) := by omega
  have hword : lfsrNext white w mask sv =
      (sv >>> 1) ||| ((if feedback white mask sv then 1#16 else 0#16) <<< (w - 1)) := rfl
  rw [hword, BitVec.toNat_or, BitVec.toNat_ushiftRight, feedback_shifted_toNat hlo hhi, Nat.shiftRight_one, Nat.or_comm,
    ← Nat.shiftLeft_add_eq_or_of_lt hshift, Nat.shiftLeft_eq, Nat.mul_comm, Nat.add_comm]

/-! ### The periodic mode -/

/-- Above its width the register holds no bit. -/
theorem getLsbD_of_width_le {w i : Nat} {v : BitVec 16} (h : v.toNat < 2 ^ w) (hi : w ≤ i) : v.getLsbD i = false :=
  Nat.testBit_eq_false_of_lt (lt_of_lt_of_le h (Nat.pow_le_pow_right (by decide) hi))

/-- In periodic mode a shift rotates the register by one bit (42_psg_run.md R196). -/
theorem getLsbD_lfsrNext_periodic {w : Nat} (hhi : w ≤ 16) (mask : BitVec 16) {sv : BitVec 16}
    (h : sv.toNat < 2 ^ w) {i : Nat} (hi : i < w) :
    (lfsrNext false w mask sv).getLsbD i = sv.getLsbD ((i + 1) % w) := by
  rw [BitVec.getLsbD, lfsrNext_toNat false (by omega) hhi mask h, Nat.add_comm, Nat.testBit_two_pow_mul_add]
  · split
    · next hlow =>
      rw [Nat.mod_eq_of_lt (by omega), Nat.testBit_div_two]
      rfl
    · next htop =>
      have hlast : i = w - 1 := by omega
      have hwrap : (w - 1 + 1) % w = 0 := by rw [Nat.sub_add_cancel (by omega), Nat.mod_self]
      rw [hlast, hwrap, Nat.sub_self]
      show (sv.getLsbD 0).toNat.testBit 0 = _
      cases sv.getLsbD 0 <;> rfl
  · have hsplit : 2 ^ w = 2 * 2 ^ (w - 1) := (mul_pow_sub_one (by omega) 2).symm
    omega

/-- `k` shifts in periodic mode rotate the register by `k` bits. -/
theorem getLsbD_lfsrNext_periodic_iterate {w : Nat} (hhi : w ≤ 16) (mask : BitVec 16) (k : Nat) {sv : BitVec 16}
    (h : sv.toNat < 2 ^ w) {i : Nat} (hi : i < w) :
    ((lfsrNext false w mask)^[k] sv).getLsbD i = sv.getLsbD ((i + k) % w) := by
  induction k generalizing sv with
  | zero => rw [Nat.add_zero, Nat.mod_eq_of_lt hi]; rfl
  | succ k ih =>
    rw [Function.iterate_succ_apply, ih (lfsrNext_lt false (by omega) mask h),
      getLsbD_lfsrNext_periodic hhi mask h (Nat.mod_lt _ (by omega)), Nat.mod_add_mod, Nat.add_assoc]

theorem lfsrNext_iterate_lt (white : Bool) {w : Nat} (hlo : 1 ≤ w) (mask : BitVec 16) (k : Nat) {sv : BitVec 16}
    (h : sv.toNat < 2 ^ w) : ((lfsrNext white w mask)^[k] sv).toNat < 2 ^ w := by
  induction k generalizing sv with
  | zero => exact h
  | succ k ih => exact ih (lfsrNext_lt white hlo mask h)

/-- A rotation by the width is none (42_psg_run.md R197). -/
theorem lfsrNext_periodic_iterate_width {w : Nat} (hlo : 1 ≤ w) (hhi : w ≤ 16) (mask : BitVec 16) {sv : BitVec 16}
    (h : sv.toNat < 2 ^ w) : (lfsrNext false w mask)^[w] sv = sv := by
  refine BitVec.eq_of_getLsbD_eq fun i _ => ?_
  rcases Nat.lt_or_ge i w with hi | hi
  · rw [getLsbD_lfsrNext_periodic_iterate hhi mask w h hi, Nat.add_mod_right, Nat.mod_eq_of_lt hi]
  · rw [getLsbD_of_width_le (lfsrNext_iterate_lt false hlo mask w h) hi, getLsbD_of_width_le h hi]

/-- The seed's one bit is the top one (10_state.md R42). -/
theorem getLsbD_seedOf (c : ChipType) : ∀ i < 16, (seedOf c).getLsbD i = decide (i = noiseWidth c - 1) := by
  cases c <;> decide

theorem noiseWidth_le (c : ChipType) : noiseWidth c ≤ 16 := by cases c <;> decide

/-- Fewer shifts than the width leave the seed's bit short of the top (42_psg_run.md R197). -/
theorem lfsrNext_periodic_iterate_seed_ne (c : ChipType) (mask : BitVec 16) {k : Nat} (h0 : 0 < k)
    (hk : k < noiseWidth c) : (lfsrNext false (noiseWidth c) mask)^[k] (seedOf c) ≠ seedOf c := by
  intro heq
  have hhi := noiseWidth_le c
  have hseed : (seedOf c).toNat < 2 ^ noiseWidth c := lfsrSeed_eq c ▸ lfsrSeed_lt c
  have hrotated := getLsbD_lfsrNext_periodic_iterate hhi mask k hseed (i := noiseWidth c - 1 - k) (by omega)
  have htop : (noiseWidth c - 1 - k + k) % noiseWidth c = noiseWidth c - 1 := by
    rw [Nat.sub_add_cancel (by omega), Nat.mod_eq_of_lt (by omega)]
  rw [heq, htop, getLsbD_seedOf c _ (by omega), getLsbD_seedOf c _ (by omega), decide_eq_decide] at hrotated
  omega

/-! ### The statement -/

/-- The laws of one shift and of the period, at the width of a chip type. -/
theorem lfsr_laws (c : ChipType) (mask : BitVec 16) {sv : BitVec 16} (h : sv.toNat < 2 ^ noiseWidth c) :
    (∀ white : Bool, (lfsrNext white (noiseWidth c) mask sv).toNat = sv.toNat / 2 + 2 ^ (noiseWidth c - 1) *
      (if white then (∑ i ∈ Finset.range 16, if mask.getLsbD i ∧ sv.getLsbD i then 1 else 0) % 2
        else sv.toNat % 2)) ∧
    (lfsrNext false (noiseWidth c) mask)^[noiseWidth c] sv = sv ∧
    ∀ k, 0 < k → k < noiseWidth c → (lfsrNext false (noiseWidth c) mask)^[k] (seedOf c) ≠ seedOf c := by
  have hlo := noiseWidth_pos c
  have hhi := noiseWidth_le c
  refine ⟨fun white => ?_, lfsrNext_periodic_iterate_width hlo hhi mask h,
    fun k h0 hk => lfsrNext_periodic_iterate_seed_ne c mask h0 hk⟩
  rw [lfsrNext_toNat white hlo hhi mask h, feedback_toNat]

/-- Settles O51: a shift moves the feedback bit in at the top, and in periodic mode it is a rotation. -/
theorem lfsrShiftAndPeriod : Obligations.LfsrShiftAndPeriod := by
  intro c mask sv
  cases c with
  | integrated => exact lfsr_laws .integrated mask
  | discrete => exact lfsr_laws .discrete mask

end Sys2Proof.Proofs
end

section
/-! Where a scheduling pass leaves the channels: flip times, polarities and the LFSR, and that a register write after it
moves none of them but a reseed (42_psg_run.md R192, R194 to R196). -/

namespace Sys2Proof.Proofs

open Sys2Proof Sys2Proof.Machine

/-! ### The number of flips -/

/-- The flips of a channel in a pass to `target` (42_psg_run.md R192). -/
def flipsTo (g : Psg) (target : Int) (ch : Chan) : Nat :=
  flipCount (g.freqCounter.get ch).toInt (g.freqInc.get ch).toInt target

/-- A channel whose next flip is not before the target is not run (42_psg_run.md R192). -/
theorem flipCount_of_le {ts inc target : Int} (h : target ≤ ts) : flipCount ts inc target = 0 :=
  if_neg h.not_gt

/-- Else the flips bring the next one to the first flip time at or after the target (42_psg_run.md R192). -/
theorem flipCount_bounds {ts inc target : Int} (hinc : 1 ≤ inc) (h : ts < target) :
    target ≤ ts + flipCount ts inc target * inc ∧ ts + flipCount ts inc target * inc < target + inc := by
  obtain ⟨hlo, hhi⟩ := ceilDiv_mul_bounds (target - ts) (b := inc) (by omega)
  have hpos : 0 < ceilDiv (target - ts) inc := by
    by_contra hneg
    have := Int.mul_nonpos_of_nonpos_of_nonneg (Int.not_lt.mp hneg) (show 0 ≤ inc by omega)
    omega
  rw [flipCount, if_pos h, Int.toNat_of_nonneg hpos.le]
  omega

/-- The flip time after `k` half-periods as a 64-bit word, where the sum fits (00_scope.md R9; entry 10 beyond). -/
theorem flipTime_toInt {c inc : Time} {k : Nat} (hinc : 0 ≤ inc.toInt) (hfits : c.toInt + k * inc.toInt < 2 ^ 63) :
    (c + BitVec.ofNat 64 k * inc).toInt = c.toInt + k * inc.toInt := by
  have hword : c + BitVec.ofNat 64 k * inc = s64 (c.toInt + k * inc.toInt) := by
    rw [s64_add, s64_mul, s64_natCast, s64_toInt, s64_toInt]
  have hmin := BitVec.le_toInt c
  have hadvance : 0 ≤ (k : Int) * inc.toInt := Int.mul_nonneg (Int.natCast_nonneg k) hinc
  rw [hword, s64_toInt_of_range (by omega) hfits]

/-- The flip time that a pass to `t` leaves is no wrapped one where there is room for one half-period beyond `t`. -/
theorem flipsTo_toInt {g : Psg} {t : Int} {ch : Chan} (hinc : 1 ≤ (g.freqInc.get ch).toInt)
    (hfits : t + (g.freqInc.get ch).toInt < 2 ^ 63) :
    (g.freqCounter.get ch + BitVec.ofNat 64 (flipsTo g t ch) * g.freqInc.get ch).toInt =
      (g.freqCounter.get ch).toInt + flipsTo g t ch * (g.freqInc.get ch).toInt := by
  refine flipTime_toInt (by omega) ?_
  unfold flipsTo
  rcases lt_or_ge (g.freqCounter.get ch).toInt t with hlt | hge
  · obtain ⟨-, hhi⟩ := flipCount_bounds hinc hlt
    omega
  · have hmax := BitVec.toInt_lt (x := g.freqCounter.get ch)
    rw [flipCount_of_le hge]
    omega

theorem flip_involutive : Function.Involutive Polarity.flip := fun p => by cases p <;> rfl

/-- `k` turns of a polarity are none or one. -/
theorem flip_iterate (k : Nat) (p : Polarity) : Polarity.flip^[k] p = if k % 2 = 0 then p else p.flip := by
  split
  · next h => rw [flip_involutive.iterate_even (Nat.even_iff.mpr h)]; rfl
  · next h => rw [flip_involutive.iterate_odd (Nat.odd_iff.mpr (by omega))]

/-! ### After a pass -/

/-- After a pass every channel's flip time has advanced by its flips, and its polarity has turned as often
(42_psg_run.md R192, R194, R195). -/
theorem psgUpdate_channel (s : State) (target : Int) (ch : Chan) :
    (psgUpdate s target).psg.freqCounter.get ch =
      s.psg.freqCounter.get ch + BitVec.ofNat 64 (flipsTo s.psg target ch) * s.psg.freqInc.get ch ∧
    (psgUpdate s target).psg.polarity.get ch =
      Polarity.flip^[flipsTo s.psg target ch] (s.psg.polarity.get ch) := by
  rw [psgUpdate_eq, runNoise, noiseLoop_spec, flush_psg, tonesRun_psg]
  cases ch <;> exact ⟨rfl, rfl⟩

/-- How often `k` flips turn a polarity to +1 (42_psg_run.md R195). -/
def highFlips (p : Polarity) (k : Nat) : Nat :=
  match p with
  | .minus => (k + 1) / 2
  | .plus => k / 2

/-- The first of `k + 1` flips turns the polarity to +1 if it was -1, and the rest start from the turned one. -/
theorem highFlips_succ (p : Polarity) (k : Nat) :
    highFlips p (k + 1) = highFlips p.flip k + match p with | .minus => 1 | .plus => 0 := by
  cases p with
  | minus => exact (by omega : (k + 1 + 1) / 2 = k / 2 + 1)
  | plus => rfl

/-- One flip of the noise channel shifts the LFSR if it turns the polarity to +1 (42_psg_run.md R195). -/
theorem lfsrAfter_noiseFlip (ts : Time) (s : State) (h : Nat) :
    lfsrAfter s.params (noiseFlip ts s).psg h =
      lfsrAfter s.params s.psg (h + match s.psg.polarity.q3 with | .minus => 1 | .plus => 0) := by
  rw [noiseFlip_psg, noiseNext]
  cases s.psg.polarity.q3 with
  | minus => exact (lfsrAfter_succ s.params s.psg h).symm
  | plus => rfl

/-- The loop of the noise channel shifts the LFSR at every flip to +1 (42_psg_run.md R195, R196). -/
theorem noiseLoop_lfsr (n : Nat) (ts : Time) (s : State) :
    (noiseLoop n ts s).psg.noiseShiftValue = lfsrAfter s.params s.psg (highFlips s.psg.polarity.q3 n) := by
  induction n generalizing ts s with
  | zero => cases s.psg.polarity.q3 <;> rfl
  | succ n ih =>
    have hpolarity : (noiseFlip ts s).psg.polarity.q3 = s.psg.polarity.q3.flip := by rw [noiseFlip_psg]; rfl
    rw [noiseLoop, ih, (noiseFlip_runs ts s).params, hpolarity, lfsrAfter_noiseFlip, ← highFlips_succ]

/-- A pass shifts the LFSR at every flip of the noise channel to +1 (42_psg_run.md R195, R196). -/
theorem psgUpdate_lfsr (s : State) (target : Int) :
    (psgUpdate s target).psg.noiseShiftValue =
      lfsrAfter s.params s.psg (highFlips s.psg.polarity.q3 (flipsTo s.psg target .c3)) := by
  have hparams : (flush (tonesRun s target) .c3).params = s.params :=
    ((flush_runs _ .c3).params).trans (tonesRun_addsDeltas s target).runs.params
  rw [psgUpdate_eq, runNoise, noiseLoop_lfsr, hparams, flush_psg, tonesRun_psg]
  rfl

/-! ### After the register write -/

/-- No form moves a flip time or a polarity (10_state.md R27, R39). -/
theorem FormWrite.channels {s t : State} {i : Instr} (h : FormWrite s i t) :
    t.psg.freqCounter = s.psg.freqCounter ∧ t.psg.polarity = s.psg.polarity := by
  cases h with
  | command => exact ⟨rfl, rfl⟩
  | period => exact ⟨rfl, rfl⟩
  | att r ch v =>
    have hamp := writeAtt_onlyAmp (setLatch s r) ch v
    exact ⟨hamp.freqCounter, hamp.polarity⟩
  | noise r v =>
    have honly := writeNoise_onlyNoise (setLatch s r) v
    exact ⟨honly.freqCounter, honly.polarity⟩

/-- Only a noise control form touches the LFSR (10_state.md R42). -/
theorem FormWrite.lfsr {s t : State} {i : Instr} (h : FormWrite s i t) (hi : (noiseWrite s.psg i).isSome = false) :
    t.psg.noiseShiftValue = s.psg.noiseShiftValue := by
  cases h with
  | command => rfl
  | period => rfl
  | att r ch v => exact (writeAtt_onlyAmp (setLatch s r) ch v).noiseShiftValue
  | noise r v _ hnoise => exact absurd (hi.symm.trans hnoise) Bool.false_ne_true

/-- The bytes that do not reseed the LFSR are those that select no noise control form (30_encoding.md R104 to
R106). -/
theorem noiseWrite_decodeByte (g : Psg) (latch : BitVec 3) (b : BitVec 8) :
    (noiseWrite g (decodeByte latch b)).isSome = writesNoiseControl latch b := by
  have hlatchForm : ∀ (r : BitVec 3) (d : BitVec 4),
      (noiseWrite g (decodeLatchByte r d)).isSome = (r.toNat == 6) := by
    intro r d
    obtain rfl | rfl | rfl | rfl | rfl | rfl | rfl | rfl := register_cases r <;> rfl
  have hdataForm : ∀ d : BitVec 6, (noiseWrite g (decodeDataByte latch d)).isSome = (latch == 6) := by
    intro d
    obtain rfl | rfl | rfl | rfl | rfl | rfl | rfl | rfl := register_cases latch <;> rfl
  unfold decodeByte writesNoiseControl
  split
  · rw [hlatchForm, bitsAt_toNat]
    rfl
  · exact hdataForm _

/-- A `PSG.WR` at a later time leaves the flip times and the polarities of the pass, and its LFSR unless the byte
reseeds it (42_psg_run.md R191, 41_psg_write.md R160). -/
theorem effect_psgWr_channels {s : State} {t : Time} (hlt : s.psg.clocks.toInt < t.toInt) (b : BitVec 8) :
    (effect (.psgWr t b) s).psg.freqCounter = (psgUpdate s t.toInt).psg.freqCounter ∧
    (effect (.psgWr t b) s).psg.polarity = (psgUpdate s t.toInt).psg.polarity ∧
    (writesNoiseControl s.psg.latch b = false →
      (effect (.psgWr t b) s).psg.noiseShiftValue = (psgUpdate s t.toInt).psg.noiseShiftValue) := by
  have hwrite := applyForm_write (decodeByte (sync s t.toInt).psg.latch b) (sync s t.toInt)
  obtain ⟨-, -, -, -, hruns⟩ := sync_frame s t.toInt
  obtain ⟨-, hlatch, -⟩ := hruns.fields
  obtain ⟨hcounter, hpolarity⟩ := hwrite.channels
  have hsync : (sync s t.toInt).psg.freqCounter = (psgUpdate s t.toInt).psg.freqCounter ∧
      (sync s t.toInt).psg.polarity = (psgUpdate s t.toInt).psg.polarity ∧
      (sync s t.toInt).psg.noiseShiftValue = (psgUpdate s t.toInt).psg.noiseShiftValue := by
    rw [sync_of_lt hlt]
    exact ⟨rfl, rfl, rfl⟩
  obtain ⟨hsyncCounter, hsyncPolarity, hsyncLfsr⟩ := hsync
  refine ⟨hcounter.trans hsyncCounter, hpolarity.trans hsyncPolarity, fun hb => (hwrite.lfsr ?_).trans hsyncLfsr⟩
  rw [noiseWrite_decodeByte, hlatch]
  exact hb

/-! ### The statements -/

/-- Settles O39: the pass flips each channel as often as `flipsTo` counts, and the byte's form moves neither flip times
nor polarities. -/
theorem channelsRunToTarget : Obligations.ChannelsRunToTarget := by
  intro t b s hunbounded hlt htimes
  obtain ⟨r, hexec⟩ := exec_unbounded (.psgWr t b) hunbounded
  obtain ⟨hcounter, hpolarity, -⟩ := effect_psgWr_channels hlt b
  refine ⟨_, hexec, fun ch => ⟨flipsTo s.psg t.toInt ch, ?_⟩⟩
  obtain ⟨hinc, hfits⟩ := htimes ch
  obtain ⟨hflipTime, hturned⟩ := psgUpdate_channel s t.toInt ch
  rw [State.respond_psg, hcounter, hpolarity, hflipTime, hturned, flipsTo_toInt hinc hfits]
  rcases lt_or_ge (s.psg.freqCounter.get ch).toInt t.toInt with hbefore | hafter
  · obtain ⟨hlo, hhi⟩ := flipCount_bounds hinc hbefore
    exact ⟨rfl, hlo, fun _ => hhi, fun h => absurd h hbefore.not_ge, flip_iterate _ _⟩
  · have hzero : flipsTo s.psg t.toInt ch = 0 := flipCount_of_le hafter
    rw [hzero, Nat.cast_zero, Int.zero_mul, Int.add_zero]
    exact ⟨rfl, hafter, fun h => absurd h (Nat.lt_irrefl 0), fun _ => rfl, rfl⟩

/-- Settles O40: the noise channel's flips to +1 are counted by `highFlips`, and a byte that is no noise control write
leaves the LFSR. -/
theorem lfsrShiftsOncePerHighFlip : Obligations.LfsrShiftsOncePerHighFlip := by
  intro t b s hunbounded hlt htimes hbyte next
  obtain ⟨r, hexec⟩ := exec_unbounded (.psgWr t b) hunbounded
  obtain ⟨hcounter, -, hlfsr⟩ := effect_psgWr_channels hlt b
  obtain ⟨hinc, hfits⟩ := htimes
  obtain ⟨hflipTime, -⟩ := psgUpdate_channel s t.toInt .c3
  have hnext : next = lfsrNext (s.psg.regs.noiseCtrl.getLsbD 2) (noiseWidth s.psg.chipType)
      (noiseTaps s.params s.psg.chipType) := by
    show lfsrNext _ _ _ = _
    cases s.psg.chipType <;> rfl
  refine ⟨_, flipsTo s.psg t.toInt .c3, hexec, ?_, ?_⟩
  · rw [State.respond_psg, hcounter, ← Quad.get_c3, hflipTime]
    exact flipsTo_toInt hinc hfits
  · rw [State.respond_psg, hlfsr hbyte, psgUpdate_lfsr, lfsrAfter, hnext]
    cases s.psg.polarity.q3 <;> rfl

end Sys2Proof.Proofs
end

section
/-! `PSG.REN`: the run of the channels to the frame's end, the rebase of the PSG's time, and the read (42_psg_run.md
R198). -/

namespace Sys2Proof.Proofs

open Sys2Proof Sys2Proof.Machine

/-! ### The frame -/

theorem exec_psgRen_next (count : BitVec 32) {s : State} (h : s.Unbounded) :
    exec (.psgRen count) s =
      .next ((readSamples (renderFrame s (clocksNeeded s.dbuf count.toNat)) count.toNat).respond
        (rspRender (readCount (renderFrame s (clocksNeeded s.dbuf count.toNat)).dbuf count.toNat)
          (clocksNeeded s.dbuf count.toNat))) := by
  have heffect : (effect (.psgRen count) s).Unbounded := (congrArg Params.dbMaxSlots (effect_params _ s)).trans h
  exact completeWithin_unbounded heffect _

/-- The frame's end in 64-bit words, for a frame length that may be no `s64` (40_delta_buffer.md R135, entry 11). -/
theorem endFrame_offset (d : Dbuf) (T : Int) : (endFrame d T).offset = d.offset + BitVec.ofInt 64 T * d.factor := by
  rw [endFrame, s64_add, s64_mul, s64_toInt, s64_toInt]
  rfl

/-- The frame moves the time cursor by its length: the channels' run touches neither it nor `factor`. -/
theorem renderFrame_offset (s : State) (T : Int) :
    (renderFrame s T).dbuf.offset = s.dbuf.offset + BitVec.ofInt 64 T * s.dbuf.factor := by
  obtain ⟨hfactor, hoffset, -⟩ := (Emits.sync s T).slots.only.fields
  show (endFrame (sync s T).dbuf T).offset = _
  rw [endFrame_offset, hfactor, hoffset]

theorem renderFrame_params (s : State) (T : Int) : (renderFrame s T).params = s.params := (Emits.sync s T).params
theorem renderFrame_rs (s : State) (T : Int) : (renderFrame s T).rs = s.rs := (Emits.sync s T).rs
theorem renderFrame_host (s : State) (T : Int) : (renderFrame s T).host = s.host := (Emits.sync s T).host

/-- The frame leaves what neither the channels' run nor the rebase names (42_psg_run.md R198). -/
theorem renderFrame_psg (s : State) (T : Int) :
    (renderFrame s T).psg = { s.psg with
      clocks := (renderFrame s T).psg.clocks
      freqCounter := (renderFrame s T).psg.freqCounter
      polarity := (renderFrame s T).psg.polarity
      chanDelta := (renderFrame s T).psg.chanDelta
      noiseShiftValue := (renderFrame s T).psg.noiseShiftValue } := by
  obtain ⟨-, -, -, -, hruns⟩ := sync_frame s T
  unfold Psg.OnlyRuns at hruns
  show rebase (sync s T).psg T = { s.psg with
    clocks := (rebase (sync s T).psg T).clocks
    freqCounter := (rebase (sync s T).psg T).freqCounter
    polarity := (sync s T).psg.polarity
    chanDelta := (sync s T).psg.chanDelta
    noiseShiftValue := (sync s T).psg.noiseShiftValue }
  rw [hruns]
  rfl

/-- A PSG that is already at the frame's end, or beyond, is left that much into the next frame. -/
theorem renderFrame_clocks_of_le {s : State} {T : Int} (h0 : 0 ≤ T) (h : T ≤ s.psg.clocks.toInt) :
    (renderFrame s T).psg.clocks.toInt = s.psg.clocks.toInt - T := by
  have hmax := BitVec.toInt_lt (x := s.psg.clocks)
  show (s64 ((sync s T).psg.clocks.toInt - T)).toInt = _
  rw [sync_of_le h, s64_toInt_of_range (by omega) (by omega)]

/-- In BASELINE the PSG stops at the frame's end, which is time 0 of the next frame (42_psg_run.md R191, R198). -/
theorem renderFrame_clocks_baseline {s : State} {T : Int} (h : s.psg.clocks.toInt < T)
    (hv : s.params.variant = .baseline) : (renderFrame s T).psg.clocks = 0 := by
  show s64 ((sync s T).psg.clocks.toInt - T) = 0
  rw [sync_clocks_of_lt h, syncedClocks_baseline hv, s64_sub, s64_toInt]
  exact BitVec.sub_self _

/-! ### The response -/

/-- RSP of `PSG.REN` as two words: T[31:0] above n (30_encoding.md R101). -/
theorem rspRender_eq_append (n : Nat) (T : Int) : rspRender n T = BitVec.ofInt 32 T ++ BitVec.ofNat 32 n := by
  refine BitVec.eq_of_toNat_eq ?_
  have hT : (T % 2 ^ 32).toNat < 2 ^ 32 := by omega
  have hn : n % 2 ^ 32 < 2 ^ 32 := Nat.mod_lt _ (by decide)
  rw [BitVec.toNat_append, BitVec.toNat_ofInt, BitVec.toNat_ofNat, ← Nat.shiftLeft_add_eq_or_of_lt hn, Nat.shiftLeft_eq,
    rspRender, BitVec.toNat_ofNat, Nat.mod_eq_of_lt (by omega)]
  rfl

/-- The low word of the response is the number of samples. -/
theorem rspRender_setWidth (n : Nat) (T : Int) : (rspRender n T).setWidth 32 = BitVec.ofNat 32 n := by
  rw [rspRender_eq_append]
  exact BitVec.setWidth_append_eq_right

/-- The samples that the frame makes readable, up to the count (40_delta_buffer.md R136). -/
theorem readCount_renderFrame (s : State) (T : Int) (count : Nat) :
    readCount (renderFrame s T).dbuf count =
      min count ((s.dbuf.offset + BitVec.ofInt 64 T * s.dbuf.factor).toInt / 2 ^ 20).toNat := by
  rw [readCount, readable, renderFrame_offset, asr]

/-! ### The read -/

/-- A read leaves the host's elements beyond the ones it delivers, whatever the slots hold (40_delta_buffer.md R136). -/
theorem readLoop_out_beyond (n : Nat) {x : ReadLane} (h : x.out.wf = true) :
    (readLoop n 0 x).out.wf = true ∧ ∀ j, n ≤ j → (readLoop n 0 x).out.read j = x.out.read j := by
  induction n with
  | zero => exact ⟨h, fun _ _ => rfl⟩
  | succ n ih =>
    obtain ⟨hwf, hread⟩ := ih
    rw [readLoop_succ, Nat.zero_add]
    refine ⟨Memory.wf_write hwf _ _, fun j hj => ?_⟩
    exact (Memory.read_write_other hwf (by omega) _).trans (hread j (by omega))

theorem readSamples_out_beyond {s : State} (h : pairWf s.host.out) (count : Nat) (x : Lane) {j : Nat}
    (hj : readCount s.dbuf count ≤ j) :
    ((readSamples s count).host.out.lane x).read j = (s.host.out.lane x).read j := by
  obtain ⟨-, hread⟩ := readLoop_out_beyond (readCount s.dbuf count)
    (x := ⟨s.dbuf.buf.lane x, s.host.out.lane x, s.dbuf.integ.lane x⟩) (h x)
  rw [readSamples_out_lane]
  exact hread j hj

theorem readSamples_params (s : State) (count : Nat) : (readSamples s count).params = s.params := rfl
theorem readSamples_rs (s : State) (count : Nat) : (readSamples s count).rs = s.rs := rfl
theorem readSamples_psg (s : State) (count : Nat) : (readSamples s count).psg = s.psg := rfl
theorem readSamples_host (s : State) (count : Nat) :
    (readSamples s count).host = { s.host with out := (readSamples s count).host.out } := rfl

/-- The delta buffer after a frame and its read: slots, integrators, cursor and capacity may have changed. -/
theorem readSamples_renderFrame_dbuf (s : State) (T : Int) (count : Nat) :
    (readSamples (renderFrame s T) count).dbuf = { s.dbuf with
      offset := (readSamples (renderFrame s T) count).dbuf.offset
      buf := (readSamples (renderFrame s T) count).dbuf.buf
      integ := (readSamples (renderFrame s T) count).dbuf.integ
      cap := (readSamples (renderFrame s T) count).dbuf.cap
      peakNeed := (readSamples (renderFrame s T) count).dbuf.peakNeed } := by
  obtain ⟨hfactor, -, hclkNum, hclkDen, hrate, -⟩ := (Emits.sync s T).slots.only.fields
  dsimp only
  rw [← hfactor, ← hclkNum, ← hclkDen, ← hrate]
  rfl

/-! ### The statements -/

/-- Settles O43: the frame, then the read, which moves the cursor back by the samples delivered. -/
theorem psgRenAdvancesOneFrame : Obligations.PsgRenAdvancesOneFrame := by
  intro count s hunbounded hout T ended n
  have hT : 0 ≤ T := clocksNeeded_nonneg s.dbuf count.toNat
  have hended : (renderFrame s T).dbuf.offset = ended := renderFrame_offset s T
  have hn : readCount (renderFrame s T).dbuf count.toNat = n := readCount_renderFrame s T count.toNat
  have hhost := renderFrame_host s T
  refine ⟨_, exec_psgRen_next count hunbounded, ?_, ?_, ?_, ?_, fun x i hi => ?_, ?_, ?_, ?_, ?_⟩
  · rw [State.respond_params, readSamples_params, renderFrame_params]
  · rw [State.respond_rs, readSamples_rs, renderFrame_rs]
  · rw [State.respond_host_rsp, rspRender_eq_append, readCount_renderFrame]
  · rw [State.respond, State.withHost_host, readSamples_host, hhost]
  · rw [State.respond_host_out, readSamples_out_beyond (hhost ▸ hout) _ x (hn.trans_le hi), hhost]
  · rw [State.respond_dbuf, readSamples_offset, hn, hended]
  · rw [State.respond_dbuf]
    exact readSamples_renderFrame_dbuf s T _
  · rw [State.respond_psg, readSamples_psg]
    exact renderFrame_psg s T
  · rw [State.respond_psg, readSamples_psg]
    exact ⟨renderFrame_clocks_of_le hT, renderFrame_clocks_baseline⟩

/-- A frame whose length is an `s64` is the run of a write stamped with that length (42_psg_run.md R198). -/
theorem sync_clocksNeeded {d : Dbuf} {count : Nat} (h : clocksNeeded d count < 2 ^ 63) (s : State) :
    sync s (s64 (clocksNeeded d count)).toInt = sync s (clocksNeeded d count) := by
  have h0 := clocksNeeded_nonneg d count
  rw [s64_toInt_of_range (by omega) h]

/-- The byte 0x80 writes a tone period, which touches nothing that a run of the channels moves (41_psg_write.md
R170). -/
theorem effect_psgWr_tonePeriod (t : Time) (s : State) :
    (effect (.psgWr t 0x80) s).dbuf = (sync s t.toInt).dbuf ∧
    (effect (.psgWr t 0x80) s).psg.polarity = (sync s t.toInt).psg.polarity ∧
    (effect (.psgWr t 0x80) s).psg.chanDelta = (sync s t.toInt).psg.chanDelta ∧
    (effect (.psgWr t 0x80) s).psg.noiseShiftValue = (sync s t.toInt).psg.noiseShiftValue ∧
    (effect (.psgWr t 0x80) s).psg.clocks = (sync s t.toInt).psg.clocks ∧
    (effect (.psgWr t 0x80) s).psg.freqCounter = (sync s t.toInt).psg.freqCounter :=
  ⟨rfl, rfl, rfl, rfl, rfl, rfl⟩

theorem renderFrame_psg_eq_rebase (s : State) (T : Int) : (renderFrame s T).psg = rebase (sync s T).psg T := rfl

/-- The rebase takes the frame length off the times, in 64-bit words, and leaves the rest (42_psg_run.md R198). -/
theorem rebase_fields (g : Psg) (T : Int) :
    (rebase g T).polarity = g.polarity ∧ (rebase g T).chanDelta = g.chanDelta ∧
    (rebase g T).noiseShiftValue = g.noiseShiftValue ∧ (rebase g T).clocks = g.clocks - s64 T ∧
    ∀ ch, (rebase g T).freqCounter.get ch = g.freqCounter.get ch - s64 T := by
  have hword : ∀ v : Time, s64 (v.toInt - T) = v - s64 T := fun v => by rw [s64_sub, s64_toInt]
  refine ⟨rfl, rfl, rfl, hword _, fun ch => ?_⟩
  cases ch <;> exact hword _

theorem readSamples_cap (s : State) (count : Nat) : (readSamples s count).dbuf.cap = s.dbuf.cap := rfl

theorem renderFrame_cap (s : State) (T : Int) : (renderFrame s T).dbuf.cap = (sync s T).dbuf.cap := rfl

/-- The number of samples in the response is the one the read delivers. -/
theorem rspRender_count (d : Dbuf) (count : BitVec 32) (T : Int) :
    ((rspRender (readCount d count.toNat) T).setWidth 32).toNat = readCount d count.toNat := by
  have hlt : readCount d count.toNat < 2 ^ 32 := lt_of_le_of_lt (Nat.min_le_left _ _) count.isLt
  rw [rspRender_setWidth, BitVec.toNat_ofNat, Nat.mod_eq_of_lt hlt]

/-- One lane of the read of `PSG.REN`, over the slots that the channels' run leaves (42_psg_run.md R198,
40_delta_buffer.md R136). -/
theorem readSamples_renderFrame_lane {s : State} (hbuf : pairWf s.dbuf.buf) (hout : pairWf s.host.out) (T : Int)
    (count : Nat) (x : Lane) :
    (∀ j, ((readSamples (renderFrame s T) count).dbuf.buf.lane x).read j =
      ((sync s T).dbuf.buf.lane x).read (j + readCount (renderFrame s T).dbuf count)) ∧
    (readSamples (renderFrame s T) count).dbuf.integ.lane x =
      integAt ((sync s T).dbuf.buf.lane x) (s.dbuf.integ.lane x) (readCount (renderFrame s T).dbuf count) ∧
    ∀ i, i < readCount (renderFrame s T).dbuf count →
      ((readSamples (renderFrame s T) count).host.out.lane x).read i = s32 (((s.host.out.lane x).read i).toInt +
        pcm (integAt ((sync s T).dbuf.buf.lane x) (s.dbuf.integ.lane x) i)) := by
  have hslots := (Emits.sync s T).slots
  obtain ⟨-, -, -, -, -, hinteg⟩ := hslots.only.fields
  have hhost := renderFrame_host s T
  have hframeBuf : (renderFrame s T).dbuf.buf = (sync s T).dbuf.buf := rfl
  have hframeInteg : (renderFrame s T).dbuf.integ = s.dbuf.integ := hinteg
  have hwf : pairWf (renderFrame s T).dbuf.buf := hframeBuf ▸ hslots.wf hbuf
  obtain ⟨-, hcourse, hread⟩ := readSamples_lane hwf count x
  have hsamples := readSamples_out_read hwf (hhost ▸ hout) count x
  rw [hframeBuf, hframeInteg] at hcourse
  rw [hframeBuf] at hread
  refine ⟨hread, hcourse, fun i hi => ?_⟩
  rw [hsamples, if_pos hi, hframeBuf, hframeInteg, hhost]

/-- Settles O44: both commands run `sync` to the same time; what follows it in `PSG.REN` is the rebase and the read. -/
theorem renderRunsChannelsAndReads : Obligations.RenderRunsChannelsAndReads := by
  intro count s hunbounded hbuf hout hfits T
  obtain ⟨r, hwrite⟩ := exec_unbounded (.psgWr T 0x80) hunbounded
  have hsync : sync s T.toInt = sync s (clocksNeeded s.dbuf count.toNat) := sync_clocksNeeded hfits s
  obtain ⟨hdbuf, hpolarity, hdelta, hlfsr, hclocks, hcounter⟩ := effect_psgWr_tonePeriod T s
  obtain ⟨hpolarity', hdelta', hlfsr', hclocks', hcounter'⟩ :=
    rebase_fields (sync s (clocksNeeded s.dbuf count.toNat)).psg (clocksNeeded s.dbuf count.toNat)
  refine ⟨_, _, exec_psgRen_next count hunbounded, hwrite, ?_⟩
  rw [State.respond_psg, State.respond_psg, readSamples_psg, renderFrame_psg_eq_rebase, State.respond_dbuf,
    State.respond_dbuf, State.respond_host_out, State.respond_host_rsp, rspRender_count, hdbuf, hpolarity, hdelta,
    hlfsr, hclocks, hcounter, hsync]
  refine ⟨hpolarity', hdelta', hlfsr', hclocks', hcounter', ?_, readSamples_renderFrame_lane hbuf hout _ _⟩
  rw [readSamples_cap, renderFrame_cap]

/-- Settles O45: where nothing wraps the frame makes at least count samples readable. -/
theorem renderGivesCountSamples : Obligations.RenderGivesCountSamples := by
  intro count s hunbounded hfactor hfits
  have hreaches := clocksNeeded_reaches hfactor count.toNat
  have hmin := BitVec.le_toInt s.dbuf.offset
  have hended : (s.dbuf.offset + BitVec.ofInt 64 (clocksNeeded s.dbuf count.toNat) * s.dbuf.factor).toInt =
      s.dbuf.offset.toInt + clocksNeeded s.dbuf count.toNat * s.dbuf.factor.toInt := by
    rw [← endFrame_offset]
    exact s64_toInt_of_range (by omega) hfits
  have hcount : readCount (renderFrame s (clocksNeeded s.dbuf count.toNat)).dbuf count.toNat = count.toNat := by
    rw [readCount_renderFrame, hended]
    omega
  refine ⟨_, exec_psgRen_next count hunbounded, ?_⟩
  rw [State.respond_host_rsp, rspRender_setWidth, hcount]
  exact BitVec.ofNat_toNat _ _

end Sys2Proof.Proofs
end

section
/-! The PSG's reset, its configuration commands, and muting (42_psg_run.md R199 to R204). -/

namespace Sys2Proof.Proofs

open Sys2Proof Sys2Proof.Machine

/-! ### Reset and configuration -/

/-- The reset half-periods in 64-bit words (42_psg_run.md R199). -/
theorem resetPsg_freqInc (p : Params) (g : Psg) :
    (resetPsg p g).freqInc =
      ⟨BitVec.ofNat 64 (zeroFreq g.chipType * ratioOf p), BitVec.ofNat 64 (zeroFreq g.chipType * ratioOf p),
        BitVec.ofNat 64 (zeroFreq g.chipType * ratioOf p), BitVec.ofNat 64 (16 * ratioOf p)⟩ := by
  simp only [resetPsg, s64_natCast, noiseDiv]

/-- Settles O47: the reset values, the half-periods in 64-bit words and the seed as it is written in R199. -/
theorem psgRstValues : Obligations.PsgRstValues := by
  intro s R z
  have hratio : R = ratioOf s.params := rfl
  have hzero : z = zeroFreq s.psg.chipType := rfl
  have hreset : resetPsg s.params s.psg = { resetPsg s.params s.psg with
      freqInc := ⟨BitVec.ofNat 64 (z * R), BitVec.ofNat 64 (z * R), BitVec.ofNat 64 (z * R), BitVec.ofNat 64 (16 * R)⟩
      noiseShiftValue := seedOf s.psg.chipType } := by
    rw [hratio, hzero, ← resetPsg_freqInc, ← lfsrSeed_eq]
    rfl
  show complete (s.withPsg (resetPsg s.params s.psg)) 0 = _
  rw [hreset]
  rfl

/-- The mask of a width keeps the value modulo 2^width (42_psg_run.md R201). -/
theorem noiseMask_toNat (v : BitVec 16) (c : ChipType) :
    (v &&& BitVec.ofNat 16 (2 ^ noiseWidth c - 1)).toNat = v.toNat % 2 ^ noiseWidth c := by
  have hmask : (BitVec.ofNat 16 (2 ^ noiseWidth c - 1)).toNat = 2 ^ noiseWidth c - 1 := by cases c <;> rfl
  rw [BitVec.toNat_and, hmask, Nat.and_two_pow_sub_one_eq_mod]

/-- Settles O48: `PSG.RATE` and `DB.CFG` store the same rates; the mask of `PSG.CHIP` truncates. -/
theorem psgConfigurationCommands : Obligations.PsgConfigurationCommands := by
  intro s
  refine ⟨fun r => ⟨_, rfl, rfl⟩, fun c => ⟨_, rfl, ?_⟩, fun x => rfl⟩
  rw [noiseMask_toNat]
  cases c <;> rfl

/-! ### The channel of a mute -/

/-- An operand outside 0 to 3 names no channel (42_psg_run.md R203). -/
theorem muteChan_outside {k : BitVec 32} (h : k.toInt < 0 ∨ 3 < k.toInt) : muteChan k = none := by
  unfold muteChan
  rw [if_neg (by omega), if_neg (by omega), if_neg (by omega), if_neg (by omega)]

theorem muteChan_of_index {k : BitVec 32} {ch : Chan} (h : k.toInt = chanIndex ch) : muteChan k = some ch := by
  unfold muteChan
  rw [h]
  cases ch <;> rfl

theorem muteChannel_outside {k : BitVec 32} (h : k.toInt < 0 ∨ 3 < k.toInt) (s : State) (x : Bool) :
    muteChannel s k x = s := by
  rw [muteChannel, muteChan_outside h]

/-- A flag already at the value changes nothing (42_psg_run.md R203). -/
theorem muteChannel_same {k : BitVec 32} {ch : Chan} (h : k.toInt = chanIndex ch) {s : State} {x : Bool}
    (hx : s.psg.mutes.get ch = x) : muteChannel s k x = s := by
  rw [muteChannel, muteChan_of_index h]
  exact if_pos hx

theorem muteChannel_toggle {k : BitVec 32} {ch : Chan} (h : k.toInt = chanIndex ch) {s : State} {x : Bool}
    (hx : s.psg.mutes.get ch ≠ x) : muteChannel s k x = setMute s ch x := by
  rw [muteChannel, muteChan_of_index h]
  exact if_neg hx

/-! ### A new mute flag -/

/-- The amplitude of channel `ch` under mute flag `x` (41_psg_write.md R163). -/
def mutedAmp (p : Params) (g : Psg) (ch : Chan) (x : Bool) : Stereo Amp := amp p (withMute g ch x) ch

/-- The PSG with a new mute flag and the channel at its new amplitude, less the delta it may owe (42_psg_run.md
R203). -/
def muteWritten (p : Params) (g : Psg) (ch : Chan) (x : Bool) : Psg :=
  { withMute g ch x with chanOut := g.chanOut.set ch (mutedAmp p g ch x) }

/-- The PSG with a new mute flag, the channel at its new amplitude and the difference added to its pending delta
(42_psg_run.md R203, 41_psg_write.md R161). -/
def muteOwing (p : Params) (g : Psg) (ch : Chan) (x : Bool) : Psg :=
  { muteWritten p g ch x with
    chanDelta := g.chanDelta.set ch
      (addPair (g.chanDelta.get ch) (subPair (mutedAmp p g ch x) (g.chanOut.get ch))) }

/-- No mute flag decides "high" (41_psg_write.md R164). -/
theorem high_withMute (g : Psg) (ch : Chan) (x : Bool) (c : Chan) : high (withMute g ch x) c = high g c := by
  cases c <;> rfl

theorem setMute_low {s : State} {ch : Chan} (h : high s.psg ch = false) (x : Bool) :
    setMute s ch x = s.withPsg (muteWritten s.params s.psg ch x) := by
  have hlow : high (s.withPsg (withMute s.psg ch x)).psg ch = false := (high_withMute s.psg ch x ch).trans h
  rw [setMute_eq, setAmp_low hlow]
  rfl

theorem setMute_high_accurate {s : State} {ch : Chan} (h : high s.psg ch = true)
    (hv : s.params.variant = .accurate) (x : Bool) :
    setMute s ch x = s.withPsg (muteOwing s.params s.psg ch x) := by
  have hhigh : high (s.withPsg (withMute s.psg ch x)).psg ch = true := (high_withMute s.psg ch x ch).trans h
  rw [setMute_eq, setAmp_high_accurate hhigh hv]
  rfl

theorem setMute_high_baseline {s : State} {ch : Chan} (h : high s.psg ch = true)
    (hv : s.params.variant = .baseline) (x : Bool) :
    setMute s ch x = (emit s s.psg.clocks.toInt
      (subPair (mutedAmp s.params s.psg ch x) (s.psg.chanOut.get ch))).withPsg (muteWritten s.params s.psg ch x) := by
  have hhigh : high (s.withPsg (withMute s.psg ch x)).psg ch = true := (high_withMute s.psg ch x ch).trans h
  rw [setMute_eq, setAmp_high_baseline hhigh hv]
  rfl

/-- Settles O49: no channel, no change, and the three cases of `setAmp` under the new flag. -/
theorem psgMuteCases : Obligations.PsgMuteCases := by
  intro k x s
  have hexec : exec (.psgMute k x) s = completeWithin (muteChannel s k x) 0 := rfl
  refine ⟨fun hk hwithin => ?_, fun ch hk => ?_⟩
  · rw [hexec, muteChannel_outside hk, completeWithin_within hwithin]
  intro g new old pending g'
  refine ⟨fun hx hwithin => ?_, fun hx hlow hwithin => ?_, fun hx hhigh haccurate hwithin => ?_,
    fun hx hhigh hbaseline hunbounded => ?_⟩
  · rw [hexec, muteChannel_same hk hx, completeWithin_within hwithin]
  · rw [hexec, muteChannel_toggle hk hx, setMute_low hlow]
    exact completeWithin_withPsg hwithin _ 0
  · rw [hexec, muteChannel_toggle hk hx, setMute_high_accurate hhigh haccurate, muteOwing, addPair_eq,
      subPair_eq]
    exact completeWithin_withPsg hwithin _ 0
  · refine ⟨_, exec_deltaCmd_unbounded rfl hunbounded _ _, ?_⟩
    rw [hexec, muteChannel_toggle hk hx, setMute_high_baseline hhigh hbaseline, subPair_eq]
    exact completeWithin_unbounded (s := (emit s _ _).withPsg _) hunbounded 0

/-! ### Toggling back: the PSG -/

/-- An amplitude depends on the channel's flag and the registers only (41_psg_write.md R163). -/
theorem amp_congr (p : Params) {g g' : Psg} {ch : Chan} (hmutes : g'.mutes.get ch = g.mutes.get ch)
    (hregs : g'.regs = g.regs) : amp p g' ch = amp p g ch := by
  unfold amp
  rw [hmutes, hregs]

/-- Under the flag a channel already has, its amplitude is the present one. -/
theorem mutedAmp_self (p : Params) (g : Psg) (ch : Chan) : mutedAmp p g ch (g.mutes.get ch) = amp p g ch := by
  rw [mutedAmp, withMute, Quad.set_get_self]

/-- The amplitude under a flag does not depend on the flag before. -/
theorem mutedAmp_muteWritten (p : Params) (g : Psg) (ch : Chan) (x y : Bool) :
    mutedAmp p (muteWritten p g ch x) ch y = mutedAmp p g ch y := by
  refine amp_congr p ?_ rfl
  show (Quad.set _ ch y).get ch = (Quad.set _ ch y).get ch
  rw [Quad.get_set_same, Quad.get_set_same]

/-- The flag put back puts the amplitude back (42_psg_run.md R204). -/
theorem muteWritten_back {p : Params} {g : Psg} {ch : Chan} (hout : g.chanOut.get ch = amp p g ch) (x : Bool) :
    muteWritten p (muteWritten p g ch x) ch (g.mutes.get ch) = g := by
  have hmutes : (g.mutes.set ch x).set ch (g.mutes.get ch) = g.mutes := by rw [Quad.set_set, Quad.set_get_self]
  have hchanOut : (g.chanOut.set ch (mutedAmp p g ch x)).set ch
      (mutedAmp p (muteWritten p g ch x) ch (g.mutes.get ch)) = g.chanOut := by
    rw [mutedAmp_muteWritten, mutedAmp_self, ← hout, Quad.set_set, Quad.set_get_self]
  show { g with
    mutes := (g.mutes.set ch x).set ch (g.mutes.get ch)
    chanOut := (g.chanOut.set ch (mutedAmp p g ch x)).set ch
      (mutedAmp p (muteWritten p g ch x) ch (g.mutes.get ch)) } = g
  rw [hmutes, hchanOut]

/-! ### Toggling back: the slots -/

/-- The delta command of the PSG's path does what `emit` does (41_psg_write.md R165). -/
theorem effect_deltaCmd_eq_emit (s : State) (t : Time) (d : Stereo Amp) :
    effect (deltaCmd s.psg t d) s = emit s t.toInt d := by
  unfold deltaCmd emit
  cases s.psg.hqMode <;> rfl

theorem emit_buf_lane (s : State) (t : Time) (d : Stereo Amp) (x : Lane) :
    (emit s t.toInt d).dbuf.buf.lane x =
      addAll (deltaAdditions s.psg.hqMode s.params.kernel (fixedTime s.dbuf t.toInt) (d.lane x).toInt)
        (s.dbuf.buf.lane x) := by
  rw [← effect_deltaCmd_eq_emit, effect_deltaCmd_lane]

theorem deltaAdditions_neg (hq : Bool) (kernel : List (List Int)) (f : Nat) (d : Int) :
    deltaAdditions hq kernel f (-d) = negated (deltaAdditions hq kernel f d) := by
  cases hq with
  | true => exact tapList_neg kernel f d
  | false =>
    have hfirst : -d * 32768 - -d * fastWeight f = -(d * 32768 - d * fastWeight f) := by ring
    have hsecond : -d * fastWeight f = -(d * fastWeight f) := Int.neg_mul _ _
    show [(_, -d * 32768 - -d * fastWeight f), (_, -d * fastWeight f)] = _
    rw [hfirst, hsecond]
    rfl

/-- A delta and then the opposite one at the same time leave the slots as they were, by either path (40_delta_buffer.md
R144). -/
theorem emit_opposite_buf {s s' : State} {t : Time} {d d' : Stereo Amp} (hwf : pairWf s.dbuf.buf)
    (hhq : s'.psg.hqMode = s.psg.hqMode) (hparams : s'.params = s.params) (hdbuf : s'.dbuf = (emit s t.toInt d).dbuf)
    (hneg : ∀ x : Lane, (d'.lane x).toInt = -(d.lane x).toInt) : (emit s' t.toInt d').dbuf.buf = s.dbuf.buf := by
  obtain ⟨hfactor, hoffset, -⟩ := (emit_slots s t.toInt d).only.fields
  refine Stereo.ext_lane fun x => ?_
  rw [emit_buf_lane, hhq, hparams, hdbuf, fixedTime_congr hfactor hoffset, hneg, deltaAdditions_neg, emit_buf_lane]
  exact addAll_negated _ (hwf x)

/-! ### Toggling back: the difference of the amplitudes -/

/-- VOLTAB falls (10_state.md R63), so its first entry is the largest. -/
theorem voltab_le_first {p : Params} (h : p.wf = true) {a : Nat} (ha : a ≤ 15) :
    p.voltab.getD a 0 ≤ p.voltab.getD 0 0 := by
  simp only [Params.wf, Params.voltabOk, Bool.and_eq_true, List.all_eq_true, decide_eq_true_eq] at h
  obtain ⟨⟨⟨-, ⟨-, hfalls⟩, -⟩, -⟩, -⟩ := h
  induction a with
  | zero => exact le_refl _
  | succ a ih => exact (hfalls a (List.mem_range.mpr (by omega))).trans (ih (by omega))

/-- The loudest channel stays inside the PCM range (10_state.md R63, entry 24). -/
theorem loudest_le {p : Params} (h : p.wf = true) (ch : Chan) (x : Lane) :
    p.voltab.getD 0 0 * (p.pan.get ch).lane x / 100 ≤ 32767 := by
  simp only [Params.wf, Params.voltabOk, Bool.and_eq_true, List.all_eq_true, decide_eq_true_eq, List.mem_cons,
    List.not_mem_nil, or_false, forall_eq_or_imp, forall_eq] at h
  obtain ⟨⟨⟨-, -, h0, h1, h2, h3⟩, -⟩, -⟩ := h
  have hmax : 4 * p.voltab.getD 0 0 * max (p.pan.get ch).l (p.pan.get ch).r / 100 ≤ 32767 := by
    cases ch with
    | c0 => exact h0
    | c1 => exact h1
    | c2 => exact h2
    | c3 => exact h3
  have hlane : (p.pan.get ch).lane x ≤ max (p.pan.get ch).l (p.pan.get ch).r := by
    cases x with
    | left => exact le_max_left _ _
    | right => exact le_max_right _ _
  refine (Nat.div_le_div_right (Nat.mul_le_mul ?_ hlane)).trans hmax
  omega

/-- An amplitude is a number from 0 to 32767 (10_state.md R63). -/
theorem amp_lane_bounds {p : Params} (h : p.wf = true) (g : Psg) (ch : Chan) (x : Lane) :
    0 ≤ ((amp p g ch).lane x).toInt ∧ ((amp p g ch).lane x).toInt ≤ 32767 := by
  obtain ⟨hmuted, hsounding⟩ := ampFollowsTable p g ch x
  cases hm : g.mutes.get ch with
  | true =>
    rw [hmuted hm]
    decide
  | false =>
    have hle : p.voltab.getD (g.regs.att ch).toNat 0 * (p.pan.get ch).lane x / 100 ≤ 32767 :=
      (Nat.div_le_div_right (Nat.mul_le_mul_right _ (voltab_le_first h (by omega)))).trans (loudest_le h ch x)
    rw [hsounding hm, ← s32_natCast, s32, BitVec.toInt_ofInt_eq_self (by decide) (by omega) (by omega)]
    omega

/-- The difference of two amplitudes does not wrap, so turning it round negates it (44_common_laws.md R245). -/
theorem subPair_amp_neg {p : Params} (h : p.wf = true) (g g' : Psg) (ch : Chan) (x : Lane) :
    ((subPair (amp p g ch) (amp p g' ch)).lane x).toInt = -((subPair (amp p g' ch) (amp p g ch)).lane x).toInt := by
  have hdiff : ∀ a b : Psg, ((subPair (amp p a ch) (amp p b ch)).lane x).toInt =
      ((amp p a ch).lane x).toInt - ((amp p b ch).lane x).toInt := by
    intro a b
    obtain ⟨halo, hahi⟩ := amp_lane_bounds h a ch x
    obtain ⟨hblo, hbhi⟩ := amp_lane_bounds h b ch x
    rw [subPair_lane, BitVec.toInt_sub, Int.bmod_eq_of_le (by omega) (by omega)]
  rw [hdiff, hdiff]
  omega

/-! ### Toggling back: the statement -/

/-- A difference and the opposite one leave what is pending as it was (41_psg_write.md R161). -/
theorem addPair_subPair_cancel (pending a b : Stereo Amp) :
    addPair (addPair pending (subPair a b)) (subPair b a) = pending := by
  refine Stereo.ext_lane fun x => ?_
  rw [addPair_lane, addPair_lane, subPair_lane, subPair_lane]
  ring

/-- The difference owed when the flag goes back is the opposite of the one owed before: by `mutedAmp_muteWritten` the
two amplitudes have changed places. -/
theorem subPair_back {p : Params} {g : Psg} {ch : Chan} (hout : g.chanOut.get ch = amp p g ch) (x : Bool) :
    subPair (mutedAmp p (muteWritten p g ch x) ch (g.mutes.get ch)) ((muteWritten p g ch x).chanOut.get ch) =
      subPair (g.chanOut.get ch) (mutedAmp p g ch x) := by
  have hnew : (muteWritten p g ch x).chanOut.get ch = mutedAmp p g ch x := Quad.get_set_same _ _ _
  rw [mutedAmp_muteWritten, mutedAmp_self, hnew, hout]

/-- The flag put back takes back what was added to the pending delta (42_psg_run.md R204). -/
theorem muteOwing_back {p : Params} {g : Psg} {ch : Chan} (hout : g.chanOut.get ch = amp p g ch) (x : Bool) :
    muteOwing p (muteOwing p g ch x) ch (g.mutes.get ch) = g := by
  have hfirst : (muteOwing p g ch x).chanDelta = g.chanDelta.set ch
      (addPair (g.chanDelta.get ch) (subPair (mutedAmp p g ch x) (g.chanOut.get ch))) := rfl
  have hpending : (muteOwing p g ch x).chanDelta.set ch (addPair ((muteOwing p g ch x).chanDelta.get ch)
      (subPair (mutedAmp p (muteWritten p g ch x) ch (g.mutes.get ch)) ((muteWritten p g ch x).chanOut.get ch))) =
      g.chanDelta := by
    rw [subPair_back hout, hfirst, Quad.get_set_same, addPair_subPair_cancel, Quad.set_set, Quad.set_get_self]
  calc muteOwing p (muteOwing p g ch x) ch (g.mutes.get ch)
      = { muteWritten p (muteWritten p g ch x) ch (g.mutes.get ch) with
          chanDelta := (muteOwing p g ch x).chanDelta.set ch (addPair ((muteOwing p g ch x).chanDelta.get ch)
            (subPair (mutedAmp p (muteWritten p g ch x) ch (g.mutes.get ch))
              ((muteWritten p g ch x).chanOut.get ch))) } := rfl
    _ = g := by rw [hpending, muteWritten_back hout]

section
variable {s s' : State} {ch : Chan} {x : Bool} (hinv : s.Inv) (hparams : s'.params = s.params)
  (hpsg : s'.psg = (setMute s ch x).psg) (hdbuf : s'.dbuf = (setMute s ch x).dbuf)

include hinv hparams hpsg hdbuf

theorem setMute_back_low (hlow : high s.psg ch = false) :
    (setMute s' ch (s.psg.mutes.get ch)).psg = s.psg ∧
    (setMute s' ch (s.psg.mutes.get ch)).dbuf.buf = s.dbuf.buf := by
  rw [setMute_low hlow, State.withPsg_psg] at hpsg
  rw [setMute_low hlow, State.withPsg_dbuf] at hdbuf
  have hlow' : high s'.psg ch = false := by
    rw [hpsg]
    exact (high_withMute s.psg ch x ch).trans hlow
  rw [setMute_low hlow', State.withPsg_psg, State.withPsg_dbuf, hparams, hpsg, hdbuf]
  exact ⟨muteWritten_back (hinv.outIsAmp ch) x, rfl⟩

/-- In BASELINE the second delta is the opposite of the first, at the same time. -/
theorem setMute_back_baseline (hhigh : high s.psg ch = true) (hv : s.params.variant = .baseline) :
    (setMute s' ch (s.psg.mutes.get ch)).psg = s.psg ∧
    (setMute s' ch (s.psg.mutes.get ch)).dbuf.buf = s.dbuf.buf := by
  have hout := hinv.outIsAmp ch
  rw [setMute_high_baseline hhigh hv, State.withPsg_psg] at hpsg
  rw [setMute_high_baseline hhigh hv, State.withPsg_dbuf] at hdbuf
  have hhigh' : high s'.psg ch = true := by
    rw [hpsg]
    exact (high_withMute s.psg ch x ch).trans hhigh
  have hclocks : s'.psg.clocks = s.psg.clocks := by rw [hpsg]; rfl
  have hhq : s'.psg.hqMode = s.psg.hqMode := by rw [hpsg]; rfl
  rw [setMute_high_baseline hhigh' (hparams ▸ hv), State.withPsg_psg, State.withPsg_dbuf, hclocks, hparams]
  constructor
  · rw [hpsg]
    exact muteWritten_back hout x
  · refine emit_opposite_buf hinv.bufWf hhq hparams hdbuf fun y => ?_
    rw [hpsg, subPair_back hout, hout]
    exact subPair_amp_neg hinv.params _ _ ch y

/-- In ACCURATE the second difference takes back what the first added to `chanDelta`. -/
theorem setMute_back_accurate (hhigh : high s.psg ch = true) (hv : s.params.variant = .accurate) :
    (setMute s' ch (s.psg.mutes.get ch)).psg = s.psg ∧
    (setMute s' ch (s.psg.mutes.get ch)).dbuf.buf = s.dbuf.buf := by
  rw [setMute_high_accurate hhigh hv, State.withPsg_psg] at hpsg
  rw [setMute_high_accurate hhigh hv, State.withPsg_dbuf] at hdbuf
  have hhigh' : high s'.psg ch = true := by
    rw [hpsg]
    exact (high_withMute s.psg ch x ch).trans hhigh
  rw [setMute_high_accurate hhigh' (hparams ▸ hv), State.withPsg_psg, State.withPsg_dbuf, hdbuf, hparams, hpsg]
  exact ⟨muteOwing_back (hinv.outIsAmp ch) x, rfl⟩

end

/-- A toggle and the toggle back restore the PSG and the slots; a response between them does not matter (42_psg_run.md
R204). -/
theorem setMute_setMute {s : State} (hinv : s.Inv) (ch : Chan) (x : Bool) (r : BitVec 64) :
    (setMute ((setMute s ch x).respond r) ch (s.psg.mutes.get ch)).psg = s.psg ∧
    (setMute ((setMute s ch x).respond r) ch (s.psg.mutes.get ch)).dbuf.buf = s.dbuf.buf := by
  have hparams : ((setMute s ch x).respond r).params = s.params := (Emits.setMute s ch x).params
  cases hhigh : high s.psg ch with
  | false => exact setMute_back_low hinv hparams rfl rfl hhigh
  | true =>
    cases hv : s.params.variant with
    | baseline => exact setMute_back_baseline hinv hparams rfl rfl hhigh hv
    | accurate => exact setMute_back_accurate hinv hparams rfl rfl hhigh hv

/-- Settles O50: the second command toggles back what the first one toggled. -/
theorem muteTwiceRestores : Obligations.MuteTwiceRestores := by
  intro k ch s hk hinv hunbounded
  obtain ⟨r, r', hrun⟩ := andThen_exec_unbounded (.psgMute k (!s.psg.mutes.get ch)) (.psgMute k (s.psg.mutes.get ch))
    hunbounded
  obtain ⟨hpsg, hbuf⟩ := setMute_setMute hinv ch (!s.psg.mutes.get ch) r
  have hfirst : effect (.psgMute k (!s.psg.mutes.get ch)) s = setMute s ch (!s.psg.mutes.get ch) :=
    muteChannel_toggle hk (by simp)
  have hflag : ((setMute s ch (!s.psg.mutes.get ch)).respond r).psg.mutes.get ch ≠ s.psg.mutes.get ch := by
    rw [State.respond_psg, (setMute_onlyAmp s ch _).mutes, withMute, Quad.get_set_same]
    simp
  have hsecond : effect (.psgMute k (s.psg.mutes.get ch)) ((setMute s ch (!s.psg.mutes.get ch)).respond r) =
      setMute ((setMute s ch (!s.psg.mutes.get ch)).respond r) ch (s.psg.mutes.get ch) := muteChannel_toggle hk hflag
  rw [hfirst, hsecond] at hrun
  exact ⟨_, hrun, hpsg, hbuf⟩

end Sys2Proof.Proofs
end

section
/-! The resampler and the other units share nothing (43_resampler.md R230). Replacing one side's state before an
instruction of the other side is replacing it afterwards: `f (s.withRs r) = (f s).withRs r` for the delta buffer and the
PSG, the same with `withDbuf` and `withPsg` for the resampler. Taken at the state's own unit, such an equation says that
the unit is not written. -/

namespace Sys2Proof.Proofs

open Sys2Proof Sys2Proof.Machine

/-! ### Running the channels reads no resampler state -/

theorem flush_withRs (s : State) (r : Rs) (ch : Chan) : flush (s.withRs r) ch = (flush s ch).withRs r := by
  unfold flush
  rw [State.withRs_psg]
  split <;> rfl

theorem toneFlip_withRs (ch : Tone) (ts : Time) (s : State) (r : Rs) :
    toneFlip ch ts (s.withRs r) = (toneFlip ch ts s).withRs r := rfl

theorem toneLoop_withRs (ch : Tone) (n : Nat) (ts : Time) (s : State) (r : Rs) :
    toneLoop ch n ts (s.withRs r) = (toneLoop ch n ts s).withRs r := by
  induction n generalizing ts s with
  | zero => rfl
  | succ n ih =>
    rw [toneLoop, toneFlip_withRs]
    exact ih (nextFlip s ch.chan ts) (toneFlip ch ts s)

theorem runTone_withRs (s : State) (r : Rs) (ch : Tone) (target : Int) :
    runTone (s.withRs r) ch target = (runTone s ch target).withRs r := toneLoop_withRs ch _ _ s r

theorem noiseFlip_withRs (ts : Time) (s : State) (r : Rs) :
    noiseFlip ts (s.withRs r) = (noiseFlip ts s).withRs r := by
  unfold noiseFlip
  rw [State.withRs_psg]
  cases s.psg.polarity.q3.flip with
  | minus => rfl
  | plus => rfl

theorem noiseLoop_withRs (n : Nat) (ts : Time) (s : State) (r : Rs) :
    noiseLoop n ts (s.withRs r) = (noiseLoop n ts s).withRs r := by
  induction n generalizing ts s with
  | zero => rfl
  | succ n ih =>
    rw [noiseLoop, noiseFlip_withRs]
    exact ih (nextFlip s .c3 ts) (noiseFlip ts s)

theorem runNoise_withRs (s : State) (r : Rs) (target : Int) :
    runNoise (s.withRs r) target = (runNoise s target).withRs r := noiseLoop_withRs _ _ s r

theorem psgUpdate_withRs (s : State) (r : Rs) (target : Int) :
    psgUpdate (s.withRs r) target = (psgUpdate s target).withRs r := by
  simp only [psgUpdate, flush_withRs, runTone_withRs, runNoise_withRs]

theorem sync_withRs (s : State) (r : Rs) (t : Int) : sync (s.withRs r) t = (sync s t).withRs r := by
  rcases lt_or_ge s.psg.clocks.toInt t with hlt | hge
  · rw [sync_of_lt hlt, sync_of_lt (s := s.withRs r) hlt, psgUpdate_withRs]
    rfl
  · rw [sync_of_le hge, sync_of_le (s := s.withRs r) hge]

/-! ### Register writes read no resampler state -/

theorem owe_withRs (s : State) (r : Rs) (ch : Chan) (x : Stereo Amp) :
    owe (s.withRs r) ch x = (owe s ch x).withRs r := by
  cases hv : s.params.variant with
  | baseline =>
    rw [owe_baseline hv, owe_baseline (s := s.withRs r) hv]
    rfl
  | accurate =>
    rw [owe_accurate hv, owe_accurate (s := s.withRs r) hv]
    rfl

theorem setAmp_withRs (s : State) (r : Rs) (ch : Chan) (new : Stereo Amp) :
    setAmp (s.withRs r) ch new = (setAmp s ch new).withRs r := by
  unfold setAmp
  rw [State.withRs_psg, owe_withRs]
  split <;> rfl

theorem setNoise_withRs (s : State) (r : Rs) : setNoise (s.withRs r) = (setNoise s).withRs r := by
  rw [setNoise_eq, setNoise_eq, show noiseIncOf (s.withRs r) = noiseIncOf s from rfl, State.withRs_psg,
    State.withRs_withPsg, owe_withRs]
  split <;> rfl

theorem writePeriod_withRs (s : State) (r : Rs) (ch : Tone) (v : BitVec 10) :
    writePeriod (s.withRs r) ch v = (writePeriod s ch v).withRs r := rfl

theorem writeAtt_withRs (s : State) (r : Rs) (ch : Chan) (v : BitVec 4) :
    writeAtt (s.withRs r) ch v = (writeAtt s ch v).withRs r := setAmp_withRs (s.withPsg (withAtt s.psg ch v)) r ch _

theorem writeNoise_withRs (s : State) (r : Rs) (v : BitVec 3) :
    writeNoise (s.withRs r) v = (writeNoise s v).withRs r := setNoise_withRs (s.withPsg (withNoiseCtrl s.psg v)) r

theorem setMute_withRs (s : State) (r : Rs) (ch : Chan) (x : Bool) :
    setMute (s.withRs r) ch x = (setMute s ch x).withRs r := setAmp_withRs (s.withPsg (withMute s.psg ch x)) r ch _

theorem muteChannel_withRs (s : State) (r : Rs) (ch : BitVec 32) (x : Bool) :
    muteChannel (s.withRs r) ch x = (muteChannel s ch x).withRs r := by
  unfold muteChannel
  split
  · rfl
  · rw [State.withRs_psg, setMute_withRs]
    split <;> rfl

theorem applyForm_withRs (i : Instr) (s : State) (r : Rs) :
    applyForm i (s.withRs r) = (applyForm i s).withRs r := by
  cases i with
  | latch0 | latch2 | latch4 => exact writePeriod_withRs (setLatch s _) r _ _
  | latch1 | latch3 | latch5 | latch7 => exact writeAtt_withRs (setLatch s _) r _ _
  | latch6 => exact writeNoise_withRs (setLatch s _) r _
  | data0 | data2 | data4 => exact writePeriod_withRs s r _ _
  | data1 | data3 | data5 | data7 => exact writeAtt_withRs s r _ _
  | data6 => exact writeNoise_withRs s r _
  | _ => rfl

theorem writeByte_withRs (b : BitVec 8) (s : State) (r : Rs) :
    writeByte b (s.withRs r) = (writeByte b s).withRs r := applyForm_withRs _ s r

/-! ### Instructions of the delta buffer and the PSG -/

theorem renderFrame_withRs (s : State) (r : Rs) (T : Int) :
    renderFrame (s.withRs r) T = (renderFrame s T).withRs r := by
  unfold renderFrame
  rw [sync_withRs]
  rfl

theorem effect_withRs {i : Instr} (h : isResampler i = false) (s : State) (r : Rs) :
    effect i (s.withRs r) = (effect i s).withRs r := by
  cases i with
  | rsCfg | rsPush | rsHas | rsPop | rsRen => exact absurd h.symm Bool.false_ne_true
  | psgWr t b =>
    show writeByte b (sync (s.withRs r) t.toInt) = _
    rw [sync_withRs, writeByte_withRs]
    rfl
  | psgRen n =>
    show readSamples (renderFrame (s.withRs r) (clocksNeeded s.dbuf n.toNat)) n.toNat = _
    rw [renderFrame_withRs]
    rfl
  | psgMute ch x => exact muteChannel_withRs s r ch x
  | latch0 | latch1 | latch2 | latch3 | latch4 | latch5 | latch6 | latch7 | data0 | data1 | data2 | data3 | data4
  | data5 | data6 | data7 =>
    rw [effect_of_isByteForm rfl, effect_of_isByteForm rfl]
    exact applyForm_withRs _ s r
  | _ => rfl

/-- With another resampler the command completes by the same rule, and with the same response. -/
theorem exec_completes_withRs {i : Instr} (h : isResampler i = false) (s : State) (r : Rs) :
    ∃ v, (exec i s = completeWithin (effect i s) v ∧
        exec i (s.withRs r) = completeWithin (effect i (s.withRs r)) v) ∨
      (exec i s = complete (effect i s) v ∧ exec i (s.withRs r) = complete (effect i (s.withRs r)) v) := by
  cases i with
  | rsCfg | rsPush | rsHas | rsPop | rsRen => exact absurd h.symm Bool.false_ne_true
  | psgRen n =>
    have hdbuf : (renderFrame (s.withRs r) (clocksNeeded s.dbuf n.toNat)).dbuf =
        (renderFrame s (clocksNeeded s.dbuf n.toNat)).dbuf := by
      rw [renderFrame_withRs, State.withRs_dbuf]
    refine ⟨_, .inl ⟨rfl, ?_⟩⟩
    rw [← hdbuf]
    rfl
  | dbAdd | dbAddf | psgWr | psgMute | latch1 | latch3 | latch5 | latch6 | latch7 | data1 | data3 | data5 | data6
  | data7 => exact ⟨0, .inl ⟨rfl, rfl⟩⟩
  | _ => exact ⟨_, .inr ⟨rfl, rfl⟩⟩

/-- `completeWithin` looks at the parameters and the record of the largest need only. -/
theorem completeWithin_next_withRs {s t : State} {v : BitVec 64} (h : completeWithin s v = .next t) (r : Rs) :
    completeWithin (s.withRs r) v = .next (t.withRs r) := by
  obtain ⟨rfl, hwithin⟩ := completeWithin_next h
  exact completeWithin_within (s := s.withRs r) hwithin v

/-- A command of another unit does in the state with another resampler what it does in the state itself. -/
theorem exec_withRs {i : Instr} (h : isResampler i = false) {s t : State} (ht : exec i s = .next t) (r : Rs) :
    exec i (s.withRs r) = .next (t.withRs r) := by
  obtain ⟨v, ⟨hs, hs'⟩ | ⟨hs, hs'⟩⟩ := exec_completes_withRs h s r
  · rw [hs', effect_withRs h]
    exact completeWithin_next_withRs (hs.symm.trans ht) r
  · rw [hs', effect_withRs h, complete_next (hs.symm.trans ht)]
    rfl

/-! ### Instructions of the resampler -/

/-- The pair that a `generateSample` request returns: the front of the queue, or the free value (entry 6). -/
def nextAnswer (h : HostSide) : Stereo Sample := h.answers.headD (Config.hostAnswer h.pulled)

theorem generateSample_eq (h : HostSide) :
    generateSample h = (nextAnswer h, { h with answers := h.answers.drop 1, pulled := h.pulled + 1 }) := by
  unfold generateSample nextAnswer
  split
  · next hq => rw [hq]; rfl
  · next hq => rw [hq]; rfl

theorem rsPull_eq (s : State) :
    rsPull s = (s.withHost { s.host with answers := s.host.answers.drop 1, pulled := s.host.pulled + 1 }).withRs
      (rsPush s.rs (nextAnswer s.host)) := by
  rw [rsPull, generateSample_eq]

section

/-! What the turns of `RS.REN` do not look at, they carry along: an update `u` that leaves the resampler and commutes
with a pull and with an emit commutes with the whole loop. -/

variable {u : State → State} (hrs : ∀ s, (u s).rs = s.rs) (hpull : ∀ s, rsPull (u s) = u (rsPull s))
  (hemit : ∀ i s, rsEmit i (u s) = u (rsEmit i s))

include hpull in
theorem rsPulls_commute (k : Nat) (s : State) : rsPulls k (u s) = u (rsPulls k s) := by
  induction k generalizing s with
  | zero => rfl
  | succ k ih => rw [rsPulls, hpull, ih, rsPulls]

include hrs hpull hemit in
theorem rsLoop_commute (n i : Nat) (s : State) : rsLoop n i (u s) = u (rsLoop n i s) := by
  induction n generalizing i s with
  | zero => rfl
  | succ n ih => rw [rsLoop, hrs, rsPulls_commute hpull, hemit, ih, rsLoop]

end

theorem rsLoop_withDbuf_withPsg (n i : Nat) (s : State) (d : Dbuf) (g : Psg) :
    rsLoop n i ((s.withDbuf d).withPsg g) = ((rsLoop n i s).withDbuf d).withPsg g :=
  rsLoop_commute (u := fun s => (s.withDbuf d).withPsg g) (fun _ => rfl)
    (fun s => by simp only [rsPull_eq]; rfl) (fun _ _ => rfl) n i s

theorem rsLoop_respond (n i : Nat) (s : State) (v : BitVec 64) :
    rsLoop n i (s.respond v) = (rsLoop n i s).respond v :=
  rsLoop_commute (u := fun s => s.respond v) (fun _ => rfl)
    (fun s => by simp only [rsPull_eq]; rfl) (fun _ _ => rfl) n i s

/-- A resampler command does beside another delta buffer and another PSG what it does beside the state's own. -/
theorem exec_withDbuf_withPsg {i : Instr} (h : isResampler i = true) {s t : State} (ht : exec i s = .next t)
    (d : Dbuf) (g : Psg) : exec i ((s.withDbuf d).withPsg g) = .next ((t.withDbuf d).withPsg g) := by
  cases i with
  | rsCfg | rsPush | rsHas | rsPop =>
    obtain rfl := complete_next ht
    rfl
  | rsRen n =>
    obtain rfl := complete_next ht
    show complete (rsLoop n.toNat 0 ((s.withDbuf d).withPsg g)) 0 = _
    rw [rsLoop_withDbuf_withPsg]
    rfl
  | _ => exact absurd h Bool.false_ne_true

/-- Settles O59: each side's commands carry the other side's state along, so they neither write nor read it. -/
theorem resamplerIsIndependent : Obligations.ResamplerIsIndependent := by
  intro i s t ht
  refine ⟨fun hi => ?_, fun hi => ?_⟩
  · have hown : t = (t.withDbuf s.dbuf).withPsg s.psg :=
      Host.Outcome.next.inj (ht.symm.trans (exec_withDbuf_withPsg hi ht s.dbuf s.psg))
    exact ⟨(congrArg State.dbuf hown :), (congrArg State.psg hown :), exec_withDbuf_withPsg hi ht⟩
  · have hown : t = t.withRs s.rs := Host.Outcome.next.inj (ht.symm.trans (exec_withRs hi ht s.rs))
    exact ⟨(congrArg State.rs hown :), exec_withRs hi ht⟩

end Sys2Proof.Proofs
end

section
/-! The resampler's commands on one sample: `RS.CFG`, `RS.PUSH`, `RS.HAS` and `RS.POP` (43_resampler.md R233 to R236),
and the unit gain of the SINC rows (R239). -/

namespace Sys2Proof.Proofs

open Sys2Proof Sys2Proof.Machine

/-! ### `RS.CFG`, `RS.PUSH` and `RS.HAS` -/

/-- The step needs no 64-bit wrap: it is below 2^52 (43_resampler.md R233). -/
theorem rsStepOf_toNat (i o : BitVec 32) :
    (rsStepOf i o).toNat = if o.toNat = 0 then 0 else i.toNat * 2 ^ 20 / o.toNat := by
  unfold rsStepOf
  by_cases ho : o = 0
  · subst ho
    rfl
  · have hpos : o.toNat ≠ 0 := fun h => ho (BitVec.eq_of_toNat_eq h)
    have hquot : ((i.toNat : Int) * 2 ^ 20 / o.toNat) = ((i.toNat * 2 ^ 20 / o.toNat : Nat) : Int) := by push_cast; rfl
    have hle : i.toNat * 2 ^ 20 / o.toNat ≤ i.toNat * 2 ^ 20 := Nat.div_le_self _ _
    have hi := i.isLt
    rw [if_neg ho, if_neg hpos, hquot, s64_natCast, BitVec.toNat_ofNat, Nat.mod_eq_of_lt (by omega)]

/-- Settles O52: the new step fits 64 bits, and the cleared history is a pair of empty memories. -/
theorem rsCfgRestarts : Obligations.RsCfgRestarts := by
  intro i o s
  refine ⟨_, rfl, rsStepOf_toNat i o, rfl, rfl, fun x j => ?_⟩
  cases x with
  | left => exact Memory.read_nil j
  | right => exact Memory.read_nil j

/-- Settles O53: the ring after `rsPush` and its count. -/
theorem rsPushStoresOneSample : Obligations.RsPushStoresOneSample := by
  intro l r s hwf
  obtain ⟨-, hread⟩ := rsPush_hist hwf ⟨l, r⟩
  refine ⟨(rsPush s.rs ⟨l, r⟩).hist, ?_, hread⟩
  rw [← rsPush_rsWr s.rs ⟨l, r⟩]
  rfl

theorem rsHas_iff (r : Rs) : rsHas r = true ↔ r.rsPos.toNat / 2 ^ 20 + 9 ≤ r.rsWr.toNat := decide_eq_true_iff

/-- Settles O54: `rspFlag` of the comparison. -/
theorem rsHasReturnsFlag : Obligations.RsHasReturnsFlag := by
  intro s
  show complete s (rspFlag (rsHas s.rs)) = _
  simp only [complete, rspFlag, rsHas_iff]

/-! ### The response of `RS.POP` -/

theorem rsAdvance_eq (r : Rs) : rsAdvance r = { r with rsPos := r.rsPos + r.rsStep } := by
  rw [← rsAdvance_rsPos]
  rfl

theorem exec_rsPop_next (s : State) :
    exec .rsPop s = .next ((s.withRs { s.rs with rsPos := s.rs.rsPos + s.rs.rsStep }).respond
      (rspPair (rsPopValue s.rs))) := by
  rw [← rsAdvance_eq]
  rfl

/-- The two samples stand side by side, so the sum needs no 64-bit wrap (30_encoding.md R101). -/
theorem rspPair_toNat (x : Stereo Sample) : (rspPair x).toNat = x.r.toNat * 2 ^ 16 + x.l.toNat := by
  have hl := x.l.isLt
  have hr := x.r.isLt
  rw [rspPair, BitVec.toNat_ofNat, Nat.mod_eq_of_lt (by omega)]

theorem rspPair_eq_append (x : Stereo Sample) : rspPair x = (0#32 ++ x.r ++ x.l : BitVec 64) := by
  have hl := x.l.isLt
  apply BitVec.eq_of_toNat_eq
  rw [rspPair_toNat, BitVec.toNat_append, BitVec.toNat_append, ← Nat.shiftLeft_add_eq_or_of_lt hl,
    Nat.shiftLeft_eq, BitVec.toNat_ofNat, Nat.zero_mod, Nat.zero_shiftLeft, Nat.zero_or]

theorem rspPair_lt (x : Stereo Sample) : (rspPair x).toNat < 2 ^ 32 := by
  have hl := x.l.isLt
  have hr := x.r.isLt
  rw [rspPair_toNat]
  omega

theorem rspPair_low (x : Stereo Sample) : (rspPair x).extractLsb' 0 16 = x.l := by
  have hl := x.l.isLt
  apply BitVec.eq_of_toNat_eq
  rw [BitVec.extractLsb'_toNat, rspPair_toNat, Nat.shiftRight_zero]
  omega

theorem rspPair_high (x : Stereo Sample) : (rspPair x).extractLsb' 16 16 = x.r := by
  have hl := x.l.isLt
  have hr := x.r.isLt
  apply BitVec.eq_of_toNat_eq
  rw [BitVec.extractLsb'_toNat, rspPair_toNat, Nat.shiftRight_eq_div_pow]
  omega

/-! ### The sum of `RS.POP` -/

theorem rsPopValue_lane (r : Rs) (x : Lane) :
    (rsPopValue r).lane x = rsOut (r.hist.lane x) (rsBase r) (rsPhase r) := by
  cases x with
  | left => rfl
  | right => rfl

/-- The loop over the 16 taps is their sum (43_resampler.md R236). -/
theorem rsAcc_eq_sum (h : Memory 16) (base p : Nat) :
    rsAcc h base p = ∑ k ∈ Finset.range 16, tableAt sinc p k * rsSample h (base - 7 + k) := by
  simp only [rsAcc, List.foldl_cons, List.foldl_nil, Finset.sum_range_succ, Finset.sum_range_zero]

/-- Input sample number base - 7 + k stands at the ring index that a non-negative sum gives (20_memory.md R78). -/
theorem rsSample_tap (h : Memory 16) (base k : Nat) :
    rsSample h (base - 7 + k) =
      if (base : Int) - 7 + k < 0 then 0 else (h.read ((base + 32 - 7 + k) % 32)).toInt := by
  unfold rsSample
  split
  · rfl
  · next hnonneg => rw [show ((base : Int) - 7 + k).toNat % 32 = (base + 32 - 7 + k) % 32 by omega]

/-- A clamped sum is an `s16` (00_scope.md R11). -/
theorem s16_clamp16_toInt (v : Int) : (s16 (clamp16 v)).toInt = clamp16 v := by
  rw [s16, BitVec.toInt_ofInt]
  unfold clamp16
  exact Int.bmod_eq_of_le (by omega) (by omega)

theorem rsOut_toInt (h : Memory 16) (base p : Nat) :
    (rsOut h base p).toInt = max (-32768) (min 32767 (rsAcc h base p / 32768)) := s16_clamp16_toInt _

/-- The output sample as the sum over the ring's elements. -/
theorem rsOut_toInt_eq_sum (h : Memory 16) (base p : Nat) :
    (rsOut h base p).toInt = max (-32768) (min 32767 ((∑ k ∈ Finset.range 16, tableAt sinc p k *
      (if (base : Int) - 7 + k < 0 then 0 else ((h.read ((base + 32 - 7 + k) % 32)).toInt))) / 32768)) := by
  simp only [rsOut_toInt, rsAcc_eq_sum, rsSample_tap]

/-- Settles O55: the response holds the two lanes' samples, each the clamped sum of its taps. -/
theorem rsPopReturnsSum : Obligations.RsPopReturnsSum := by
  intro s
  refine ⟨_, exec_rsPop_next s, rspPair_lt _, fun x => ?_⟩
  cases x with
  | left =>
    rw [rspPair_low]
    exact rsOut_toInt_eq_sum s.rs.hist.l (rsBase s.rs) (rsPhase s.rs)
  | right =>
    rw [rspPair_high]
    exact rsOut_toInt_eq_sum s.rs.hist.r (rsBase s.rs) (rsPhase s.rs)

/-! ### Unit gain -/

/-- Every row of SINC sums to 32768 (43_resampler.md R231). -/
theorem sinc_row_sum : ∀ p < 33, ∑ k ∈ Finset.range 16, tableAt sinc p k = 32768 := by decide

/-- There are 33 phases: a fraction that rounds up to 1 has its own row (43_resampler.md R231). -/
theorem rsPhase_lt (r : Rs) : rsPhase r < 33 := by
  unfold rsPhase
  omega

/-- A constant input leaves the sum of the row as its factor (43_resampler.md R239). -/
theorem rsAcc_constant {h : Memory 16} {base p : Nat} {c : Int} (hp : p < 33)
    (hc : ∀ k : Nat, k < 16 → rsSample h (base - 7 + k) = c) : rsAcc h base p = 32768 * c := by
  calc rsAcc h base p
      = ∑ k ∈ Finset.range 16, tableAt sinc p k * c := by
        rw [rsAcc_eq_sum]
        exact Finset.sum_congr rfl fun k hk => by rw [hc k (Finset.mem_range.mp hk)]
    _ = 32768 * c := by rw [← Finset.sum_mul, sinc_row_sum p hp]

theorem rsOut_constant {h : Memory 16} {base p : Nat} {c : Sample} (hp : p < 33)
    (hc : ∀ k : Nat, k < 16 → rsSample h (base - 7 + k) = c.toInt) : rsOut h base p = c := by
  have hlow := BitVec.le_toInt c
  have hhigh := BitVec.toInt_lt (x := c)
  apply BitVec.eq_of_toInt_eq
  rw [rsOut_toInt, rsAcc_constant hp hc]
  omega

/-- Settles O56: in each lane the 16 taps read one value, and the row sums to one. -/
theorem resamplerHasUnitGain : Obligations.ResamplerHasUnitGain := by
  intro s c hconst
  have hlane : ∀ x : Lane, (rsPopValue s.rs).lane x = c.lane x := fun x => by
    rw [rsPopValue_lane]
    refine rsOut_constant (rsPhase_lt s.rs) fun k hk => ?_
    obtain ⟨hstarted, hread⟩ := hconst x k hk
    rw [rsSample_tap, if_neg (by unfold rsBase; omega)]
    exact congrArg BitVec.toInt hread
  have hl : (rsPopValue s.rs).l = c.l := hlane .left
  have hr : (rsPopValue s.rs).r = c.r := hlane .right
  rw [exec_rsPop_next, rspPair_eq_append, hl, hr]

end Sys2Proof.Proofs
end

section
/-! `RS.REN` as its turns (43_resampler.md R238). A turn pulls the missing inputs and advances the position; the loop is
that turn repeated, and the buffers it leaves hold the outputs of the turns from the loop's first index on. -/

namespace Sys2Proof.Proofs

open Sys2Proof Sys2Proof.Machine

/-! ### One turn -/

/-- The state in which the next output is computed: the missing inputs are there. -/
def rsReady (s : State) : State := rsPulls (rsMissing s.rs) s

/-- One turn of the loop of `RS.REN`, less the write to the host's buffers. -/
def rsTurn (s : State) : State := (rsReady s).withRs (rsAdvance (rsReady s).rs)

/-- The host's buffers after a turn for output index `i`. -/
def rsWritten (i : Nat) (s : State) : Stereo (Memory 32) := (rsEmit i (rsReady s)).host.out

/-- The pair that turn number `k` from `s` on puts out. -/
def rsOutput (k : Nat) (s : State) : Stereo Sample := rsPopValue (rsReady (rsTurn^[k] s)).rs

theorem rsLoop_succ (n i : Nat) (s : State) :
    rsLoop (n + 1) i s = rsLoop n (i + 1) ((rsTurn s).withOut (rsWritten i s)) := rfl

theorem rsReady_withOut (s : State) (o : Stereo (Memory 32)) : rsReady (s.withOut o) = (rsReady s).withOut o :=
  rsPulls_commute (u := fun s => s.withOut o) (fun s => by simp only [rsPull_eq]; rfl) (rsMissing s.rs) s

theorem rsTurn_withOut (s : State) (o : Stereo (Memory 32)) : rsTurn (s.withOut o) = (rsTurn s).withOut o := by
  rw [rsTurn, rsReady_withOut]
  rfl

theorem rsTurns_withOut (n : Nat) (s : State) (o : Stereo (Memory 32)) :
    rsTurn^[n] (s.withOut o) = (rsTurn^[n] s).withOut o :=
  Function.Commute.iterate_left (g := fun s => s.withOut o) (fun s => rsTurn_withOut s o) n s

theorem rsOutput_withOut (k : Nat) (s : State) (o : Stereo (Memory 32)) :
    rsOutput k (s.withOut o) = rsOutput k s := by
  rw [rsOutput, rsTurns_withOut, rsReady_withOut]
  rfl

theorem rsReady_out (s : State) : (rsReady s).host.out = s.host.out := by
  obtain ⟨-, -, -, -, -, -, -, hout, -⟩ := rsPulls_spec (rsMissing s.rs) s
  exact hout

/-- A turn for index `i` overwrites element `i` in both buffers and leaves every other one. -/
theorem rsWritten_lane (i : Nat) (s : State) (x : Lane) :
    (rsWritten i s).lane x = (s.host.out.lane x).write i (s32 ((rsOutput 0 s).lane x).toInt) := by
  rw [← rsReady_out s]
  cases x with
  | left => rfl
  | right => rfl

theorem rsWritten_wf {s : State} (hwf : pairWf s.host.out) (i : Nat) : pairWf (rsWritten i s) := fun x => by
  rw [rsWritten_lane]
  exact Memory.wf_write (hwf x) _ _

/-! ### The loop -/

/-- But for the host's buffers the loop is its turns. -/
theorem rsLoop_eq_turns (n i : Nat) (s : State) :
    rsLoop n i s = (rsTurn^[n] s).withOut (rsLoop n i s).host.out := by
  induction n generalizing i s with
  | zero => rfl
  | succ n ih =>
    rw [rsLoop_succ, Function.iterate_succ_apply]
    refine (ih (i + 1) ((rsTurn s).withOut (rsWritten i s))).trans ?_
    rw [rsTurns_withOut]
    rfl

theorem rsLoop_rs (n i : Nat) (s : State) : (rsLoop n i s).rs = (rsTurn^[n] s).rs := by
  rw [rsLoop_eq_turns, State.withOut_rs]

theorem rsLoop_answers (n i : Nat) (s : State) : (rsLoop n i s).host.answers = (rsTurn^[n] s).host.answers := by
  rw [rsLoop_eq_turns, State.withOut_host_answers]

theorem rsLoop_pulled (n i : Nat) (s : State) : (rsLoop n i s).host.pulled = (rsTurn^[n] s).host.pulled := by
  rw [rsLoop_eq_turns, State.withOut_host_pulled]

/-- The loop writes the outputs of its turns from index `i` on, and no other element. -/
theorem rsLoop_out_read {s : State} (hwf : pairWf s.host.out) (n i : Nat) (x : Lane) (j : Nat) :
    ((rsLoop n i s).host.out.lane x).read j =
      if i ≤ j ∧ j < i + n then s32 ((rsOutput (j - i) s).lane x).toInt else (s.host.out.lane x).read j := by
  induction n generalizing i s with
  | zero => rw [if_neg (by omega)]; rfl
  | succ n ih =>
    rw [rsLoop_succ, ih (s := (rsTurn s).withOut (rsWritten i s)) (rsWritten_wf hwf i), rsOutput_withOut,
      State.withOut_host_out, rsWritten_lane, Memory.read_write (hwf x)]
    rcases Nat.lt_trichotomy j i with hbefore | rfl | hafter
    · rw [if_neg (by omega), if_neg (by omega), if_neg (by omega)]
    · rw [if_neg (by omega), if_pos rfl, if_pos (by omega), Nat.sub_self]
    · have hturn : rsOutput (j - (i + 1)) (rsTurn s) = rsOutput (j - i) s := by
        rw [show j - i = j - (i + 1) + 1 by omega]
        rfl
      rw [hturn, if_neg (show j ≠ i by omega)]
      exact if_congr (by omega) rfl rfl

/-! ### What the turns pull -/

/-- `rsWr` after `n` turns: what the last output needs, if that is more than what was there. -/
def rsWrAfter (r : Rs) : Nat → Nat
  | 0 => r.rsWr.toNat
  | n + 1 => max r.rsWr.toNat ((r.rsPos.toNat + n * r.rsStep.toNat) / 2 ^ 20 + 9)

theorem le_rsWrAfter (r : Rs) (n : Nat) : r.rsWr.toNat ≤ rsWrAfter r n := by
  cases n with
  | zero => exact le_refl _
  | succ n => exact le_max_left _ _

/-- A later output needs no less than an earlier one. -/
theorem rsWrAfter_succ (r : Rs) (n : Nat) :
    rsWrAfter r (n + 1) = max (rsWrAfter r n) ((r.rsPos.toNat + n * r.rsStep.toNat) / 2 ^ 20 + 9) := by
  cases n with
  | zero => rfl
  | succ n =>
    have hstep : (n + 1) * r.rsStep.toNat = n * r.rsStep.toNat + r.rsStep.toNat := Nat.succ_mul _ _
    simp only [rsWrAfter]
    omega

/-- What `n` turns leave where the position does not wrap. -/
structure AfterTurns (n : Nat) (s t : State) : Prop where
  step : t.rs.rsStep = s.rs.rsStep
  pos : t.rs.rsPos.toNat = s.rs.rsPos.toNat + n * s.rs.rsStep.toNat
  wr : t.rs.rsWr.toNat = rsWrAfter s.rs n
  pulled : t.host.pulled = s.host.pulled + (rsWrAfter s.rs n - s.rs.rsWr.toNat)
  answers : t.host.answers = s.host.answers.drop (rsWrAfter s.rs n - s.rs.rsWr.toNat)

theorem rsBase_lt (r : Rs) : rsBase r < 2 ^ 44 := by
  have hpos := r.rsPos.isLt
  unfold rsBase
  omega

/-- One turn: it pulls the missing inputs and advances by one step. -/
theorem rsTurn_spec (s : State) :
    (rsTurn s).rs.rsStep = s.rs.rsStep ∧ (rsTurn s).rs.rsPos = s.rs.rsPos + s.rs.rsStep ∧
    (rsTurn s).rs.rsWr.toNat = s.rs.rsWr.toNat + rsMissing s.rs ∧
    (rsTurn s).host.pulled = s.host.pulled + rsMissing s.rs ∧
    (rsTurn s).host.answers = s.host.answers.drop (rsMissing s.rs) := by
  obtain ⟨-, -, -, hstep, hpos, hwr, -, -, -, hpulled, hanswers, -⟩ := rsPulls_spec (rsMissing s.rs) s
  refine ⟨hstep, ?_, ?_, hpulled, hanswers⟩
  · rw [rsTurn, State.withRs_rs, rsAdvance_rsPos, rsReady, hpos, hstep]
  · have hbase := rsBase_lt s.rs
    have hlt := s.rs.rsWr.isLt
    have hsum : s.rs.rsWr.toNat + rsMissing s.rs < 2 ^ 64 := by
      unfold rsMissing
      omega
    show (rsReady s).rs.rsWr.toNat = _
    rw [rsReady, hwr, BitVec.toNat_add, BitVec.toNat_ofNat, Nat.add_mod_mod, Nat.mod_eq_of_lt hsum]

theorem AfterTurns.turn {n : Nat} {s t : State} (h : AfterTurns n s t)
    (hfits : s.rs.rsPos.toNat + (n + 1) * s.rs.rsStep.toNat < 2 ^ 64) : AfterTurns (n + 1) s (rsTurn t) := by
  obtain ⟨hstep, hpos, hwr, hpulled, hanswers⟩ := rsTurn_spec t
  have hle := le_rsWrAfter s.rs n
  have hmul : (n + 1) * s.rs.rsStep.toNat = n * s.rs.rsStep.toNat + s.rs.rsStep.toNat := Nat.succ_mul _ _
  have hmissing : rsWrAfter s.rs (n + 1) = rsWrAfter s.rs n + rsMissing t.rs := by
    rw [rsWrAfter_succ, ← h.wr, ← h.pos, rsMissing, rsBase]
    omega
  refine ⟨hstep.trans h.step, ?_, ?_, ?_, ?_⟩
  · rw [hpos, BitVec.toNat_add, h.step, h.pos, Nat.mod_eq_of_lt (by omega)]
    omega
  · rw [hwr, h.wr, hmissing]
  · rw [hpulled, h.pulled, hmissing]
    omega
  · rw [hanswers, h.answers, List.drop_drop, hmissing]
    congr 1
    omega

theorem afterTurns (n : Nat) {s : State} (hfits : s.rs.rsPos.toNat + n * s.rs.rsStep.toNat < 2 ^ 64) :
    AfterTurns n s (rsTurn^[n] s) := by
  induction n with
  | zero => exact ⟨rfl, by simp, rfl, by simp [rsWrAfter], by simp [rsWrAfter]⟩
  | succ n ih =>
    have hmul : (n + 1) * s.rs.rsStep.toNat = n * s.rs.rsStep.toNat + s.rs.rsStep.toNat := Nat.succ_mul _ _
    rw [Function.iterate_succ_apply']
    exact (ih (by omega)).turn hfits

theorem rsWrAfter_eq (r : Rs) (n : Nat) :
    rsWrAfter r n = if n = 0 then r.rsWr.toNat
      else max r.rsWr.toNat ((r.rsPos.toNat + (n - 1) * r.rsStep.toNat) / 2 ^ 20 + 9) := by
  cases n with
  | zero => rfl
  | succ n => rfl

/-! ### A pull is a push of the host's answer -/

theorem rsMissing_rsPull {s : State} (h : s.rs.rsWr.toNat < rsBase s.rs + 9) :
    rsMissing s.rs = rsMissing (rsPull s).rs + 1 := by
  have hbase := rsBase_lt s.rs
  have hwr : (rsPull s).rs.rsWr.toNat = s.rs.rsWr.toNat + 1 := by
    have hone : (1 : BitVec 64).toNat = 1 := rfl
    rw [rsPull_eq, State.withRs_rs, rsPush_rsWr, BitVec.toNat_add, hone, Nat.mod_eq_of_lt (by omega)]
  have hpos : rsBase (rsPull s).rs = rsBase s.rs := rfl
  rw [rsMissing, rsMissing, hwr, hpos]
  omega

/-- While the next output lacks input, the loop does what it does after one more pull. -/
theorem rsLoop_rsPull {s : State} (h : s.rs.rsWr.toNat < rsBase s.rs + 9) (n i : Nat) :
    rsLoop (n + 1) i (rsPull s) = rsLoop (n + 1) i s := by
  rw [rsLoop, rsLoop, rsMissing_rsPull h, rsPulls]

theorem exec_rsRen_next (count : BitVec 32) (s : State) :
    exec (.rsRen count) s = .next ((rsLoop count.toNat 0 s).respond 0) := rfl

theorem exec_rsRen_respond (count : BitVec 32) (s : State) (v : BitVec 64) :
    exec (.rsRen count) (s.respond v) = exec (.rsRen count) s := by
  rw [exec_rsRen_next, rsLoop_respond, State.respond_respond, ← exec_rsRen_next]

/-- A pull is `RS.PUSH` of the next answer, once the request has been made. -/
theorem exec_rsPush_nextAnswer (s : State) :
    exec (.rsPush (nextAnswer s.host).l (nextAnswer s.host).r) { s with host := { s.host with
      answers := s.host.answers.drop 1, pulled := s.host.pulled + 1 } } = .next ((rsPull s).respond 0) := by
  rw [rsPull_eq]
  rfl

/-- Settles O57: the turns count what is pulled, and the first missing input can be pushed beforehand. -/
theorem rsRenPullsOnlyWhenNeeded : Obligations.RsRenPullsOnlyWhenNeeded := by
  refine ⟨fun count s hwf hfits => ?_, fun count s hcount hlacks => ?_⟩
  · obtain ⟨hparams, hdbuf, hpsg, hstep, hevents, -⟩ := rsLoop_frame count.toNat 0 s
    have hturns := afterTurns count.toNat hfits
    intro n last wr
    rw [show wr = rsWrAfter s.rs count.toNat from (rsWrAfter_eq s.rs count.toNat).symm]
    refine ⟨_, exec_rsRen_next count s, hparams, hdbuf, hpsg, hstep, ?_, ?_, ?_, ?_, hevents, rfl, fun x i hi => ?_⟩
    · exact (congrArg (fun r : Rs => r.rsPos.toNat) (rsLoop_rs _ _ _)).trans hturns.pos
    · exact (congrArg (fun r : Rs => r.rsWr.toNat) (rsLoop_rs _ _ _)).trans hturns.wr
    · exact (rsLoop_pulled _ _ _).trans hturns.pulled
    · exact (rsLoop_answers _ _ _).trans hturns.answers
    · rw [State.respond_host_out, rsLoop_out_read hwf, if_neg (by omega)]
  · obtain ⟨n, hn⟩ : ∃ n, count.toNat = n + 1 := ⟨count.toNat - 1, by omega⟩
    refine ⟨_, _, exec_rsPush_nextAnswer s, exec_rsRen_next count _, ?_⟩
    rw [← exec_rsRen_next, exec_rsRen_respond, exec_rsRen_next, exec_rsRen_next, hn, rsLoop_rsPull hlacks]

/-! ### Output by output -/

/-- With enough input there nothing is pulled. -/
theorem rsReady_of_enough {s : State} (h : rsBase s.rs + 9 ≤ s.rs.rsWr.toNat) : rsReady s = s := by
  rw [rsReady, rsMissing, Nat.sub_eq_zero_of_le h, rsPulls]

/-- The turns after a loop are the turns that follow its own. -/
theorem rsTurns_rsLoop (k n i : Nat) (s : State) :
    rsTurn^[k] (rsLoop n i s) = (rsTurn^[k + n] s).withOut (rsLoop n i s).host.out := by
  rw [Function.iterate_add_apply, ← rsTurns_withOut, ← rsLoop_eq_turns]

theorem rsOutput_rsLoop (k n i : Nat) (s : State) : rsOutput k (rsLoop n i s) = rsOutput (k + n) s := by
  rw [rsOutput, rsTurns_rsLoop, rsReady_withOut]
  rfl

theorem andThen_rsRen (a b : BitVec 32) (s : State) :
    andThen (exec (.rsRen a) s) (.rsRen b) = .next ((rsLoop b.toNat 0 (rsLoop a.toNat 0 s)).respond 0) :=
  exec_rsRen_respond b (rsLoop a.toNat 0 s) 0

/-- Settles O58: one turn is a pop where nothing is missing, and turns add up. -/
theorem rsRenIsRepeatedPop : Obligations.RsRenIsRepeatedPop := by
  refine ⟨fun s hwf henough => ?_, fun a b s hwf hfits => ?_⟩
  · have hready : rsReady s = s := rsReady_of_enough henough
    have hout : rsOutput 0 s = rsPopValue s.rs := by
      rw [rsOutput, Function.iterate_zero_apply, hready]
    have hread : ∀ x : Lane, ((rsLoop 1 0 s).host.out.lane x).read 0 = s32 ((rsPopValue s.rs).lane x).toInt :=
      fun x => by rw [rsLoop_out_read hwf, if_pos (by omega), Nat.sub_self, hout]
    refine ⟨_, _, exec_rsRen_next 1 s, rfl, ?_, ?_, ?_⟩
    · show (rsLoop 1 0 s).rs = rsAdvance s.rs
      rw [rsLoop_rs, Function.iterate_one, rsTurn, hready, State.withRs_rs]
    · rw [State.respond_host_rsp, rspPair_low]
      exact hread .left
    · rw [State.respond_host_rsp, rspPair_high]
      exact hread .right
  · have hsum : (a + b).toNat = b.toNat + a.toNat := by
      rw [BitVec.toNat_add, Nat.mod_eq_of_lt hfits, Nat.add_comm]
    obtain ⟨-, -, -, -, -, -, -, hout⟩ := rsLoop_frame a.toNat 0 s
    refine ⟨_, _, andThen_rsRen a b s, exec_rsRen_next (a + b) s, ?_, ?_, ?_, fun x i hi => ?_⟩
    · rw [State.respond_rs, State.respond_rs, rsLoop_rs, rsLoop_rs, rsTurns_rsLoop, State.withOut_rs, hsum]
    · rw [State.respond_host_answers, State.respond_host_answers, rsLoop_answers, rsLoop_answers, rsTurns_rsLoop,
        State.withOut_host_answers, hsum]
    · rw [State.respond_host_pulled, State.respond_host_pulled, rsLoop_pulled, rsLoop_pulled, rsTurns_rsLoop,
        State.withOut_host_pulled, hsum]
    · rw [State.respond_host_out, State.respond_host_out, rsLoop_out_read (hout hwf), if_pos (by omega),
        rsLoop_out_read hwf, if_pos (by omega), Nat.sub_zero, Nat.sub_zero, rsOutput_rsLoop, Nat.add_comm]

end Sys2Proof.Proofs
end
